-- ==== Sys2Proof/Word.lean ====
section
/-! DEFINITION. The word types of the block (00_scope.md R8, 10_state.md R14 to R26) and a vector built from a function. -/

namespace Sys2Proof

/-- One byte of IN or OUT (20_memory.md R38, R40). -/
abbrev Byte := BitVec 8

/-- A 16-bit refill word (00_scope.md R6, WORD = 16). -/
abbrev Word16 := BitVec 16

/-- An interface register, a position or a length (10_state.md R16, R17, R27). -/
abbrev Word32 := BitVec 32

/-- A Huffman symbol, 0 to 511 (30_encoding.md R61). -/
abbrev Sym := BitVec 9

/-- A slot: the low eight bits of a match symbol (30_encoding.md R61). -/
abbrev Slot := BitVec 8

/-- Four bits: a code length (R23), a count of extra distance bits or a length nibble (R61). -/
abbrev Nibble := BitVec 4

/-- The vector whose entry `i` is `f i`. -/
def tabulate {α : Type} (n : Nat) (f : Nat → α) : Vector α n :=
  ⟨((List.range n).map f).toArray, by simp⟩

/-- The first `n` entries of a list, `d` standing for those a shorter list lacks. -/
def vectorOfList {α : Type} (n : Nat) (d : α) (l : List α) : Vector α n :=
  ⟨((l ++ List.replicate n d).take n).toArray, by simp⟩

end Sys2Proof
end

