-- ==== Sys2Proof/Machine/Datapath.lean ====
section
/-! DEFINITION. The datapath of the block: the registers, the flag and the table files that the host cannot reach
(10_state.md sections 2, 4 and 6; R35). They stand in a structure of their own because a fault leaves exactly these
without a defined value (60_exceptions.md R137). -/

namespace Sys2Proof.Machine

/-- The sequencer register PHASE, 10_state.md R19: INIT pending, or tokens being decoded. -/
inductive Phase where
  | init
  | run
deriving DecidableEq, Repr, Inhabited

/-- The hidden registers, the flag DEGEN and the table files, 10_state.md R14 to R26. -/
structure Datapath where
  /-- ACC, R14: the buffered bits, left-aligned in ACCW bits, as the number these bits spell. ACCW is a parameter (R7), so
  it is no part of the type: every write keeps the number within `Config.accw` bits (DESIGN CHOICE, log 2). -/
  acc : Nat
  /-- BCNT, R15: how many bits of ACC are valid, 0 to 32 with the default ACCW. -/
  bcnt : BitVec 6
  /-- SYM, R18: the decoded symbol. -/
  sym : Sym
  /-- MLEN, R18: the match length. -/
  mlen : BitVec 17
  /-- MDIST, R18: the match distance. -/
  mdist : BitVec 16
  /-- MREM, R18: bytes of the current copy still to be made. -/
  mrem : BitVec 17
  /-- PHASE, R19. -/
  phase : Phase
  /-- BEND, R19: the output position at which the current block ends (used only when BLOCK_LEN is a number). -/
  bend : BitVec 33
  /-- DEGEN, R21: the one flag, set when the table has exactly one symbol of nonzero length. -/
  degen : Bool
  /-- DSYM, R26: that symbol. -/
  dsym : Sym
  /-- NNZ, R26: the number of symbols of nonzero length. -/
  nnz : BitVec 10
  /-- KRAFT, R26: the Kraft sum of R97. -/
  kraft : BitVec 24
  /-- LEN[0..511], R23: the code lengths. -/
  len : Vector Nibble 512
  /-- CNT[1..15], R24: entry `l` stands at index `l - 1`. -/
  cnt : Vector (BitVec 10) 15
  /-- FIRST[1..15], R24: entry `l` stands at index `l - 1` (16 bits wide: DEDUCED, log 12). -/
  first : Vector (BitVec 16) 15
  /-- CODE[0..511], R25: the canonical codes. -/
  code : Vector (BitVec 15) 512
deriving DecidableEq, Repr, Inhabited

end Sys2Proof.Machine
end

