-- ==== Sys2Proof/Config.lean ====
section
/-! DEFINITION. The configuration: the parameters that 00_scope.md R7 leaves open, each with the spec's default, the
parameters that R6 fixes, and the model's one free value. -/

namespace Sys2Proof

/-- BITORDER, R7: which bit of a 16-bit word is consumed first (20_memory.md R42). -/
inductive BitOrder where
  /-- bit 15 first, the default -/
  | msbFirst
  /-- bit 0 first -/
  | lsbFirst
deriving DecidableEq, Repr

/-- NIBBLE_EVEN, R7: which nibble of table byte `i` is symbol `2i` (30_encoding.md R59). -/
inductive NibbleEven where
  /-- bits 3:0, the default -/
  | low
  /-- bits 7:4 -/
  | high
deriving DecidableEq, Repr

/-- The open parameters of 00_scope.md R7, each a field (DESIGN CHOICE, log 1). -/
structure Config where
  /-- ACCW: the width of the bit accumulator in bits. -/
  accw : Nat
  /-- BITORDER. -/
  bitOrder : BitOrder
  /-- PRIME_WORDS: words loaded before the first symbol of a block. -/
  primeWords : Nat
  /-- NIBBLE_EVEN. -/
  nibbleEven : NibbleEven
  /-- SLOT_DBITS: extra distance bits of a slot. -/
  slotDbits : Slot → Nibble
  /-- SLOT_LNIB: length nibble of a slot. -/
  slotLnib : Slot → Nibble
  /-- LEN_SENTINEL: the saturated nibble value. -/
  lenSentinel : Nibble
  /-- MIN_MATCH: added to the length field. -/
  minMatch : Nat
  /-- DIST_BASE: added to the extra distance bits. -/
  distBase : Nibble → Nat
  /-- BLOCK_LEN: output bytes per code table, or one table for the whole stream. -/
  blockLen : Option Nat
  /-- OUT_CAP: capacity of the output memory in bytes. -/
  outCap : Nat

namespace Config

/-- The defaults of R7. This is the configuration of `step` and of `exec`. -/
def std : Config where
  accw := 32
  bitOrder := .msbFirst
  primeWords := 2
  nibbleEven := .low
  slotDbits := fun slot => slot.extractLsb' 4 4
  slotLnib := fun slot => slot.extractLsb' 0 4
  lenSentinel := 15
  minMatch := 3
  distBase := fun dbits => 1 <<< dbits.toNat
  blockLen := none
  outCap := 2 ^ 32 - 1

/-- The values of the parameters for which the rules of the spec hold: ACC has room for 15 bits and a word (D2 of
92_eei_decisions.md), PRIME leaves at least the 16 bits a PEEK may ask for (R78), no more than ACC holds (R76) and no more
than the six bits of BCNT count (R15), every length and distance fits its register and no distance is 0 (R115, R119), a
block length is positive (D9) and leaves BEND within its 33 bits (R19; DEDUCED, log 1). -/
abbrev Valid (c : Config) : Prop :=
  31 ≤ c.accw ∧
  (1 ≤ c.primeWords ∧ 16 * c.primeWords ≤ c.accw ∧ 16 * c.primeWords < 2 ^ 6) ∧
  (0 < c.minMatch ∧ 65535 + c.minMatch < 2 ^ 17) ∧
  (∀ d : Nibble, 1 ≤ c.distBase d ∧ c.distBase d + (2 ^ d.toNat - 1) < 2 ^ 16) ∧
  (∀ n : Nat, c.blockLen = some n → 0 < n ∧ n ≤ 2 ^ 32)

/-- NSYM, R6: symbols of the alphabet. -/
abbrev nsym : Nat := 512

/-- TABLE_BYTES, R6: bytes of packed code lengths. -/
abbrev tableBytes : Nat := 256

/-- MAXLEN, R6: the greatest code length. -/
abbrev maxLen : Nat := 15

/-- HDR_BYTES, R6: the container header's length. -/
abbrev hdrBytes : Nat := 8

/-- The model's free value: what the datapath holds where the spec gives it no value, the `n`-th time that happens:
after a fault, when these registers "hold no defined value from then on" (60_exceptions.md R137; log 4), and from START until
INIT (10_state.md R21, 92_eei_decisions.md D34; log 27). DESIGN CHOICE; safe: nothing can be proved of it. -/
opaque freeDatapath : Nat → Machine.Datapath

end Config

end Sys2Proof
end

