-- ==== Sys2Proof/Syntax.lean ====
section
/-! DEFINITION. The instructions: the four token forms of the compressed stream and the host's one command, one
constructor per row of opcode_table.json (30_encoding.md R62 to R65, R72; 42_token_engine.md R106). -/

namespace Sys2Proof

/-- One instruction with all its operands. The bits `extra` and the extension bytes of a match are part of the token
(R55, R63 to R65), so they are operands here (DESIGN CHOICE, log 13). -/
inductive Instr where
  /-- LIT b, R62 and R111: emit the byte `b`. -/
  | lit (b : Byte)
  /-- MATCH, R63 and R112: `dbits` extra distance bits, length nibble `lnib`, the distance bits' value `extra`. -/
  | matchM (dbits lnib : Nibble) (extra : BitVec 15)
  /-- MATCHX8, R64 and R113: the extension byte `b`, not 0xff. -/
  | matchX8 (dbits : Nibble) (b : Byte) (extra : BitVec 15)
  /-- MATCHX16, R65 and R114: the 16-bit extension value `v` after the byte 0xff. -/
  | matchX16 (dbits : Nibble) (v : Word16) (extra : BitVec 15)
  /-- START, R28 and R106: the 32-bit value the host writes to CTRL. -/
  | start (value : Word32)
deriving DecidableEq, Repr

end Sys2Proof
end

