-- ==== Sys2Proof/WellFormed.lean ====
section
/-! DEFINITION. Which instructions an encoding can spell: the "constraint" column of opcode_table.json and
30_encoding.md R63 to R65, R69(c), R72, with 10_state.md R28 for START. -/

namespace Sys2Proof

/-- The extra distance bits fit in `dbits` bits (R67). -/
def extraFits (dbits : Nibble) (extra : BitVec 15) : Bool := extra.toNat < 2 ^ dbits.toNat

/-- The constraints of the opcode table, for a configuration. -/
def Instr.wellFormedIn (c : Config) : Instr → Bool
  | .lit _ => true
  | .matchM dbits lnib extra => lnib != c.lenSentinel && extraFits dbits extra
  | .matchX8 dbits b extra => b != 255 && extraFits dbits extra
  | .matchX16 dbits v extra => decide (15 ≤ v.toNat) && extraFits dbits extra
  | .start value => value.getLsbD 0

/-- Well-formed for the spec's default parameters. -/
def Instr.wellFormed (i : Instr) : Bool := i.wellFormedIn Config.std

end Sys2Proof
end

