-- ==== Sys2Proof/Decode.lean ====
section
/-! DEFINITION. The decoder (30_encoding.md R61 to R68, R72; 10_state.md R28), total on any symbol, any bytes and any
window of bits, and after it the encoder. A token is spelled by its symbol (the Huffman code of which depends on the
stream's own table, R60), its extension bytes and its extra distance bits (R55). -/

namespace Sys2Proof

/-- Why words decode to no instruction. -/
inductive DecodeReject where
  /-- a saturated length nibble and no extension byte (R64, R65) -/
  | extensionByteMissing
  /-- the extension byte 0xff and fewer than two bytes after it (R65) -/
  | extensionValueMissing
  /-- a value written to CTRL whose bit 0 is 0: no command (R28) -/
  | startBitClear
deriving DecidableEq, Repr

/-- The literal bit M of a symbol, R61. -/
def symIsMatch (sym : Sym) : Bool := sym.getLsbD 8

/-- BYTE or SLOT of a symbol, R61. -/
def symLow (sym : Sym) : BitVec 8 := sym.setWidth 8

/-- The first `n` bits of a window of fifteen, first bit most significant (R67; PEEK(m) = PEEK(15) >> (15 - m), R78). -/
def windowBits (window : BitVec 15) (n : Nat) : BitVec 15 := window >>> (15 - n)

/-- A 16-bit value of two bytes, little-endian (20_memory.md R41). -/
def wordOfBytes (lo hi : Byte) : Word16 := hi ++ lo

/-- The token of a symbol, of the bytes at the stream position and of the next fifteen bits, with the bytes it does
not take: the map of R72 with the fields of R61. -/
def decodeToken (c : Config) (sym : Sym) (bytes : List Byte) (window : BitVec 15) :
    Except DecodeReject (Instr × List Byte) :=
  if symIsMatch sym = false then .ok (.lit (symLow sym), bytes)
  else
    let dbits := c.slotDbits (symLow sym)
    let lnib := c.slotLnib (symLow sym)
    let extra := windowBits window dbits.toNat
    if lnib ≠ c.lenSentinel then .ok (.matchM dbits lnib extra, bytes)
    else match bytes with
      | [] => .error .extensionByteMissing
      | b :: rest =>
        if b ≠ 255 then .ok (.matchX8 dbits b extra, rest)
        else match rest with
          | lo :: hi :: rest' => .ok (.matchX16 dbits (wordOfBytes lo hi) extra, rest')
          | _ => .error .extensionValueMissing

/-- The command of a value written to CTRL, R28: bit 0 is START, bits 31:1 are ignored. -/
def decodeCommand (value : Word32) : Except DecodeReject Instr :=
  if value.getLsbD 0 then .ok (.start value) else .error .startBitClear

/-- The words of an instruction: a token's symbol, extension bytes and window of bits, or a value written to CTRL. -/
inductive InstrWords where
  | token (sym : Sym) (bytes : List Byte) (window : BitVec 15)
  | command (value : Word32)
deriving DecidableEq, Repr

/-- The instruction of some words; a token leaves the bytes after its extension unread. -/
def decode (c : Config) : InstrWords → Except DecodeReject Instr
  | .token sym bytes window => (decodeToken c sym bytes window).map Prod.fst
  | .command value => decodeCommand value

/-- An `Except` without its reason. -/
def toOption? {ε α : Type} : Except ε α → Option α
  | .ok a => some a
  | .error _ => none

/-- The symbol in the numbering of the opcode table: bits 8:0 of a 16-bit word whose bits 15:9 are 0. -/
def tableSym (w : Nat) : Option Sym :=
  if w / 2 ^ 9 % 2 ^ 7 = 0 then some (BitVec.ofNat 9 w) else none

/-- The three bytes after a token's 16-bit symbol word in the opcode table's numbering, bits 39:16. -/
def tableBytesOf (w : Nat) : List Byte :=
  [BitVec.ofNat 8 (w / 2 ^ 16), BitVec.ofNat 8 (w / 2 ^ 24), BitVec.ofNat 8 (w / 2 ^ 32)]

/-- The instruction of a word of opcode_table.json: 32 bits are a value written to CTRL, any other width is a token's
symbol in 16 bits and then its extension bytes, the window of distance bits being 0 (DESIGN CHOICE, log 14). -/
def decodeTableWord (nbits w : Nat) : Option Instr :=
  if nbits = 32 then toOption? (decode Config.std (.command (BitVec.ofNat 32 w)))
  else match tableSym w with
    | none => none
    | some sym => toOption? (decode Config.std (.token sym (tableBytesOf w) 0))

/-! ## The encoder -/

/-- The match symbol M(dbits, lnib) = 256 + 16 * dbits + lnib of R61 and R73. -/
def matchSym (dbits lnib : Nibble) : Sym := 1#1 ++ (dbits ++ lnib)

/-- The symbol of a token (R61 to R65), for the default parameters. -/
def tokenSym : Instr → Sym
  | .lit b => 0#1 ++ b
  | .matchM dbits lnib _ => matchSym dbits lnib
  | .matchX8 dbits _ _ => matchSym dbits 15
  | .matchX16 dbits _ _ => matchSym dbits 15
  | .start _ => 0

/-- The extension bytes of a token (R64, R65): none, `b`, or `ff lo hi`. -/
def tokenBytes : Instr → List Byte
  | .matchX8 _ b _ => [b]
  | .matchX16 _ v _ => [255, v.setWidth 8, (v >>> 8).setWidth 8]
  | _ => []

/-- How many extra distance bits a token has (R61) and their value (R67). -/
def tokenExtra : Instr → Nat × BitVec 15
  | .matchM dbits _ extra => (dbits.toNat, extra)
  | .matchX8 dbits _ extra => (dbits.toNat, extra)
  | .matchX16 dbits _ extra => (dbits.toNat, extra)
  | _ => (0, 0)

/-- The window that begins with a token's extra distance bits, the bits after them 0. -/
def tokenWindow (i : Instr) : BitVec 15 := (tokenExtra i).2 <<< (15 - (tokenExtra i).1)

/-- The words of an instruction, for the default parameters (R62 to R65, R28). -/
def encode (i : Instr) : InstrWords :=
  match i with
  | .start value => .command value
  | _ => .token (tokenSym i) (tokenBytes i) (tokenWindow i)

end Sys2Proof
end

