-- ==== Sys2Proof/Machine/State.lean ====
section
/-! DEFINITION. The state of one block instance (10_state.md R13), its reset value (R36, R153), and why a step can
stop. -/

namespace Sys2Proof.Machine

/-- A memory: the bytes that hold a value, by rising address. An unlisted address holds no value (10_state.md R36,
20_memory.md R38 and R40; log 6). -/
abbrev Mem := List Host.Cell

/-- STATUS.STATE, 10_state.md R29. -/
inductive RunState where
  /-- 0: after reset, nothing run -/
  | idle
  /-- 1: a decode is in progress -/
  | busy
  /-- 2: exactly DSIZE bytes are in OUT -/
  | done
  /-- 3: a fault stopped the decode -/
  | err
deriving DecidableEq, Repr

/-- The seven causes of a fault of the block, 60_exceptions.md R134. Taking one is a NEXT state (R137). -/
inductive FaultCause where
  /-- FormatError 1 -/
  | tableInvalid
  /-- FormatError 2 -/
  | badDistance
  /-- FormatError 3 -/
  | badExtension
  /-- BitstreamUnderflow 1 -/
  | tableShort
  /-- BitstreamUnderflow 2 -/
  | primeShort
  /-- BitstreamUnderflow 3 -/
  | refillEmpty
  /-- BitstreamUnderflow 4 -/
  | extensionShort
deriving DecidableEq, Repr

/-- What the host can do in one of its steps (00_scope.md R11, 10_state.md R35, 20_memory.md R50, 70_reset_and_hazards.md
R153, R157). Register numbers are 0 to 7, so a number that does not exist is no move (R35). -/
inductive HostMove where
  /-- write an interface register (R27, R28) -/
  | writeReg (n : BitVec 3) (value : Word32)
  /-- read an interface register (R27, R34) -/
  | readReg (n : BitVec 3)
  /-- write a byte of IN (R50) -/
  | writeIn (addr : Word32) (b : Byte)
  /-- read a byte of IN (R50; DEDUCED, log 20) -/
  | readIn (addr : Word32)
  /-- read a byte of OUT (R50) -/
  | readOut (addr : Word32)
  /-- the outside event reset (R153) -/
  | reset
  /-- the host does nothing, and the engine steps (log 8) -/
  | pass
deriving DecidableEq, Repr

/-- Why the model stops with a fault. None of the four can be raised in a state a run reaches (log 17); each is safe:
the model stops where the spec gives no meaning. -/
inductive Fault where
  /-- COPY reads a byte of OUT that holds no value; raised by `outRead`; safe -/
  | outputByteUnset
  /-- a byte written to OUT at or beyond DSIZE, an address that does not exist (R40); raised by `outWrite`; safe -/
  | outputBeyondSize
  /-- no codeword matches: raised by `lookup`'s caller on tables that BUILD never leaves (R99); safe -/
  | noCodeword
  /-- the bytes read for a token do not decode: raised by the token step, never when it has read them; safe -/
  | undecodable
deriving DecidableEq, Repr

/-- Why the model refuses to give a run a meaning. -/
inductive Refusal where
  /-- no meaning yet for the instruction; raised by `exec`; safe -/
  | notModelled (mnemonic : String)
  /-- START with a byte of IN below IN_LEN that holds no value: launch premise P_IN_VALID is false and the run "has no
  meaning in this spec: the model refuses it" (R156); raised by START; safe -/
  | inputNotValid
  /-- a byte of IN, below IN_LEN, is read to which the host gave no value; raised by every read of IN, the engine's only in
  states that no accepted START leads to (log 26); safe -/
  | inputByteUnset
  /-- START with DSIZE > OUT_CAP: launch premise P_CAP is false (R156); raised by START; safe -/
  | outputCapacity
  /-- a host access to IN or OUT that the ownership rule R50 does not allow, or a host read of a byte of OUT that holds no
  value; raised by the host's moves; safe -/
  | hostAccess
deriving DecidableEq, Repr

/-- The state (R13). The last three fields are the model's own, not the spec's (log 4, log 8, log 27). -/
structure State extends Datapath where
  /-- STATUS.STATE, R29. -/
  status : RunState
  /-- ERRCODE, R30. -/
  errcode : BitVec 2
  /-- ERRSUB, R31. -/
  errsub : BitVec 3
  /-- DSIZE, R32. -/
  dsize : Word32
  /-- IN_LEN, R33. -/
  inLen : Word32
  /-- OPOS, R17 and R34. -/
  opos : Word32
  /-- IPOS, R16 and R34: with BCNT the program counter (R20). -/
  ipos : Word32
  /-- IN, R38. -/
  input : Mem
  /-- OUT, R40. -/
  output : Mem
  /-- The host's moves that are still to come, oldest first (the model's own, log 8). -/
  moves : List HostMove
  /-- What the host's latest read returned (the model's own, log 8). -/
  readData : Word32
  /-- How many free values have been drawn (the model's own, log 4 and log 27). -/
  draws : Nat
deriving DecidableEq, Repr

/-- The datapath at reset. R36 says that these registers hold no value; the model gives them 0 (DESIGN CHOICE, unsafe,
log 3): every run writes each of them before it reads it (R154). -/
def Datapath.reset : Datapath where
  acc := 0
  bcnt := 0
  sym := 0
  mlen := 0
  mdist := 0
  mrem := 0
  phase := .init
  bend := 0
  degen := false
  dsym := 0
  nnz := 0
  kraft := 0
  len := Vector.replicate 512 0
  cnt := Vector.replicate 15 0
  first := Vector.replicate 15 0
  code := Vector.replicate 512 0

/-- The state right after reset, R36 and R153. -/
def State.reset : State where
  toDatapath := Datapath.reset
  status := .idle
  errcode := 0
  errsub := 0
  dsize := 0
  inLen := 0
  opos := 0
  ipos := 0
  input := []
  output := []
  moves := []
  readData := 0
  draws := 0

end Sys2Proof.Machine
end

