-- ==== Sys2Proof/Machine/Ops.lean ====
section
/-! DEFINITION. The named operations over memories and registers (00_scope.md R9), how an operation ends, and taking a
fault, the block's only exception (60_exceptions.md R133 to R142). There is no return from a fault (R141): START and
reset are the ways out, in Machine/Command.lean and Machine/Engine.lean. -/

namespace Sys2Proof.Machine

/-! ## Memories -/

/-- The canonical form from an address on: addresses strictly rising and below 2^32. -/
def Mem.wfFrom : Nat → Mem → Bool
  | _, [] => true
  | lo, (k, _) :: m => decide (lo ≤ k) && decide (k < 2 ^ 32) && Mem.wfFrom (k + 1) m

/-- The canonical form of a memory. No entry can equal what an unlisted address reads as, since that is no value. -/
def Mem.wf (m : Mem) : Bool := Mem.wfFrom 0 m

/-- The byte at an address, if it holds a value. -/
def Mem.read : Mem → Nat → Option Byte
  | [], _ => none
  | (k, v) :: m, a => if a = k then some v else Mem.read m a

/-- A byte written; the canonical form is kept. -/
def Mem.write : Mem → Nat → Byte → Mem
  | [], a, b => [(a, b)]
  | (k, v) :: m, a, b =>
    if a < k then (a, b) :: (k, v) :: m
    else if a = k then (a, b) :: m
    else (k, v) :: Mem.write m a b

/-- Bytes written at rising addresses. -/
def Mem.writeBytes : Mem → Nat → List Byte → Mem
  | m, _, [] => m
  | m, a, b :: bs => Mem.writeBytes (Mem.write m a b) (a + 1) bs

/-- `n` bytes from an address on, if each of them holds a value. -/
def Mem.readBytes : Mem → Nat → Nat → Option (List Byte)
  | _, _, 0 => some []
  | m, a, n + 1 =>
    match Mem.read m a, Mem.readBytes m (a + 1) n with
    | some b, some bs => some (b :: bs)
    | _, _ => none

/-- Does every address from `lo` up to `hi` hold a value? For a memory in canonical form from `lo` on: its entries are then
`lo`, `lo + 1`, .. until `hi` is reached, so one walk along the list decides it. -/
def Mem.filledFrom (hi : Nat) : Nat → Mem → Bool
  | lo, [] => decide (hi ≤ lo)
  | lo, (k, _) :: m => decide (hi ≤ lo) || (decide (k = lo) && Mem.filledFrom hi (lo + 1) m)

/-! ## How an operation ends -/

/-- The end of an operation: a value and the state after it, or the block's fault raised at a state (its IPOS and OPOS
are those of the `raise`, R138), or a stop of the model. -/
inductive Res (α : Type) where
  | ok (a : α) (s : State)
  | raised (f : FaultCause) (s : State)
  | faulted (r : Fault)
  | refused (r : Refusal)

/-- One operation after another; what is not a value ends the sequence (R9: nothing after a `raise` is executed). -/
def Res.bind {α β : Type} (r : Res α) (k : α → State → Res β) : Res β :=
  match r with
  | .ok a s => k a s
  | .raised f s => .raised f s
  | .faulted f => .faulted f
  | .refused f => .refused f

/-! ## Taking a fault -/

/-- The class of a fault as ERRCODE has it, R134: 1 FormatError, 2 BitstreamUnderflow. -/
def FaultCause.code : FaultCause → BitVec 2
  | .tableInvalid | .badDistance | .badExtension => 1
  | .tableShort | .primeShort | .refillEmpty | .extensionShort => 2

/-- The sub-cause of a fault as ERRSUB has it, R134. -/
def FaultCause.sub : FaultCause → BitVec 3
  | .tableInvalid => 1
  | .badDistance => 2
  | .badExtension => 3
  | .tableShort => 1
  | .primeShort => 2
  | .refillEmpty => 3
  | .extensionShort => 4

/-- Fault entry, R137 and R138: STATE, ERRCODE and ERRSUB are written, IPOS and OPOS keep the values they had at the
`raise`, DSIZE and IN_LEN are unchanged, and the datapath holds no defined value: a free one (DESIGN CHOICE, safe,
log 4). The bytes of OUT stay (R139), but R50 gives the host no read of them (log 5). -/
def enterFault (f : FaultCause) (s : State) : State :=
  { s with
    toDatapath := Config.freeDatapath s.draws
    draws := s.draws + 1
    status := .err
    errcode := f.code
    errsub := f.sub }

/-- The outcome of a whole step: a raised fault is taken, and is a next state. -/
def Res.outcome {α : Type} : Res α → Host.Outcome State Fault Refusal
  | .ok _ s => .next s
  | .raised f s => .next (enterFault f s)
  | .faulted r => .fault r
  | .refused r => .refused r

/-! ## The input memory -/

/-- Are `n` bytes left at IPOS? The sum is a natural number and never wraps (00_scope.md R8). -/
def inputLeft (n : Nat) (s : State) : Bool := decide (s.ipos.toNat + n ≤ s.inLen.toNat)

/-- IPOS <- IPOS + n (00_scope.md R9). -/
def advance (n : Nat) (s : State) : State := { s with ipos := s.ipos + BitVec.ofNat 32 n }

/-- P_IN_VALID of 70_reset_and_hazards.md R156, as the block decides it: every byte of IN below IN_LEN holds a value. -/
def inputFilled (s : State) : Bool := Mem.filledFrom s.inLen.toNat 0 s.input

/-- InRead(a, 1), 00_scope.md R9. A byte without a value is refused (P_IN_VALID, R156; log 6). -/
def inRead1 (a : Nat) (s : State) : Res Byte :=
  match s.input.read a with
  | some b => .ok b s
  | none => .refused .inputByteUnset

/-- InRead(a, 2), little-endian (20_memory.md R41, R44, R45). -/
def inRead2 (a : Nat) (s : State) : Res Word16 :=
  match s.input.read a, s.input.read (a + 1) with
  | some lo, some hi => .ok (wordOfBytes lo hi) s
  | _, _ => .refused .inputByteUnset

/-! ## The output memory -/

/-- OutRead(a), 00_scope.md R9: a byte without a value is no byte of this run. -/
def outRead (a : Nat) (s : State) : Res Byte :=
  match s.output.read a with
  | some b => .ok b s
  | none => .faulted .outputByteUnset

/-- A byte emitted: OUT[OPOS] <- b, OPOS <- OPOS + 1. -/
def emit (b : Byte) (s : State) : State :=
  { s with output := s.output.write s.opos.toNat b, opos := s.opos + 1 }

/-- OutWrite(OPOS, b) and OPOS <- OPOS + 1, 20_memory.md R40 and 42_token_engine.md R121: the addresses of OUT are 0 to
DSIZE - 1. -/
def outWrite (b : Byte) (s : State) : Res Unit :=
  if s.opos.toNat < s.dsize.toNat then .ok () (emit b s) else .faulted .outputBeyondSize

end Sys2Proof.Machine
end

