-- ==== Sys2Proof/Machine/Command.lean ====
section
/-! DEFINITION. The host's one command, START: 42_token_engine.md R106, 10_state.md R28. -/

namespace Sys2Proof.Machine

/-- The effect of START when it is accepted, R106: every byte of OUT ceases to hold a value. "Nothing the engine computes
survives a `START`" (R154): until INIT writes them, the datapath registers but PHASE, the flag and the tables hold no value
(R21; D34 and U10), so they are a free one (DESIGN CHOICE, safe, log 27). -/
def launch (s : State) : State :=
  { s with
    toDatapath := { Config.freeDatapath s.draws with phase := .init }
    draws := s.draws + 1
    status := .busy
    errcode := 0
    errsub := 0
    ipos := 0
    opos := 0
    output := [] }

/-- START, R106. A value whose bit 0 is 0 has no effect, nor has anything while BUSY (R28, P_NOT_BUSY). A launch with DSIZE
above OUT_CAP (P_CAP), or with a byte of IN below IN_LEN that holds no value (P_IN_VALID), is refused (R156; log 7). -/
def execStartIn (c : Config) (value : Word32) (s : State) : Host.Outcome State Fault Refusal :=
  if value.getLsbD 0 = false then .next s
  else if s.status = .busy then .next s
  else if c.outCap < s.dsize.toNat then .refused .outputCapacity
  else if inputFilled s = false then .refused .inputNotValid
  else .next (launch s)

/-- START with the default parameters. -/
def execStart (value : Word32) (s : State) : Host.Outcome State Fault Refusal := execStartIn Config.std value s

end Sys2Proof.Machine
end

