-- ==== Sys2Proof/Machine/BitReader.lean ====
section
/-! DEFINITION. The Bit Reader, 40_bit_reader.md: PEEK, REFILL, CONSUME, PRIME, RDBYTE, RD16. -/

namespace Sys2Proof.Machine

/-- A 16-bit word put in the order in which its bits are consumed, first bit at bit 15 (20_memory.md R42; with BITORDER
lsb-first bit 0 is consumed first: DEDUCED, log 1). -/
def orderBits (c : Config) (w : Word16) : Word16 :=
  match c.bitOrder with
  | .msbFirst => w
  | .lsbFirst => w.reverse

/-- ACC with a word placed behind its first `bcnt` bits, R76: shifted by 16 - bcnt where ACCW is 32. -/
def placeWord (c : Config) (w : Word16) (bcnt acc : Nat) : Nat := acc ||| (w.toNat <<< (c.accw - 16 - bcnt))

/-- PEEK(n), R78, as a number of 16 bits: the first `n` of the ACCW bits of ACC; nothing changes. -/
def peek (c : Config) (n : Nat) (s : State) : Word16 :=
  if n = 0 then 0 else BitVec.ofNat 16 ((s.acc >>> (c.accw - n)) % 2 ^ n)

/-- The window of fifteen bits that DECODESYM looks at, PEEK(15) (41_table_builder.md R103). -/
def window (c : Config) (s : State) : BitVec 15 := (peek c 15 s).setWidth 15

/-- The state after a word has been placed behind the buffered bits, IPOS past it (R76, R80). -/
def wordLoaded (c : Config) (w : Word16) (s : State) : State :=
  { s with
    acc := placeWord c (orderBits c w) s.bcnt.toNat s.acc
    bcnt := s.bcnt + 16
    ipos := s.ipos + 2 }

/-- A word fetched at IPOS and placed into ACC: the body of REFILL and of PRIME's loads (R76). -/
def loadWord (c : Config) (s : State) : Res Unit :=
  (inRead2 s.ipos.toNat s).bind fun w s => .ok () (wordLoaded c w s)

/-- REFILL(), R80. -/
def refill (c : Config) (s : State) : Res Unit :=
  if inputLeft 2 s then loadWord c s else .raised .refillEmpty s

/-- CONSUME(n), R79, without the refill: ACC shifted and truncated to its ACCW bits, BCNT lowered. -/
def dropBits (c : Config) (n : Nat) (s : State) : State :=
  { s with acc := (s.acc <<< n) % 2 ^ c.accw, bcnt := BitVec.ofNat 6 (s.bcnt.toNat - n) }

/-- CONSUME(n), R79: the refill belongs to the CONSUME that leaves fewer than 16 bits (R85, R159). -/
def consume (c : Config) (n : Nat) (s : State) : Res Unit :=
  if (dropBits c n s).bcnt.toNat < 16 then refill c (dropBits c n s) else .ok () (dropBits c n s)

/-- `n` words loaded one after another. -/
def loadWords (c : Config) : Nat → State → Res Unit
  | 0, s => .ok () s
  | n + 1, s => (loadWord c s).bind fun _ s => loadWords c n s

/-- The accumulator emptied, before a block's first words. -/
def clearAcc (s : State) : State := { s with acc := 0, bcnt := 0 }

/-- PRIME(), R77: ACC emptied and PRIME_WORDS words loaded, the first word at the top. When they are not all there
IPOS is left at the first word that could not be fetched whole. -/
def prime (c : Config) (s : State) : Res Unit :=
  if inputLeft (2 * c.primeWords) s then loadWords c c.primeWords (clearAcc s)
  else .raised .primeShort (advance (2 * ((s.inLen.toNat - s.ipos.toNat) / 2)) s)

/-- RDBYTE(), R81. -/
def rdByte (s : State) : Res Byte :=
  if inputLeft 1 s then (inRead1 s.ipos.toNat s).bind fun b s => .ok b (advance 1 s)
  else .raised .extensionShort s

/-- RD16(), R82. -/
def rd16 (s : State) : Res Word16 :=
  if inputLeft 2 s then (inRead2 s.ipos.toNat s).bind fun v s => .ok v (advance 2 s)
  else .raised .extensionShort s

end Sys2Proof.Machine
end

