-- ==== Sys2Proof/Machine/Operands.lean ====
section
/-! DEFINITION. The operands of a match: the length of R66, the distance of R67, and the extension bytes a token takes
from the byte stream (30_encoding.md R64, R65). -/

namespace Sys2Proof.Machine

/-- The length of MATCH, R112. -/
def shortLength (c : Config) (lnib : Nibble) : Nat := lnib.toNat + c.minMatch

/-- The length of MATCHX8, R113: b + LEN_SENTINEL + MIN_MATCH. -/
def extLength8 (c : Config) (b : Byte) : Nat := b.toNat + c.lenSentinel.toNat + c.minMatch

/-- The length of MATCHX16, R114. -/
def extLength16 (c : Config) (v : Word16) : Nat := v.toNat + c.minMatch

/-- The least legal 16-bit extension value, R69(c). -/
def minExtension : Nat := 15

/-- The distance, R67: DIST_BASE(dbits) + extra. -/
def distance (c : Config) (dbits : Nibble) (extra : BitVec 15) : Nat := c.distBase dbits + extra.toNat

/-- The bytes of a token's length extension, read in the order of R110 point 4: none for a literal or an unsaturated
length nibble, else one byte, and two more after 0xff. The states after the reads are dropped by the token step: the
meaning moves the position itself (log 13). -/
def readExtension (c : Config) (sym : Sym) (s : State) : Res (List Byte) :=
  if symIsMatch sym = false then .ok [] s
  else if c.slotLnib (symLow sym) ≠ c.lenSentinel then .ok [] s
  else
    (rdByte s).bind fun b s =>
      if b ≠ 255 then .ok [b] s
      else (rd16 s).bind fun v s => .ok [b, v.setWidth 8, (v >>> 8).setWidth 8] s

end Sys2Proof.Machine
end

