-- ==== Sys2Proof/Machine/Tokens.lean ====
section
/-! DEFINITION. The meanings of the four token forms, 42_token_engine.md R110 to R117, each from the state in which its
symbol has been decoded (point 1 of R110 is DECODESYM, the token step's). Each stands for a configuration and then for
the default one. -/

namespace Sys2Proof.Machine

/-! ## Shared operations -/

/-- MREM <- MREM - 1. -/
def countDown (s : State) : State := { s with mrem := s.mrem - 1 }

/-- The loop of COPY, R116: byte by byte, each read after the write before it (R49, R160). -/
def copyLoop : Nat → State → Res Unit
  | 0, s => .ok () s
  | n + 1, s =>
    (outRead (s.opos.toNat - s.mdist.toNat) s).bind fun b s =>
      (outWrite b s).bind fun _ s => copyLoop n (countDown s)

/-- How many bytes a copy makes: min(MLEN, DSIZE - OPOS), R116 and R117. -/
def copyCount (s : State) : Nat := min s.mlen.toNat (s.dsize.toNat - s.opos.toNat)

/-- MREM <- n. -/
def setRemaining (n : Nat) (s : State) : State := { s with mrem := BitVec.ofNat 17 n }

/-- COPY, R116, clipped at DSIZE (R117). -/
def copy (s : State) : Res Unit :=
  copyLoop (copyCount s) (setRemaining (copyCount s) s)

/-- MLEN <- n. -/
def setLength (n : Nat) (s : State) : State := { s with mlen := BitVec.ofNat 17 n }

/-- MDIST <- n. -/
def setDistance (n : Nat) (s : State) : State := { s with mdist := BitVec.ofNat 16 n }

/-- Points 6 to 8 of R110: MDIST, the distance check of R115, COPY. -/
def checkAndCopy (c : Config) (dbits : Nibble) (extra : BitVec 15) (s : State) : Res Unit :=
  if s.opos.toNat < (setDistance (distance c dbits extra) s).mdist.toNat then
    .raised .badDistance (setDistance (distance c dbits extra) s)
  else copy (setDistance (distance c dbits extra) s)

/-- Points 5 to 8 of R110: the distance bits consumed with their refill, then the check and the copy. -/
def finishMatch (c : Config) (dbits : Nibble) (extra : BitVec 15) (s : State) : Res Unit :=
  (consume c dbits.toNat s).bind fun _ s => checkAndCopy c dbits extra s

/-! ## LIT -/

/-- LIT b, R111. -/
def execLitIn (_c : Config) (b : Byte) (s : State) : Host.Outcome State Fault Refusal :=
  (outWrite b s).outcome

/-- LIT b with the default parameters. -/
def execLit (b : Byte) (s : State) : Host.Outcome State Fault Refusal := execLitIn Config.std b s

/-! ## MATCH -/

/-- MATCH, R112. `extra` is PEEK(dbits) at the CONSUME: the decoder read it there (log 13). -/
def execMatchIn (c : Config) (dbits lnib : Nibble) (extra : BitVec 15) (s : State) :
    Host.Outcome State Fault Refusal :=
  (finishMatch c dbits extra (setLength (shortLength c lnib) s)).outcome

/-- MATCH with the default parameters. -/
def execMatch (dbits lnib : Nibble) (extra : BitVec 15) (s : State) : Host.Outcome State Fault Refusal :=
  execMatchIn Config.std dbits lnib extra s

/-! ## MATCHX8 -/

/-- MATCHX8, R113. `b` is the byte RDBYTE returns: the decoder read it at the same IPOS (log 13). -/
def execMatchX8In (c : Config) (dbits : Nibble) (b : Byte) (extra : BitVec 15) (s : State) :
    Host.Outcome State Fault Refusal :=
  ((rdByte s).bind fun _ s => finishMatch c dbits extra (setLength (extLength8 c b) s)).outcome

/-- MATCHX8 with the default parameters. -/
def execMatchX8 (dbits : Nibble) (b : Byte) (extra : BitVec 15) (s : State) :
    Host.Outcome State Fault Refusal :=
  execMatchX8In Config.std dbits b extra s

/-! ## MATCHX16 -/

/-- MATCHX16, R114. `v` is the value RD16 returns (log 13); below 15 it is FormatError(3), raised before the distance
bits are consumed (R69(c), R140). -/
def execMatchX16In (c : Config) (dbits : Nibble) (v : Word16) (extra : BitVec 15) (s : State) :
    Host.Outcome State Fault Refusal :=
  ((rdByte s).bind fun _ s =>
    (rd16 s).bind fun _ s =>
      if v.toNat < minExtension then .raised .badExtension s
      else finishMatch c dbits extra (setLength (extLength16 c v) s)).outcome

/-- MATCHX16 with the default parameters. -/
def execMatchX16 (dbits : Nibble) (v : Word16) (extra : BitVec 15) (s : State) :
    Host.Outcome State Fault Refusal :=
  execMatchX16In Config.std dbits v extra s

end Sys2Proof.Machine
end

