-- ==== Sys2Proof/Machine/Dispatch.lean ====
section
/-! DEFINITION. The meaning of each instruction, one arm per constructor of Instr. -/

namespace Sys2Proof.Machine

def exec (i : Instr) (s : State) : Host.Outcome State Fault Refusal :=
  match i with
  | .lit b => Sys2Proof.Machine.execLit b s
  | .matchM dbits lnib extra => Sys2Proof.Machine.execMatch dbits lnib extra s
  | .matchX8 dbits b extra => Sys2Proof.Machine.execMatchX8 dbits b extra s
  | .matchX16 dbits v extra => Sys2Proof.Machine.execMatchX16 dbits v extra s
  | .start value => Sys2Proof.Machine.execStart value s

end Sys2Proof.Machine
end

