-- ==== Sys2Proof/Machine/Flags.lean ====
section
/-! DEFINITION. The one flag, DEGEN (10_state.md R21): how the three cases of a table are told apart (41_table_builder.md
R93 to R95, R97). No token writes a flag. -/

namespace Sys2Proof.Machine

/-- The three cases of R93. -/
inductive TableClass where
  /-- the lengths are no code: FormatError(1) -/
  | invalid
  /-- exactly one symbol of nonzero length, R94 -/
  | degenerate
  /-- a complete code of two or more symbols, R97 -/
  | complete
deriving DecidableEq, Repr

/-- CLASSIFY, R93: from NNZ and KRAFT, in this order. -/
def classify (nnz : BitVec 10) (kraft : BitVec 24) : TableClass :=
  if nnz = 0 then .invalid
  else if nnz = 1 then .degenerate
  else if kraft ≠ 32768 then .invalid
  else .complete

end Sys2Proof.Machine
end

