-- ==== Sys2Proof/Machine/TableBuilder.lean ====
section
/-! DEFINITION. The Canonical Huffman Table Builder, 41_table_builder.md: LOADTABLE, COUNT, CLASSIFY, FIRSTCODES, ASSIGN,
LOOKUP, DECODESYM. -/

namespace Sys2Proof.Machine

/-! ## Loading -/

/-- The two code lengths of a table byte, the even symbol's first (30_encoding.md R59). -/
def byteLengths (o : NibbleEven) (b : Byte) : List Nibble :=
  match o with
  | .low => [b.extractLsb' 0 4, b.extractLsb' 4 4]
  | .high => [b.extractLsb' 4 4, b.extractLsb' 0 4]

/-- The code lengths of table bytes, by symbol (R90, R91). -/
def unpackLengths (o : NibbleEven) : List Byte → List Nibble
  | [] => []
  | b :: bs => byteLengths o b ++ unpackLengths o bs

/-- LEN <- len. -/
def setLengths (len : Vector Nibble 512) (s : State) : State := { s with len := len }

/-- LOADTABLE(), R90. -/
def loadTable (c : Config) (s : State) : Res Unit :=
  if inputLeft Config.tableBytes s then
    match s.input.readBytes s.ipos.toNat Config.tableBytes with
    | none => .refused .inputByteUnset
    | some bytes =>
      .ok () (advance Config.tableBytes (setLengths (vectorOfList 512 0 (unpackLengths c.nibbleEven bytes)) s))
  else .raised .tableShort s

/-! ## Building -/

/-- How many symbols have length `l`. -/
def countLength (len : Vector Nibble 512) (l : Nat) : Nat := len.toList.countP fun x => x.toNat == l

/-- COUNT's CNT[1..15], R92. -/
def countTable (len : Vector Nibble 512) : Vector (BitVec 10) 15 :=
  tabulate 15 fun k => BitVec.ofNat 10 (countLength len (k + 1))

/-- CNT[l] as a number; CNT[0] is taken as 0 (R96). -/
def cntAt (cnt : Vector (BitVec 10) 15) (l : Nat) : Nat :=
  if h : l - 1 < 15 then (if l = 0 then 0 else cnt[l - 1].toNat) else 0

/-- COUNT's NNZ, R92. -/
def nonzeroCount (cnt : Vector (BitVec 10) 15) : BitVec 10 :=
  BitVec.ofNat 10 (((List.range' 1 15).map fun l => cntAt cnt l).sum)

/-- COUNT's KRAFT, R92 and R97. -/
def kraftSum (cnt : Vector (BitVec 10) 15) : BitVec 24 :=
  BitVec.ofNat 24 (((List.range' 1 15).map fun l => cntAt cnt l * 2 ^ (15 - l)).sum)

/-- FIRSTCODES, R96: FIRST[l] = (FIRST[l-1] + CNT[l-1]) << 1, from FIRST[0] = 0 and CNT[0] = 0. -/
def firstCode (cnt : Vector (BitVec 10) 15) : Nat → Nat
  | 0 => 0
  | l + 1 => (firstCode cnt l + cntAt cnt l) <<< 1

/-- FIRST[1..15], R96. -/
def firstTable (cnt : Vector (BitVec 10) 15) : Vector (BitVec 16) 15 :=
  tabulate 15 fun k => BitVec.ofNat 16 (firstCode cnt (k + 1))

/-- FIRST[l] as a number. -/
def firstAt (first : Vector (BitVec 16) 15) (l : Nat) : Nat :=
  if h : l - 1 < 15 then first[l - 1].toNat else 0

/-- LEN[s] as a number. -/
def lenAt (len : Vector Nibble 512) (sym : Nat) : Nat :=
  if h : sym < 512 then len[sym].toNat else 0

/-- How many symbols below `sym` have length `l`. -/
def rankBelow (len : Vector Nibble 512) (sym l : Nat) : Nat :=
  (len.toList.take sym).countP fun x => x.toNat == l

/-- ASSIGN, R98: consecutive codes from FIRST[l] to the symbols of length `l` by rising index; a symbol of length 0 has
no code and its entry is not written. -/
def assignCodes (len : Vector Nibble 512) (first : Vector (BitVec 16) 15) (old : Vector (BitVec 15) 512) :
    Vector (BitVec 15) 512 :=
  tabulate 512 fun sym =>
    if lenAt len sym = 0 then old.toList.getD sym 0
    else BitVec.ofNat 15 (firstAt first (lenAt len sym) + rankBelow len sym (lenAt len sym))

/-- The first symbol of nonzero length, for DSYM (R93, R94). -/
def firstNonzero (len : Vector Nibble 512) : Sym :=
  BitVec.ofNat 9 (len.toList.findIdx fun x => x.toNat != 0)

/-- COUNT, R92. -/
def count (s : State) : State :=
  { s with
    cnt := countTable s.len
    nnz := nonzeroCount (countTable s.len)
    kraft := kraftSum (countTable s.len) }

/-- The degenerate case of CLASSIFY, R93 and R94. -/
def setDegenerate (s : State) : State := { s with degen := true, dsym := firstNonzero s.len }

/-- The last case of CLASSIFY, R93: FIRSTCODES and ASSIGN. -/
def setCodes (s : State) : State :=
  { s with
    degen := false
    first := firstTable s.cnt
    code := assignCodes s.len (firstTable s.cnt) s.code }

/-- BUILD: COUNT and then CLASSIFY with what it does in each case (R92, R93). -/
def build (s : State) : Res Unit :=
  match classify (count s).nnz (count s).kraft with
  | .invalid => .raised .tableInvalid (count s)
  | .degenerate => .ok () (setDegenerate (count s))
  | .complete => .ok () (setCodes (count s))

/-! ## Decoding a symbol -/

/-- The index of the `k`-th symbol of length `l` in a list of lengths whose first entry is symbol `i`. -/
def nthOfLength : List Nibble → Nat → Nat → Nat → Option Nat
  | [], _, _, _ => none
  | x :: xs, l, k, i =>
    if x.toNat = l then
      match k with
      | 0 => some i
      | k + 1 => nthOfLength xs l k (i + 1)
    else nthOfLength xs l k (i + 1)

/-- The search of R101 at one length. -/
def lookupAt (d : Datapath) (p l : Nat) : Option (Sym × Nat) :=
  let c := p >>> (15 - l)
  let f := firstAt d.first l
  if f ≤ c ∧ c < f + cntAt d.cnt l then
    (nthOfLength d.len.toList l (c - f) 0).map fun i => (BitVec.ofNat 9 i, l)
  else none

/-- LOOKUP(p), R101, by length 1, 2, .. 15. CODE gives the same pair in a valid table (R99, R102; log 25). -/
def lookup (d : Datapath) (p : BitVec 15) : Option (Sym × Nat) :=
  (List.range' 1 15).findSome? (lookupAt d p.toNat)

/-- SYM <- sym. -/
def setSym (sym : Sym) (s : State) : State := { s with sym := sym }

/-- DECODESYM(), R103 and R104. SYM is written after the CONSUME. -/
def decodeSym (c : Config) (s : State) : Res Sym :=
  if s.degen then .ok s.dsym (setSym s.dsym s)
  else
    match lookup s.toDatapath (window c s) with
    | none => .faulted .noCodeword
    | some (sym, l) => (consume c l s).bind fun _ s => .ok sym (setSym sym s)

end Sys2Proof.Machine
end

