-- ==== Sys2Proof/Machine/Engine.lean ====
section
/-! DEFINITION. The sequencing of the block: the engine's steps (42_token_engine.md R105 to R110, R123), the host's moves
(10_state.md R27 to R35, 20_memory.md R50, 70_reset_and_hazards.md R153 to R157), and which of the two moves next. The
meaning of the instructions is an argument, so that `step` runs `exec` and a claim can quantify over the configuration. -/

namespace Sys2Proof.Machine

/-- The meanings for any configuration; `exec` is this at the default one. -/
def execIn (c : Config) (i : Instr) (s : State) : Host.Outcome State Fault Refusal :=
  match i with
  | .lit b => execLitIn c b s
  | .matchM dbits lnib extra => execMatchIn c dbits lnib extra s
  | .matchX8 dbits b extra => execMatchX8In c dbits b extra s
  | .matchX16 dbits v extra => execMatchX16In c dbits v extra s
  | .start value => execStartIn c value s

/-! ## The engine -/

/-- The last two lines of INIT, R107: BEND when BLOCK_LEN is a number, and PHASE. -/
def beginBlock (c : Config) (s : State) : State :=
  match c.blockLen with
  | none => { s with phase := .run }
  | some n => { s with phase := .run, bend := BitVec.ofNat 33 (s.opos.toNat + n) }

/-- INIT, R107: LOADTABLE, BUILD, PRIME in this order (R140). -/
def init (c : Config) (s : State) : Res Unit :=
  (loadTable c s).bind fun _ s =>
    (build s).bind fun _ s =>
      (prime c s).bind fun _ s => .ok () (beginBlock c s)

/-- FINISH, R109. -/
def finish (s : State) : State := { s with status := .done }

/-- PHASE <- INIT, the block switch of R123. -/
def switchBlock (s : State) : State := { s with phase := .init }

/-- Is the block switch of R108 and R123 due? -/
def blockDue (c : Config) (s : State) : Bool := c.blockLen.isSome && decide (s.bend.toNat ≤ s.opos.toNat)

/-- TOKEN, R110: the symbol, then the decoded instruction run from the state after its codeword. The extension bytes and
the distance bits are looked at without moving the position (R45, R78, R161; log 13). -/
def tokenStep (c : Config) (ex : Instr → State → Host.Outcome State Fault Refusal) (s : State) :
    Host.Outcome State Fault Refusal :=
  match decodeSym c s with
  | .ok sym s₁ =>
    match readExtension c sym s₁ with
    | .ok bytes _ =>
      match decode c (.token sym bytes (window c s₁)) with
      | .ok i => ex i s₁
      | .error _ => .fault .undecodable
    | .raised f s₂ => .next (enterFault f s₂)
    | .faulted r => .fault r
    | .refused r => .refused r
  | .raised f s₁ => .next (enterFault f s₁)
  | .faulted r => .fault r
  | .refused r => .refused r

/-- The engine's step: INIT (R107), or the dispatch of R108. Outside BUSY no step is enabled and nothing changes
(R137, R153; DESIGN CHOICE, log 9). -/
def engineStep (c : Config) (ex : Instr → State → Host.Outcome State Fault Refusal) (s : State) :
    Host.Outcome State Fault Refusal :=
  match s.status with
  | .busy =>
    match s.phase with
    | .init => (init c s).outcome
    | .run =>
      if s.opos = s.dsize then .next (finish s)
      else if blockDue c s then .next (switchBlock s)
      else tokenStep c ex s
  | .idle => .next s
  | .done => .next s
  | .err => .next s

/-! ## The host -/

/-- STATE as the register holds it, R29. -/
def RunState.code : RunState → BitVec 2
  | .idle => 0
  | .busy => 1
  | .done => 2
  | .err => 3

/-- What a read of an interface register returns, R27 to R34: unused high bits are 0, CTRL reads 0; while BUSY the
positions are those at the step boundary (log 19). -/
def regValue (n : BitVec 3) (s : State) : Word32 :=
  match n.toNat with
  | 0 => 0
  | 1 => s.status.code.setWidth 32
  | 2 => s.errcode.setWidth 32
  | 3 => s.errsub.setWidth 32
  | 4 => s.dsize
  | 5 => s.inLen
  | 6 => s.opos
  | _ => s.ipos

/-- A write of an interface register, R27, R28, R32, R33, R35: while BUSY it is ignored; the read-only registers ignore
it always (DEDUCED, log 16); a write to CTRL is the command it decodes to, or nothing. -/
def writeReg (ex : Instr → State → Host.Outcome State Fault Refusal) (n : BitVec 3) (value : Word32) (s : State) :
    Host.Outcome State Fault Refusal :=
  match n.toNat with
  | 0 =>
    match decodeCommand value with
    | .ok i => ex i s
    | .error _ => .next s
  | 4 => if s.status = .busy then .next s else .next { s with dsize := value }
  | 5 => if s.status = .busy then .next s else .next { s with inLen := value }
  | _ => .next s

/-- Reset, R153, whenever it comes: the reset state, the model's own fields kept; IN holds no value (log 10). -/
def resetEvent (s : State) : State :=
  { State.reset with moves := s.moves, readData := s.readData, draws := s.draws }

/-- A byte the host reads from a memory becomes the value its latest read returned; a byte that holds no value gives it
none (R36, R50). -/
def hostRead (b : Option Byte) (why : Refusal) (s : State) : Host.Outcome State Fault Refusal :=
  match b with
  | some b => .next { s with readData := b.setWidth 32 }
  | none => .refused why

/-- One move of the host. IN is the host's only outside BUSY, to be read below IN_LEN, and OUT only in DONE and below DSIZE
(R50, 93_implementation_defined.md U11 and U14; log 7, log 20). -/
def hostStep (c : Config) (ex : Instr → State → Host.Outcome State Fault Refusal) (m : HostMove) (s : State) :
    Host.Outcome State Fault Refusal :=
  match m with
  | .writeReg n value => writeReg ex n value s
  | .readReg n => .next { s with readData := regValue n s }
  | .writeIn addr b =>
    if s.status = .busy then .refused .hostAccess
    else .next { s with input := s.input.write addr.toNat b }
  | .readIn addr =>
    if s.status = .busy ∨ s.inLen.toNat ≤ addr.toNat then .refused .hostAccess
    else hostRead (s.input.read addr.toNat) .inputByteUnset s
  | .readOut addr =>
    if s.status = .done ∧ addr.toNat < s.dsize.toNat then hostRead (s.output.read addr.toNat) .hostAccess s
    else .refused .hostAccess
  | .reset => .next (resetEvent s)
  | .pass => engineStep c ex s

/-! ## Which of the two moves next -/

/-- One step of the machine: the host's oldest pending move, or the engine when none is pending (log 8). -/
def machineStep (c : Config) (ex : Instr → State → Host.Outcome State Fault Refusal) (s : State) :
    Host.Outcome State Fault Refusal :=
  match s.moves with
  | [] => engineStep c ex s
  | m :: rest => hostStep c ex m { s with moves := rest }

/-- The step for any configuration (R7); `step` is this at the default one. -/
def stepIn (c : Config) (s : State) : Host.Outcome State Fault Refusal := machineStep c (execIn c) s

/-! ## Launching a stream -/

/-- A 32-bit value of four bytes, little-endian (20_memory.md R41). -/
def word32OfBytes (b₀ b₁ b₂ b₃ : Byte) : Word32 := b₃ ++ (b₂ ++ (b₁ ++ b₀))

/-- The moves that write a payload from an address on. Addresses are 32 bits (R38): bytes at 2^32 and beyond wrap onto the
low addresses, where the spec says nothing (DESIGN CHOICE, log 24; `launchFile` makes no such moves). -/
def writeInMoves : Nat → List Byte → List HostMove
  | _, [] => []
  | a, b :: bs => .writeIn (BitVec.ofNat 32 a) b :: writeInMoves (a + 1) bs

/-- The launch order of R155: the payload, IN_LEN, DSIZE, CTRL, for a payload shorter than 2^32 bytes. Of a longer one
IN_LEN is the length modulo 2^32, where R33 and R58 say nothing (DESIGN CHOICE, log 24; `launchFile` makes no such
moves). -/
def launchMoves (payload : List Byte) (dsize : Word32) : List HostMove :=
  writeInMoves 0 payload ++
    [.writeReg 5 (BitVec.ofNat 32 payload.length), .writeReg 4 dsize, .writeReg 0 1]

/-- The launch of a file, 30_encoding.md R58: the host strips the 8-byte header and takes DSIZE from its bytes 4 to 7.
A shorter file is not the block's affair, and a payload of 2^32 bytes or more, whose length no IN_LEN holds (R33), is not
launched (DESIGN CHOICE, log 24). -/
def launchFile : List Byte → Option (List HostMove)
  | _ :: _ :: _ :: _ :: b₀ :: b₁ :: b₂ :: b₃ :: payload =>
    if payload.length < 2 ^ 32 then some (launchMoves payload (word32OfBytes b₀ b₁ b₂ b₃)) else none
  | _ => none

/-! ## Placing one instruction where the step fetches it -/

/-- OPOS below DSIZE, as the token step needs (R110): kept where it is so. -/
def ensureRoom (s : State) : State :=
  if s.opos.toNat < s.dsize.toNat then s else { s with opos := 0, dsize := 1, output := [] }

/-- A token placed as the next one (log 15): the run is in its token phase, the table is the degenerate table of the
token's symbol (R94, so that its codeword takes no bits), ACC is primed with zeros, and the three bytes after the symbol
are the next bytes of IN. -/
def placeToken (sym : Sym) (bytes : List Byte) (s : State) : State :=
  let s := ensureRoom s
  { s with
    moves := []
    status := .busy
    errcode := 0
    errsub := 0
    phase := .run
    degen := true
    dsym := sym
    acc := 0
    bcnt := 32
    ipos := 260
    inLen := 263
    input := s.input.writeBytes 260 bytes }

/-- An instruction of the opcode table placed as the next one: a token, or a host's write to CTRL. -/
def placeTableWord (nbits w : Nat) (s : State) : State :=
  if nbits = 32 then { s with moves := [.writeReg 0 (BitVec.ofNat 32 w)] }
  else placeToken (BitVec.ofNat 9 w) (tableBytesOf w) s

end Sys2Proof.Machine
end

