-- ==== Sys2Proof/Machine/Step.lean ====
section
/-! DEFINITION. The step of the machine with the default parameters, and an instruction placed where it fetches. -/

namespace Sys2Proof.Machine

/-- One step (00_scope.md R11). -/
def step (s : State) : Host.Outcome State Fault Refusal := machineStep Config.std exec s

/-- `s` with one instruction of the opcode table as the next the step runs (log 15). -/
def State.withFetchWord (s : State) (nbits w : Nat) : State := placeTableWord nbits w s

end Sys2Proof.Machine
end

