-- ==== Sys2Proof/Machine/Assembler.lean ====
section
/-! DEFINITION. The spec's assembler, 30_encoding.md R73 and R74: from code lengths and a list of tokens to the bytes of IN,
the inverse of the decode rules for the default parameters. The block itself has no encode direction (R2). -/

namespace Sys2Proof.Machine

/-! ## Spelling (R73) -/

/-- MATCH len, dist in the shortest form that fits the length, R73 with R66 and R67. -/
def spellMatch (length dist : Nat) : Option Instr :=
  if dist = 0 ∨ 65535 < dist ∨ length < 3 ∨ 65538 < length then none
  else
    let dbits := BitVec.ofNat 4 dist.log2
    let extra := BitVec.ofNat 15 (dist - 2 ^ dist.log2)
    if length < 18 then some (.matchM dbits (BitVec.ofNat 4 (length - 3)) extra)
    else if length < 273 then some (.matchX8 dbits (BitVec.ofNat 8 (length - 18)) extra)
    else some (.matchX16 dbits (BitVec.ofNat 16 (length - 3)) extra)

/-- STR, R73: a run of literals. -/
def spellString (bytes : List Byte) : List Instr := bytes.map .lit

/-- RUN b, n, R73: LIT b and MATCH n-1, 1. -/
def spellRun (b : Byte) (n : Nat) : Option (List Instr) := (spellMatch (n - 1) 1).map fun m => [.lit b, m]

/-! ## Laying out fetch units (R74) -/

/-- The low `n` bits of a number, most significant first. -/
def bitsOf : Nat → Nat → List Bool
  | 0, _ => []
  | n + 1, v => v.testBit n :: bitsOf n v

/-- A fetch unit of the coded stream, R56: a word, or a token's extension bytes. -/
inductive FetchUnit where
  | word
  | extension (bytes : List Byte)
deriving DecidableEq, Repr

/-- What R74 keeps while it assembles: the bit list B, the fetch units U and the simulated count bc. -/
structure Assembly where
  bits : List Bool
  units : List FetchUnit
  bc : Nat
deriving DecidableEq, Repr

/-- The start of R74: two words, 32 bits. -/
def assemblyStart : Assembly := { bits := [], units := [.word, .word], bc := 32 }

/-- take(n) of R74 with the bits it takes: a word is appended where the engine will refill. -/
def takeBits (bits : List Bool) (a : Assembly) : Assembly :=
  if a.bc - bits.length < 16 then
    { bits := a.bits ++ bits, units := a.units ++ [.word], bc := a.bc - bits.length + 16 }
  else { a with bits := a.bits ++ bits, bc := a.bc - bits.length }

/-- The codes of R98 for some code lengths. -/
def codesOf (len : Vector Nibble 512) : Vector (BitVec 15) 512 :=
  assignCodes len (firstTable (countTable len)) (Vector.replicate 512 0)

/-- The codeword of a symbol, R60: empty in a degenerate table (R94). -/
def codeword (len : Vector Nibble 512) (sym : Sym) : List Bool :=
  if classify (nonzeroCount (countTable len)) (kraftSum (countTable len)) = .degenerate then []
  else bitsOf (lenAt len sym.toNat) ((codesOf len).toList.getD sym.toNat 0).toNat

/-- One token of a listing, R74: its codeword, its extension unit, its distance bits. -/
def assembleToken (len : Vector Nibble 512) (i : Instr) (a : Assembly) : Assembly :=
  let a := takeBits (codeword len (tokenSym i)) a
  let a := if tokenBytes i = [] then a else { a with units := a.units ++ [.extension (tokenBytes i)] }
  takeBits (bitsOf (tokenExtra i).1 (tokenExtra i).2.toNat) a

/-- The tokens of a listing in order. -/
def assembleTokens (len : Vector Nibble 512) : List Instr → Assembly → Assembly
  | [], a => a
  | i :: is, a => assembleTokens len is (assembleToken len i a)

/-- The number of eight bits, most significant first; missing bits are 0. -/
def byteOfBits (bits : List Bool) : Byte :=
  BitVec.ofNat 8 ((List.range 8).foldl (fun v k => 2 * v + (bits.getD k false).toNat) 0)

/-- Fetch units emitted in order, each word little-endian and taken from the front of the bit list (R57, R74). -/
def emitUnits : List FetchUnit → List Bool → List Byte
  | [], _ => []
  | .word :: us, bits => byteOfBits (bits.drop 8) :: byteOfBits bits :: emitUnits us (bits.drop 16)
  | .extension bytes :: us, bits => bytes ++ emitUnits us bits

/-- The coded stream of a listing, R74. -/
def assembleStream (len : Vector Nibble 512) (listing : List Instr) : List Byte :=
  let a := assembleTokens len listing assemblyStart
  emitUnits a.units a.bits

/-- The 256 table bytes of some code lengths, R59. -/
def tableOf (len : Vector Nibble 512) : List Byte :=
  (List.range 256).map fun i => len.toList.getD (2 * i + 1) 0 ++ len.toList.getD (2 * i) 0

/-- The payload of a listing with one table: IN from address 0 (R56, R74). -/
def assemble (len : Vector Nibble 512) (listing : List Instr) : List Byte :=
  tableOf len ++ assembleStream len listing

end Sys2Proof.Machine
end

