-- ==== Sys2Proof/Safety.lean ====
section
/-! DEFINITION. What claims are stated in terms of: when a table is complete (41_table_builder.md R97), the invariant of the
machine (10_state.md R14 to R17, R30, R31; 40_bit_reader.md R83), when IN is valid (70_reset_and_hazards.md R156), when the
bit reader can take bits, and the bound on a run (R164). -/

namespace Sys2Proof.Machine

/-! ## Tables -/

/-- The lengths form a complete, non-overlapping code of two or more symbols, R93 and R97. -/
abbrev CompleteTable (len : Vector Nibble 512) : Prop :=
  classify (nonzeroCount (countTable len)) (kraftSum (countTable len)) = .complete

/-- The tables hold what BUILD leaves for the lengths in LEN when it accepts them as complete (R92, R96, R98). -/
structure BuiltTable (d : Datapath) : Prop where
  complete : CompleteTable d.len
  cnt : d.cnt = countTable d.len
  first : d.first = firstTable d.cnt
  code : ∃ old, d.code = assignCodes d.len d.first old

/-- The datapath after BUILD has accepted some lengths as complete. -/
def builtFrom (len : Vector Nibble 512) : Datapath :=
  { Datapath.reset with
    len := len
    cnt := countTable len
    first := firstTable (countTable len)
    code := codesOf len }

/-- The codeword of a symbol begins a pattern of fifteen bits, R99. -/
def CodeBegins (d : Datapath) (p : BitVec 15) (sym : Sym) : Prop :=
  lenAt d.len sym.toNat ≠ 0 ∧
    p.toNat >>> (15 - lenAt d.len sym.toNat) = (d.code.toList.getD sym.toNat 0).toNat

/-! ## The invariant -/

/-- R83: 16 to ACCW bits are buffered (R15's 32 with the default ACCW), ACC is a number of ACCW bits (R14), and the bits
below the buffered ones are 0. -/
structure ReaderInv (c : Config) (s : State) : Prop where
  atLeast : 16 ≤ s.bcnt.toNat
  atMost : s.bcnt.toNat ≤ c.accw
  fits : s.acc < 2 ^ c.accw
  lowZero : s.acc % 2 ^ (c.accw - s.bcnt.toNat) = 0

/-- The error registers, R30 and R31: they tell one of the seven causes in ERR, and are 0 otherwise. -/
def ErrorRegsAgree (s : State) : Prop :=
  (s.status = .err ∧ ∃ f : FaultCause, s.errcode = f.code ∧ s.errsub = f.sub) ∨
  (s.status ≠ .err ∧ s.errcode = 0 ∧ s.errsub = 0)

/-- What holds while a run is in progress: R16, R17, and R40's "written exactly once each, .. with no gaps". -/
structure RunInv (s : State) : Prop where
  oposLe : s.opos.toNat ≤ s.dsize.toNat
  iposLe : s.ipos.toNat ≤ s.inLen.toNat
  filled : ∀ a : Nat, (s.output.read a).isSome = true ↔ a < s.opos.toNat

/-- P_IN_VALID, R156: every byte of IN below IN_LEN holds a value. -/
def InputValid (s : State) : Prop := ∀ a : Nat, a < s.inLen.toNat → (s.input.read a).isSome = true

/-- The invariant of the machine. -/
structure Inv (c : Config) (s : State) : Prop where
  inputWf : s.input.wf = true
  outputWf : s.output.wf = true
  errors : ErrorRegsAgree s
  running : s.status = .busy → RunInv s
  valid : s.status = .busy → InputValid s
  reader : s.status = .busy → s.phase = .run → ReaderInv c s
  table : s.status = .busy → s.phase = .run → s.degen = false → BuiltTable s.toDatapath

/-! ## Premises -/

/-- Two bytes are left at IPOS and both hold a value. -/
abbrev WordReady (s : State) : Prop :=
  s.ipos.toNat + 2 ≤ s.inLen.toNat ∧
    (s.input.read s.ipos.toNat).isSome = true ∧ (s.input.read (s.ipos.toNat + 1)).isSome = true

/-- CONSUME(n) can be made from the state: enough bits are buffered, and a refill word is there if one becomes due. -/
abbrev CanConsume (n : Nat) (s : State) : Prop :=
  n ≤ s.bcnt.toNat ∧ s.bcnt.toNat ≤ 32 ∧ (s.bcnt.toNat < n + 16 → WordReady s)

/-- Every byte of OUT below OPOS holds a value. -/
def OutputReady (s : State) : Prop := ∀ a : Nat, a < s.opos.toNat → (s.output.read a).isSome = true

/-- The word InRead(IPOS, 2) would give, 0 where it would not. -/
def nextWord (s : State) : Word16 :=
  wordOfBytes ((s.input.read s.ipos.toNat).getD 0) ((s.input.read (s.ipos.toNat + 1)).getD 0)

/-! ## What a token leaves alone -/

/-- What no token form changes when it completes: everything but ACC, BCNT, IPOS, OPOS, MLEN, MDIST, MREM and OUT
(R111 to R114, R116). -/
structure TokenFrame (s t : State) : Prop where
  sym : t.sym = s.sym
  phase : t.phase = s.phase
  bend : t.bend = s.bend
  degen : t.degen = s.degen
  dsym : t.dsym = s.dsym
  nnz : t.nnz = s.nnz
  kraft : t.kraft = s.kraft
  len : t.len = s.len
  cnt : t.cnt = s.cnt
  first : t.first = s.first
  code : t.code = s.code
  status : t.status = s.status
  errcode : t.errcode = s.errcode
  errsub : t.errsub = s.errsub
  dsize : t.dsize = s.dsize
  inLen : t.inLen = s.inLen
  input : t.input = s.input
  moves : t.moves = s.moves
  readData : t.readData = s.readData
  draws : t.draws = s.draws

/-- What a fault leaves, R137 to R139: the error registers tell the cause, the position is `pos`, and the output count,
the interface registers and both memories are as they were. The datapath is left out: it holds no defined value. -/
structure FaultTaken (f : FaultCause) (pos : Nat) (s t : State) : Prop where
  status : t.status = .err
  errcode : t.errcode = f.code
  errsub : t.errsub = f.sub
  ipos : t.ipos.toNat = pos
  opos : t.opos = s.opos
  dsize : t.dsize = s.dsize
  inLen : t.inLen = s.inLen
  input : t.input = s.input
  output : t.output = s.output
  moves : t.moves = s.moves
  readData : t.readData = s.readData

/-- Does CONSUME(n) make a refill due? R79. -/
abbrev refillDue (n : Nat) (s : State) : Prop := s.bcnt.toNat < n + 16

/-- How far CONSUME(n) moves IPOS, R79 and R80. -/
def refillBytes (n : Nat) (s : State) : Nat := if refillDue n s then 2 else 0

/-- ACC after a CONSUME(n) that completes, with its refill if one is due (R79, R80), for the default parameters. -/
def consumedAcc (n : Nat) (s : State) : Nat :=
  (s.acc <<< n) % 2 ^ 32 ||| if refillDue n s then (nextWord s).toNat <<< (16 - (s.bcnt.toNat - n)) else 0

/-- What a match that completes does, R112 to R117 and R79: `nbits` distance bits are consumed after `ext` extension
bytes, and min(length, DSIZE - OPOS) bytes repeat the last `dist` bytes before OPOS. -/
structure MatchDone (length dist nbits ext : Nat) (s t : State) : Prop where
  opos : t.opos.toNat = s.opos.toNat + min length (s.dsize.toNat - s.opos.toNat)
  copied : ∀ i : Nat, i < min length (s.dsize.toNat - s.opos.toNat) →
    t.output.read (s.opos.toNat + i) = s.output.read (s.opos.toNat - dist + i % dist)
  kept : ∀ a : Nat, a < s.opos.toNat ∨ s.opos.toNat + min length (s.dsize.toNat - s.opos.toNat) ≤ a →
    t.output.read a = s.output.read a
  bcnt : t.bcnt.toNat = s.bcnt.toNat - nbits + 8 * refillBytes nbits s
  ipos : t.ipos.toNat = s.ipos.toNat + ext + refillBytes nbits s
  acc : t.acc = consumedAcc nbits (advance ext s)
  mlen : t.mlen.toNat = length
  mdist : t.mdist.toNat = dist
  mrem : t.mrem.toNat = 0
  frame : TokenFrame s t

/-- The match length an instruction spells, R66. -/
def matchLength : Instr → Nat
  | .matchM _ lnib _ => shortLength Config.std lnib
  | .matchX8 _ b _ => extLength8 Config.std b
  | .matchX16 _ v _ => extLength16 Config.std v
  | _ => 0

/-- Is an instruction one of the three match forms? -/
def isMatchForm : Instr → Bool
  | .matchM _ _ _ => true
  | .matchX8 _ _ _ => true
  | .matchX16 _ _ _ => true
  | _ => false

/-- `n` bits consumed one at a time, R84. -/
def consumeBits (c : Config) : Nat → State → Res Unit
  | 0, s => .ok () s
  | n + 1, s => (consume c 1 s).bind fun _ s => consumeBits c n s

/-- Several consumes one after another. -/
def consumeList (c : Config) : List Nat → State → Res Unit
  | [], s => .ok () s
  | n :: ns, s => (consume c n s).bind fun _ s => consumeList c ns s

/-- How many words have been fetched when `n` bits of a block have been consumed, R86: max(2, ceil(n / 16) + 1). -/
def wordsFetched (n : Nat) : Nat := max 2 ((n + 15) / 16 + 1)

/-- Two states a token cannot tell apart, R118: the table, ACC, BCNT, IPOS, IN_LEN, the bytes of IN from IPOS on, OPOS,
DSIZE, and OUT below OPOS. -/
structure SameForToken (s s' : State) : Prop where
  len : s.len = s'.len
  cnt : s.cnt = s'.cnt
  first : s.first = s'.first
  degen : s.degen = s'.degen
  dsym : s.dsym = s'.dsym
  acc : s.acc = s'.acc
  bcnt : s.bcnt = s'.bcnt
  ipos : s.ipos = s'.ipos
  inLen : s.inLen = s'.inLen
  opos : s.opos = s'.opos
  dsize : s.dsize = s'.dsize
  status : s.status = s'.status
  errcode : s.errcode = s'.errcode
  errsub : s.errsub = s'.errsub
  input : ∀ a : Nat, s.ipos.toNat ≤ a → s.input.read a = s'.input.read a
  output : ∀ a : Nat, a < s.opos.toNat → s.output.read a = s'.output.read a

/-- What a token does to two such states is the same, as far as the spec gives it a value. -/
structure SameAfterToken (s t t' : State) : Prop where
  status : t.status = t'.status
  errcode : t.errcode = t'.errcode
  errsub : t.errsub = t'.errsub
  ipos : t.ipos = t'.ipos
  opos : t.opos = t'.opos
  acc : t.status = .busy → t.acc = t'.acc
  bcnt : t.status = .busy → t.bcnt = t'.bcnt
  written : ∀ a : Nat, a < t.opos.toNat → t.output.read a = t'.output.read a

/-! ## The code of a table, by its symbols -/

/-- How many symbols have a nonzero length, R26. -/
def codedSymbols (len : Vector Nibble 512) : Nat := len.toList.countP fun x => x.toNat != 0

/-- The Kraft sum over the symbols, R97. -/
def symbolKraft (len : Vector Nibble 512) : Nat :=
  (len.toList.map fun x => if x.toNat = 0 then 0 else 2 ^ (15 - x.toNat)).sum

/-! ## The bound on a run -/

/-- An upper bound on the engine steps left in a run with one table, R164. -/
def stepsLeft (s : State) : Nat :=
  match s.status with
  | .busy =>
    match s.phase with
    | .init => s.dsize.toNat - s.opos.toNat + 2
    | .run => s.dsize.toNat - s.opos.toNat + 1
  | _ => 0

/-! ## What a listing spells -/

/-- One byte of a match copied to the end of the output so far. -/
def copyOne (dist : Nat) (out : List Byte) : List Byte := out ++ [out.getD (out.length - dist) 0]

/-- The output of a listing read as literals and matches (00_scope.md, glossary: Token), or nothing where a match points
before the start of the output (R115). -/
def expandListing : List Instr → List Byte → Option (List Byte)
  | [], out => some out
  | .lit b :: is, out => expandListing is (out ++ [b])
  | .matchM dbits lnib extra :: is, out =>
    if distance Config.std dbits extra ≤ out.length then
      expandListing is ((copyOne (distance Config.std dbits extra))^[shortLength Config.std lnib] out)
    else none
  | .matchX8 dbits b extra :: is, out =>
    if distance Config.std dbits extra ≤ out.length then
      expandListing is ((copyOne (distance Config.std dbits extra))^[extLength8 Config.std b] out)
    else none
  | .matchX16 dbits v extra :: is, out =>
    if distance Config.std dbits extra ≤ out.length then
      expandListing is ((copyOne (distance Config.std dbits extra))^[extLength16 Config.std v] out)
    else none
  | .start _ :: _, _ => none

/-- The memory that holds some bytes from address 0 on. -/
def memOf (bytes : List Byte) : Mem := Mem.writeBytes [] 0 bytes

/-- The state right after a host has launched a payload from reset (R155): BUSY, INIT pending, nothing else to do. -/
def launched (payload : List Byte) (dsize : Word32) : State :=
  launch { State.reset with
    input := memOf payload
    inLen := BitVec.ofNat 32 payload.length
    dsize := dsize }

end Sys2Proof.Machine
end

