-- ==== Sys2Proof/Certificates/Slice0/Obligations.lean ====
section
/-! DEFINITION. The statements for the provers, from the numbered rules of spec/. -/

section

open Sys2Proof Sys2Proof.Machine

/-! ## LIT -/

/-- R111: LIT writes its byte at OPOS and advances OPOS by one, and nothing else; all 256 byte values alike. -/
def Obligations.LitEmitsItsByte : Prop :=
  ∀ (b : Byte) (s : State), s.opos.toNat < s.dsize.toNat →
    exec (.lit b) s = .next { s with output := s.output.write s.opos.toNat b, opos := s.opos + 1 }

/-- R111 and R40, the frame of LIT: whenever it answers a next state, that state differs from the old one in the byte of
OUT at OPOS and in OPOS, which has grown by one without wrapping. -/
def Obligations.LitFrame : Prop :=
  ∀ (b : Byte) (s t : State), exec (.lit b) s = .next t →
    t.toDatapath = s.toDatapath ∧ t.status = s.status ∧ t.errcode = s.errcode ∧ t.errsub = s.errsub ∧
    t.dsize = s.dsize ∧ t.inLen = s.inLen ∧ t.ipos = s.ipos ∧ t.input = s.input ∧ t.moves = s.moves ∧
    t.readData = s.readData ∧ t.draws = s.draws ∧
    t.opos.toNat = s.opos.toNat + 1 ∧ t.opos.toNat ≤ t.dsize.toNat ∧
    t.output.read s.opos.toNat = some b ∧
    ∀ a : Nat, a ≠ s.opos.toNat → t.output.read a = s.output.read a

/-! ## The match forms -/

/-- R112, R115 to R117: MATCH with a legal distance completes. -/
def Obligations.MatchCopies : Prop :=
  ∀ (dbits lnib : Nibble) (extra : BitVec 15) (s : State),
    CanConsume dbits.toNat s → OutputReady s →
    2 ^ dbits.toNat + extra.toNat ≤ s.opos.toNat →
    ∃ t, exec (.matchM dbits lnib extra) s = .next t ∧
      MatchDone (lnib.toNat + 3) (2 ^ dbits.toNat + extra.toNat) dbits.toNat 0 s t

/-- R113, R115 to R117: MATCHX8 with its extension byte present and a legal distance completes. -/
def Obligations.MatchX8Copies : Prop :=
  ∀ (dbits : Nibble) (b : Byte) (extra : BitVec 15) (s : State),
    s.ipos.toNat + 1 ≤ s.inLen.toNat → (s.input.read s.ipos.toNat).isSome = true →
    CanConsume dbits.toNat (advance 1 s) → OutputReady s →
    2 ^ dbits.toNat + extra.toNat ≤ s.opos.toNat →
    ∃ t, exec (.matchX8 dbits b extra) s = .next t ∧
      MatchDone (b.toNat + 18) (2 ^ dbits.toNat + extra.toNat) dbits.toNat 1 s t

/-- R114 to R117: MATCHX16 with its three extension bytes present, a value of at least 15 and a legal distance
completes. -/
def Obligations.MatchX16Copies : Prop :=
  ∀ (dbits : Nibble) (v : Word16) (extra : BitVec 15) (s : State),
    s.ipos.toNat + 3 ≤ s.inLen.toNat → (∀ k : Nat, k < 3 → (s.input.read (s.ipos.toNat + k)).isSome = true) →
    15 ≤ v.toNat →
    CanConsume dbits.toNat (advance 3 s) → OutputReady s →
    2 ^ dbits.toNat + extra.toNat ≤ s.opos.toNat →
    ∃ t, exec (.matchX16 dbits v extra) s = .next t ∧
      MatchDone (v.toNat + 3) (2 ^ dbits.toNat + extra.toNat) dbits.toNat 3 s t

/-- The frame of the three match forms, for every next state: the host's side and IN are untouched, OUT outside the
min(MLEN, DSIZE - OPOS) bytes from OPOS on is untouched, and either nothing but the registers R112 to R116 name has
changed, or the state is that of a fault of the block with OUT wholly untouched (R137, R139). -/
def Obligations.MatchFrame : Prop :=
  ∀ (i : Instr) (s t : State), isMatchForm i = true → exec i s = .next t →
    t.dsize = s.dsize ∧ t.inLen = s.inLen ∧ t.input = s.input ∧ t.moves = s.moves ∧ t.readData = s.readData ∧
    (∀ a : Nat, a < s.opos.toNat ∨ s.opos.toNat + min (matchLength i) (s.dsize.toNat - s.opos.toNat) ≤ a →
      t.output.read a = s.output.read a) ∧
    (TokenFrame s t ∨ ∃ f, FaultTaken f t.ipos.toNat s t)

/-- R115 and R138: a match whose distance exceeds OPOS raises FormatError(2) once its distance bits are consumed; IPOS
is just past everything the token fetched, and no byte is emitted. One clause for each of the three forms. -/
def Obligations.BadDistanceFaults : Prop :=
  ∀ (dbits lnib : Nibble) (b : Byte) (v : Word16) (extra : BitVec 15) (s : State),
    s.opos.toNat < 2 ^ dbits.toNat + extra.toNat →
    (CanConsume dbits.toNat s →
      ∃ t, exec (.matchM dbits lnib extra) s = .next t ∧
        FaultTaken .badDistance (s.ipos.toNat + refillBytes dbits.toNat s) s t) ∧
    (s.ipos.toNat + 1 ≤ s.inLen.toNat → (s.input.read s.ipos.toNat).isSome = true →
      CanConsume dbits.toNat (advance 1 s) →
      ∃ t, exec (.matchX8 dbits b extra) s = .next t ∧
        FaultTaken .badDistance (s.ipos.toNat + 1 + refillBytes dbits.toNat s) s t) ∧
    (s.ipos.toNat + 3 ≤ s.inLen.toNat →
      (∀ k : Nat, k < 3 → (s.input.read (s.ipos.toNat + k)).isSome = true) → 15 ≤ v.toNat →
      CanConsume dbits.toNat (advance 3 s) →
      ∃ t, exec (.matchX16 dbits v extra) s = .next t ∧
        FaultTaken .badDistance (s.ipos.toNat + 3 + refillBytes dbits.toNat s) s t)

/-- R79, R80, R140: when the distance bits leave fewer than 16 bits and no word is left, the fault is
BitstreamUnderflow(3), at the address of the missing word, whatever the distance is. -/
def Obligations.RefillEmptyFaults : Prop :=
  ∀ (dbits lnib : Nibble) (b : Byte) (v : Word16) (extra : BitVec 15) (s : State),
    dbits.toNat ≤ s.bcnt.toNat → refillDue dbits.toNat s →
    (s.inLen.toNat < s.ipos.toNat + 2 →
      ∃ t, exec (.matchM dbits lnib extra) s = .next t ∧ FaultTaken .refillEmpty s.ipos.toNat s t) ∧
    (s.ipos.toNat + 1 ≤ s.inLen.toNat → (s.input.read s.ipos.toNat).isSome = true →
      s.inLen.toNat < s.ipos.toNat + 3 →
      ∃ t, exec (.matchX8 dbits b extra) s = .next t ∧ FaultTaken .refillEmpty (s.ipos.toNat + 1) s t) ∧
    (s.ipos.toNat + 3 ≤ s.inLen.toNat →
      (∀ k : Nat, k < 3 → (s.input.read (s.ipos.toNat + k)).isSome = true) → 15 ≤ v.toNat →
      s.inLen.toNat < s.ipos.toNat + 5 →
      ∃ t, exec (.matchX16 dbits v extra) s = .next t ∧ FaultTaken .refillEmpty (s.ipos.toNat + 3) s t)

/-- R81, R82, R113, R114: a missing extension byte, or a missing 16-bit extension value, is BitstreamUnderflow(4), at the
address of the byte or just past the 0xff. -/
def Obligations.ExtensionShortFaults : Prop :=
  ∀ (dbits : Nibble) (b : Byte) (v : Word16) (extra : BitVec 15) (s : State),
    (s.inLen.toNat < s.ipos.toNat + 1 →
      (∃ t, exec (.matchX8 dbits b extra) s = .next t ∧ FaultTaken .extensionShort s.ipos.toNat s t) ∧
      (∃ t, exec (.matchX16 dbits v extra) s = .next t ∧ FaultTaken .extensionShort s.ipos.toNat s t)) ∧
    (s.ipos.toNat + 1 ≤ s.inLen.toNat → (s.input.read s.ipos.toNat).isSome = true →
      s.inLen.toNat < s.ipos.toNat + 3 →
      ∃ t, exec (.matchX16 dbits v extra) s = .next t ∧ FaultTaken .extensionShort (s.ipos.toNat + 1) s t)

/-- R114, R69 and R140: MATCHX16 with a value below 15 is FormatError(3), just past its three extension bytes, before the
distance bits are consumed and whatever the distance is. -/
def Obligations.BadExtensionFaults : Prop :=
  ∀ (dbits : Nibble) (v : Word16) (extra : BitVec 15) (s : State),
    v.toNat < 15 → s.ipos.toNat + 3 ≤ s.inLen.toNat →
    (∀ k : Nat, k < 3 → (s.input.read (s.ipos.toNat + k)).isSome = true) →
    ∃ t, exec (.matchX16 dbits v extra) s = .next t ∧ FaultTaken .badExtension (s.ipos.toNat + 3) s t

/-! ## START -/

/-- R106: a write of a value with bit 0 set launches a run outside BUSY, in IDLE, DONE and ERR alike, when every byte of IN
below IN_LEN holds a value (P_IN_VALID, R156): STATE is BUSY, the error registers and the positions are 0, PHASE is INIT, no
byte of OUT holds a value, and DSIZE, IN_LEN and IN are kept; while BUSY it has no effect. -/
def Obligations.StartLaunches : Prop :=
  ∀ (value : Word32) (s : State), value.getLsbD 0 = true →
    (s.status ≠ .busy → s.input.wf = true → InputValid s →
      ∃ t, exec (.start value) s = .next t ∧ t.status = .busy ∧ t.errcode = 0 ∧ t.errsub = 0 ∧ t.ipos = 0 ∧ t.opos = 0 ∧
        t.phase = .init ∧ (∀ a : Nat, t.output.read a = none) ∧
        t.dsize = s.dsize ∧ t.inLen = s.inLen ∧ t.input = s.input) ∧
    (s.status = .busy → exec (.start value) s = .next s)

/-- R28 and R106: while BUSY, and for a value whose bit 0 is 0, nothing happens; bits 31:1 never matter. -/
def Obligations.StartIgnored : Prop :=
  (∀ (value : Word32) (s : State), s.status = .busy → exec (.start value) s = .next s) ∧
  (∀ (value : Word32) (s : State), value.getLsbD 0 = false → exec (.start value) s = .next s) ∧
  (∀ (value value' : Word32) (s : State), value.getLsbD 0 = value'.getLsbD 0 →
    exec (.start value) s = exec (.start value') s)

/-- The frame of START, R106 and R154: whatever value is written, DSIZE, IN_LEN, IN, the pending moves and what the host
last read stay, and either nothing at all has changed, or no byte of OUT holds a value and a run is pending. Of the datapath
a launch keeps nothing: it holds no value until INIT (R21, R154; a free value in the model, log 27). -/
def Obligations.StartFrame : Prop :=
  ∀ (value : Word32) (s t : State), exec (.start value) s = .next t →
    t.dsize = s.dsize ∧ t.inLen = s.inLen ∧ t.input = s.input ∧ t.moves = s.moves ∧ t.readData = s.readData ∧
    (t = s ∨ (t.status = .busy ∧ t.phase = .init ∧ ∀ a : Nat, t.output.read a = none))

/-- R156, P_CAP: for every configuration, a launch with DSIZE above OUT_CAP is refused by its own name, and with the
default capacity no launch is. -/
def Obligations.LaunchOverCapacityRefused : Prop :=
  (∀ (c : Config) (value : Word32) (s : State), value.getLsbD 0 = true → s.status ≠ .busy →
    c.outCap < s.dsize.toNat → execStartIn c value s = .refused .outputCapacity) ∧
  (∀ (value : Word32) (s : State), exec (.start value) s ≠ .refused .outputCapacity)

/-- R156, P_IN_VALID: for every configuration, a launch whose DSIZE fits is refused by its own name when some byte of IN
below IN_LEN holds no value, and is accepted when each of them holds one. -/
def Obligations.LaunchInvalidInputRefused : Prop :=
  ∀ (c : Config) (value : Word32) (s : State), value.getLsbD 0 = true → s.status ≠ .busy →
    s.dsize.toNat ≤ c.outCap → s.input.wf = true →
    (¬ InputValid s → execStartIn c value s = .refused .inputNotValid) ∧
    (InputValid s → ∃ t, execStartIn c value s = .next t ∧ t.status = .busy)

/-! ## Faults -/

/-- R137 and R138: fault entry, for each of the seven causes, whose codes are those of R134. -/
def Obligations.FaultEntry : Prop :=
  (∀ (f : FaultCause) (s : State), FaultTaken f s.ipos.toNat s (enterFault f s)) ∧
  (FaultCause.code .tableInvalid = 1 ∧ FaultCause.sub .tableInvalid = 1) ∧
  (FaultCause.code .badDistance = 1 ∧ FaultCause.sub .badDistance = 2) ∧
  (FaultCause.code .badExtension = 1 ∧ FaultCause.sub .badExtension = 3) ∧
  (FaultCause.code .tableShort = 2 ∧ FaultCause.sub .tableShort = 1) ∧
  (FaultCause.code .primeShort = 2 ∧ FaultCause.sub .primeShort = 2) ∧
  (FaultCause.code .refillEmpty = 2 ∧ FaultCause.sub .refillEmpty = 3) ∧
  (FaultCause.code .extensionShort = 2 ∧ FaultCause.sub .extensionShort = 4)

/-- R139: a fault is precise: when an engine step ends a run in ERR, OUT, OPOS, DSIZE, IN_LEN and IN are what they were
before the step. -/
def Obligations.FaultIsPrecise : Prop :=
  ∀ (s t : State), s.moves = [] → s.status = .busy → step s = .next t → t.status = .err →
    t.output = s.output ∧ t.opos = s.opos ∧ t.dsize = s.dsize ∧ t.inLen = s.inLen ∧ t.input = s.input ∧
      ∃ f : FaultCause, t.errcode = f.code ∧ t.errsub = f.sub

/-- R141 and R106: DONE and ERR are left only by a START, which begins again from 0, or by reset, each a move of the host. -/
def Obligations.ErrIsLeftOnlyByTheHost : Prop :=
  ∀ (s t : State), s.status = .done ∨ s.status = .err → step s = .next t → t.status ≠ s.status →
    (∃ value rest, s.moves = .writeReg 0 value :: rest ∧ value.getLsbD 0 = true ∧ t.status = .busy ∧
      t.ipos = 0 ∧ t.opos = 0 ∧ t.errcode = 0 ∧ t.errsub = 0) ∨
    (∃ rest, s.moves = .reset :: rest ∧ t.status = .idle)

/-! ## Reset and the host's registers -/

/-- R36: after reset every interface register reads 0, STATE is IDLE, and no byte of OUT holds a value. -/
def Obligations.ResetRegisters : Prop :=
  State.reset.status = .idle ∧ (∀ n : BitVec 3, regValue n State.reset = 0) ∧
    ∀ a : Nat, State.reset.output.read a = none

/-- R153: a reset, whenever it comes, gives the interface registers their reset values and abandons a run; no byte of OUT
holds a value. -/
def Obligations.ResetAbandonsARun : Prop :=
  ∀ (s : State) (rest : List HostMove), s.moves = .reset :: rest →
    ∃ t, step s = .next t ∧ t.status = .idle ∧ (∀ n : BitVec 3, regValue n t = 0) ∧ t.moves = rest ∧
      ∀ a : Nat, t.output.read a = none

/-- R27 to R34: what each register read returns, for each of the eight numbers; a read changes nothing else. -/
def Obligations.RegisterReads : Prop :=
  (∀ s : State, regValue 0 s = 0 ∧
    regValue 1 s = (match s.status with | .idle => 0 | .busy => 1 | .done => 2 | .err => 3) ∧
    (regValue 2 s).toNat = s.errcode.toNat ∧ (regValue 3 s).toNat = s.errsub.toNat ∧
    regValue 4 s = s.dsize ∧ regValue 5 s = s.inLen ∧ regValue 6 s = s.opos ∧ regValue 7 s = s.ipos) ∧
  (∀ (s : State) (n : BitVec 3) (rest : List HostMove), s.moves = .readReg n :: rest →
    step s = .next { s with moves := rest, readData := regValue n s })

/-- R32, R33, R35: the host's writes of DSIZE and IN_LEN take effect outside BUSY. -/
def Obligations.SizeWritesTakeEffect : Prop :=
  ∀ (s : State) (value : Word32) (rest : List HostMove), s.status ≠ .busy →
    (s.moves = .writeReg 4 value :: rest → step s = .next { s with moves := rest, dsize := value }) ∧
    (s.moves = .writeReg 5 value :: rest → step s = .next { s with moves := rest, inLen := value })

/-- R28, R35 and R144: while BUSY a write of any register is ignored. -/
def Obligations.WritesIgnoredWhileBusy : Prop :=
  ∀ (s : State) (n : BitVec 3) (value : Word32) (rest : List HostMove), s.status = .busy →
    s.moves = .writeReg n value :: rest → step s = .next { s with moves := rest }

/-- The model's reading of "read-only" in R27's table (log 16): a write of STATUS, ERRCODE, ERRSUB, OPOS or IPOS has no
effect in any state. -/
def Obligations.ReadOnlyRegistersIgnoreWrites : Prop :=
  ∀ (s : State) (n : BitVec 3) (value : Word32) (rest : List HostMove), n = 1 ∨ n = 2 ∨ n = 3 ∨ n = 6 ∨ n = 7 →
    s.moves = .writeReg n value :: rest → step s = .next { s with moves := rest }

/-- R50, with U11 and U14 of 93_implementation_defined.md: while BUSY the host has no access to IN or OUT, outside DONE
none to OUT, and no read of IN at or above IN_LEN or of OUT at or above DSIZE: such a move is refused. -/
def Obligations.ForbiddenAccessRefused : Prop :=
  ∀ (s : State) (addr : Word32) (b : Byte) (rest : List HostMove),
    (s.status = .busy → s.moves = .writeIn addr b :: rest ∨ s.moves = .readIn addr :: rest →
      step s = .refused .hostAccess) ∧
    (s.status ≠ .done → s.moves = .readOut addr :: rest → step s = .refused .hostAccess) ∧
    (s.inLen.toNat ≤ addr.toNat → s.moves = .readIn addr :: rest → step s = .refused .hostAccess) ∧
    (s.dsize.toNat ≤ addr.toNat → s.moves = .readOut addr :: rest → step s = .refused .hostAccess)

/-- R50: outside BUSY the host may write IN, and the byte, no other, is then what it wrote, and below IN_LEN it
may read it (log 20); in DONE it may read OUT below DSIZE. -/
def Obligations.AllowedAccessWorks : Prop :=
  (∀ (s : State) (addr : Word32) (b : Byte) (rest : List HostMove), s.status ≠ .busy →
    s.moves = .writeIn addr b :: rest →
    ∃ t, step s = .next t ∧ t.input.read addr.toNat = some b ∧
      (∀ a : Nat, a ≠ addr.toNat → t.input.read a = s.input.read a) ∧
      { t with input := s.input } = { s with moves := rest }) ∧
  (∀ (s : State) (addr : Word32) (b : Byte) (rest : List HostMove), s.status ≠ .busy →
    addr.toNat < s.inLen.toNat → s.input.read addr.toNat = some b → s.moves = .readIn addr :: rest →
    step s = .next { s with moves := rest, readData := b.setWidth 32 }) ∧
  (∀ (s : State) (addr : Word32) (b : Byte) (rest : List HostMove), s.status = .done →
    addr.toNat < s.dsize.toNat → s.output.read addr.toNat = some b → s.moves = .readOut addr :: rest →
    step s = .next { s with moves := rest, readData := b.setWidth 32 })

/-! ## The Bit Reader -/

/-- R77: with four bytes left, PRIME loads two words, the first into the high half; with fewer it raises
BitstreamUnderflow(2), IPOS unchanged if fewer than 2 bytes remained and advanced by 2 if 2 or 3 remained. -/
def Obligations.PrimeLoadsTwoWords : Prop :=
  (∀ (s : State) (b₀ b₁ b₂ b₃ : Byte), s.ipos.toNat + 4 ≤ s.inLen.toNat →
    s.input.read s.ipos.toNat = some b₀ → s.input.read (s.ipos.toNat + 1) = some b₁ →
    s.input.read (s.ipos.toNat + 2) = some b₂ → s.input.read (s.ipos.toNat + 3) = some b₃ →
    prime Config.std s = .ok () { s with
      acc := ((b₁ ++ b₀).toNat <<< 16) ||| (b₃ ++ b₂).toNat, bcnt := 32, ipos := s.ipos + 4 }) ∧
  (∀ (s : State), s.ipos.toNat ≤ s.inLen.toNat → s.inLen.toNat < s.ipos.toNat + 4 →
    ∃ t, (prime Config.std s).outcome = .next t ∧
      FaultTaken .primeShort (s.ipos.toNat + if s.inLen.toNat < s.ipos.toNat + 2 then 0 else 2) s t)

/-- R78: PEEK(n) for n <= 16 is ACC[31 : 32 - n] with the default ACCW, and 0 for n = 0; PEEK(m) = PEEK(n) >> (n - m) for
m <= n. For every valid configuration: that PEEK(n) is the first n of the ACCW bits of ACC where ACCW (R7, R14) is not 32 is
the model's reading (DEDUCED, log 2). -/
def Obligations.PeeksAreConsistent : Prop :=
  ∀ (c : Config) (s : State) (m n : Nat), c.Valid → m ≤ n → n ≤ 16 →
    peek c m s = peek c n s >>> (n - m) ∧
    (peek c n s).toNat = if n = 0 then 0 else s.acc / 2 ^ (c.accw - n) % 2 ^ n

/-- R79 and R83, for every valid configuration: from 16 to ACCW buffered bits, a CONSUME of at most 16 that completes leaves
16 to ACCW buffered bits and zeros below them, by at most one refill; CONSUME(0) changes nothing. What CONSUME does to ACC
where ACCW is not 32 or words are lsb-first is the model's reading (DEDUCED, log 1 and log 2). -/
def Obligations.ConsumeKeepsTheReader : Prop :=
  ∀ (c : Config) (n : Nat) (s t : State), c.Valid → n ≤ 16 → ReaderInv c s → consume c n s = .ok () t →
    ReaderInv c t ∧ t.bcnt.toNat = s.bcnt.toNat - n + 8 * refillBytes n s ∧
      t.ipos.toNat = s.ipos.toNat + refillBytes n s ∧ (n = 0 → t = s)

/-- R79, R80 and R85: a CONSUME that leaves fewer than 16 bits raises BitstreamUnderflow(3) when fewer than two bytes
remain, though no later bit was asked for, and leaves IPOS. -/
def Obligations.ConsumeUnderflows : Prop :=
  ∀ (c : Config) (n : Nat) (s : State), n ≤ 16 → 16 ≤ s.bcnt.toNat → refillDue n s →
    s.inLen.toNat < s.ipos.toNat + 2 →
    ∃ t, (consume c n s).outcome = .next t ∧ FaultTaken .refillEmpty s.ipos.toNat s t

/-- R84, for every valid configuration: consuming one bit at a time and all at once leave the same state and fault in the
same cases. What CONSUME does to ACC where ACCW is not 32 or words are lsb-first is the model's reading (DEDUCED, log 1 and
log 2). -/
def Obligations.ConsumeBitByBit : Prop :=
  ∀ (c : Config) (n : Nat) (s : State), c.Valid → n ≤ 16 → ReaderInv c s →
    (consumeBits c n s).outcome = (consume c n s).outcome

/-- R86, the position law, for the words: after consumes of n bits in all from a primed state, 16 W - n bits are buffered
and IPOS has moved by two bytes for each word after the two of the prime, W = max(2, ceil(n/16) + 1). -/
def Obligations.PositionLaw : Prop :=
  ∀ (c : Config) (ns : List Nat) (s t : State), (∀ n ∈ ns, n ≤ 16) → ReaderInv c s → s.bcnt.toNat = 32 →
    s.ipos.toNat ≤ s.inLen.toNat → consumeList c ns s = .ok () t →
    t.bcnt.toNat = 16 * wordsFetched ns.sum - ns.sum ∧
      t.ipos.toNat = s.ipos.toNat + 2 * (wordsFetched ns.sum - 2)

/-! ## The Canonical Huffman Table Builder -/

/-- R90 and R91: LOADTABLE unpacks two lengths from each byte, the even symbol's from the low nibble, and advances IPOS
by 256. -/
def Obligations.UnpackingLaw : Prop :=
  ∀ (s t : State), loadTable Config.std s = .ok () t →
    t.ipos.toNat = s.ipos.toNat + 256 ∧
    ∀ sym : Nat, sym < 512 → ∃ b : Byte, s.input.read (s.ipos.toNat + sym / 2) = some b ∧
      lenAt t.len sym = (b.toNat >>> (4 * (sym % 2))) % 16

/-- R92, R93, R94, R95 and R97, by the symbols themselves: with no coded symbol, or with two or more whose Kraft sum is
not 2^15, BUILD raises FormatError(1); with exactly one it sets DEGEN and DSYM to that symbol, whatever its length; in
the remaining case it clears DEGEN and builds the code. -/
def Obligations.BuildJudgesTheTable : Prop :=
  ∀ s : State,
    (codedSymbols s.len = 0 → ∃ t, build s = .raised .tableInvalid t ∧ t.ipos = s.ipos) ∧
    (codedSymbols s.len = 1 → ∃ t, build s = .ok () t ∧ t.degen = true ∧ t.len = s.len ∧
      ∀ sym : Sym, lenAt s.len sym.toNat ≠ 0 ↔ sym = t.dsym) ∧
    (2 ≤ codedSymbols s.len → symbolKraft s.len ≠ 32768 →
      ∃ t, build s = .raised .tableInvalid t ∧ t.ipos = s.ipos) ∧
    (2 ≤ codedSymbols s.len → symbolKraft s.len = 32768 →
      ∃ t, build s = .ok () t ∧ t.degen = false ∧ t.len = s.len ∧ BuiltTable t.toDatapath)

/-- R96: FIRST[1] = 0 and FIRST[l] = (FIRST[l-1] + CNT[l-1]) << 1, in the registers of every complete table. -/
def Obligations.FirstCodesRecurrence : Prop :=
  ∀ d : Datapath, BuiltTable d →
    firstAt d.first 1 = 0 ∧
    ∀ l : Nat, 2 ≤ l → l ≤ 15 → firstAt d.first l = (firstAt d.first (l - 1) + cntAt d.cnt (l - 1)) <<< 1

/-- R98: the first symbol of each length in index order has the code FIRST, and the next symbol of the same length the
next code. -/
def Obligations.CodesAreConsecutive : Prop :=
  ∀ (d : Datapath) (sym : Nat), BuiltTable d → sym < 512 → lenAt d.len sym ≠ 0 →
    (d.code.toList.getD sym 0).toNat =
      firstAt d.first (lenAt d.len sym) + rankBelow d.len sym (lenAt d.len sym)

/-- R100: in a valid table FIRST[l] + CNT[l] <= 2^l for every length, with equality at the greatest used length, and
every code fits in its length. -/
def Obligations.CodesFitTheirLengths : Prop :=
  ∀ d : Datapath, BuiltTable d →
    (∀ l : Nat, 1 ≤ l → l ≤ 15 → firstAt d.first l + cntAt d.cnt l ≤ 2 ^ l ∧
      (cntAt d.cnt l ≠ 0 → (∀ k : Nat, l < k → k ≤ 15 → cntAt d.cnt k = 0) →
        firstAt d.first l + cntAt d.cnt l = 2 ^ l)) ∧
    (∀ sym : Nat, sym < 512 → lenAt d.len sym ≠ 0 →
      (d.code.toList.getD sym 0).toNat < 2 ^ lenAt d.len sym)

/-- R99 and R101: in a valid table every pattern of fifteen bits begins with the codeword of exactly one symbol, and
LOOKUP returns that symbol and its length. -/
def Obligations.LookupFindsTheOneSymbol : Prop :=
  ∀ (d : Datapath) (p : BitVec 15), BuiltTable d →
    ∃ sym : Sym, lookup d p = some (sym, lenAt d.len sym.toNat) ∧ CodeBegins d p sym ∧
      ∀ sym' : Sym, CodeBegins d p sym' → sym' = sym

/-- R104: in the degenerate case DECODESYM returns DSYM and consumes nothing. -/
def Obligations.DegenerateSymbolIsFree : Prop :=
  ∀ (c : Config) (s : State), s.degen = true → decodeSym c s = .ok s.dsym { s with sym := s.dsym }

/-- R103: in the other case DECODESYM returns the symbol whose codeword begins PEEK(15) and consumes that codeword: with
the bits it needs it completes, ACC, BCNT and IPOS being those after the CONSUME and its refill, SYM the symbol, and all else
as it was; with a refill due and no word left it is BitstreamUnderflow(3). -/
def Obligations.SymbolConsumesItsCodeword : Prop :=
  ∀ (s : State) (sym : Sym), s.degen = false → BuiltTable s.toDatapath → ReaderInv Config.std s →
    CodeBegins s.toDatapath (window Config.std s) sym →
    (CanConsume (lenAt s.len sym.toNat) s →
      ∃ t, decodeSym Config.std s = .ok sym t ∧
        t.bcnt.toNat = s.bcnt.toNat - lenAt s.len sym.toNat + 8 * refillBytes (lenAt s.len sym.toNat) s ∧
        t.ipos.toNat = s.ipos.toNat + refillBytes (lenAt s.len sym.toNat) s ∧
        t = { s with
          acc := consumedAcc (lenAt s.len sym.toNat) s, bcnt := t.bcnt, ipos := t.ipos, sym := sym }) ∧
    (refillDue (lenAt s.len sym.toNat) s → s.inLen.toNat < s.ipos.toNat + 2 →
      ∃ t, (decodeSym Config.std s).outcome = .next t ∧ FaultTaken .refillEmpty s.ipos.toNat s t)

/-! ## The engine -/

/-- R107 and R140: the order of faults in INIT: table short, then table invalid, then prime short. -/
def Obligations.InitFaultOrder : Prop :=
  ∀ s : State, s.moves = [] → s.status = .busy → s.phase = .init → s.ipos.toNat ≤ s.inLen.toNat → InputValid s →
    (s.inLen.toNat < s.ipos.toNat + 256 →
      ∃ t, step s = .next t ∧ FaultTaken .tableShort s.ipos.toNat s t) ∧
    (∀ t₁ t₂ : State, loadTable Config.std s = .ok () t₁ → build t₁ = .raised .tableInvalid t₂ →
      ∃ t, step s = .next t ∧ FaultTaken .tableInvalid (s.ipos.toNat + 256) s t) ∧
    (∀ t₁ t₂ : State, loadTable Config.std s = .ok () t₁ → build t₁ = .ok () t₂ →
      s.inLen.toNat < s.ipos.toNat + 260 →
      ∃ t, step s = .next t ∧
        FaultTaken .primeShort (s.ipos.toNat + 256 + if s.inLen.toNat < s.ipos.toNat + 258 then 0 else 2) s t)

/-- R107, for every valid configuration (`step` is `stepIn` at the default one): with a table BUILD accepts and the stream's
first words in IN, INIT completes, whatever DSIZE is: PHASE is RUN, IPOS is past the table and the words, ACC holds the words
in order and zeros below them, the tables and the flag are those of BUILD, BEND is OPOS + BLOCK_LEN where BLOCK_LEN is a
number, and OPOS, OUT, IN and the interface registers are unchanged. R77 gives BCNT, IPOS and ACC for two words, msb-first,
and an ACCW of 32; for another PRIME_WORDS, for lsb-first words (R7, R42) and for another ACCW (R7, R14) they are the model's
reading (DEDUCED, log 1 and log 2). -/
def Obligations.InitCompletes : Prop :=
  ∀ (c : Config) (s t₁ t₂ : State), c.Valid → s.moves = [] → s.status = .busy → s.phase = .init → InputValid s →
    s.ipos.toNat + 256 + 2 * c.primeWords ≤ s.inLen.toNat →
    loadTable c s = .ok () t₁ → build t₁ = .ok () t₂ →
    ∃ t, stepIn c s = .next t ∧ t.phase = .run ∧ t.status = .busy ∧
      t.ipos.toNat = s.ipos.toNat + 256 + 2 * c.primeWords ∧ t.bcnt.toNat = 16 * c.primeWords ∧ ReaderInv c t ∧
      (∀ k : Nat, k < c.primeWords →
        t.acc / 2 ^ (c.accw - 16 * (k + 1)) % 2 ^ 16 = (orderBits c (nextWord (advance (256 + 2 * k) s))).toNat) ∧
      t.degen = t₂.degen ∧ t.dsym = t₂.dsym ∧ t.len = t₂.len ∧ t.cnt = t₂.cnt ∧ t.first = t₂.first ∧ t.code = t₂.code ∧
      (∀ n : Nat, c.blockLen = some n → t.bend.toNat = s.opos.toNat + n) ∧
      t.opos = s.opos ∧ t.output = s.output ∧ t.input = s.input ∧ t.dsize = s.dsize ∧ t.inLen = s.inLen ∧
      t.errcode = s.errcode ∧ t.errsub = s.errsub

/-- R108 and R109: when OPOS = DSIZE the step is FINISH, and nothing but STATE changes. -/
def Obligations.DispatchFinishesFirst : Prop :=
  ∀ s : State, s.moves = [] → s.status = .busy → s.phase = .run → s.opos = s.dsize →
    step s = .next { s with status := .done }

/-- R110: when the symbol, the extension bytes and the distance bits at the stream position decode to an instruction,
the step of a run below its size is that instruction run from the state after its codeword; when the codeword's CONSUME
raises, or a read of an extension byte does, the step is that fault taken, BitstreamUnderflow(3) or (4). -/
def Obligations.StepRunsTheDecodedInstruction : Prop :=
  ∀ s : State, s.moves = [] → s.status = .busy → s.phase = .run → s.opos ≠ s.dsize →
    (∀ (s₁ s₂ : State) (sym : Sym) (bytes : List Byte) (i : Instr), decodeSym Config.std s = .ok sym s₁ →
      readExtension Config.std sym s₁ = .ok bytes s₂ →
      decode Config.std (.token sym bytes (window Config.std s₁)) = .ok i → step s = exec i s₁) ∧
    (∀ (f : FaultCause) (s₁ : State), decodeSym Config.std s = .raised f s₁ →
      f = .refillEmpty ∧ step s = .next (enterFault f s₁)) ∧
    (∀ (f : FaultCause) (s₁ s₂ : State) (sym : Sym), decodeSym Config.std s = .ok sym s₁ →
      readExtension Config.std sym s₁ = .raised f s₂ → f = .extensionShort ∧ step s = .next (enterFault f s₂))

/-- R28: when the host's next move writes a value with bit 0 set to CTRL, the step is START run from the state with that
move taken. -/
def Obligations.StepRunsTheCommand : Prop :=
  ∀ (s : State) (value : Word32) (rest : List HostMove), s.moves = .writeReg 0 value :: rest →
    value.getLsbD 0 = true → step s = exec (.start value) { s with moves := rest }

/-- R108 and R123: with BLOCK_LEN a number, a run below its size whose OPOS has reached BEND switches blocks: PHASE is INIT
and nothing else changes; below BEND the step is a token step; with BLOCK_LEN none it always is. -/
def Obligations.BlockSwitch : Prop :=
  (∀ (c : Config) (n : Nat) (s : State), c.blockLen = some n → s.moves = [] → s.status = .busy → s.phase = .run →
    s.opos ≠ s.dsize →
    (s.bend.toNat ≤ s.opos.toNat → stepIn c s = .next { s with phase := .init }) ∧
    (s.opos.toNat < s.bend.toNat → stepIn c s = tokenStep c (execIn c) s)) ∧
  (∀ (c : Config) (s : State), c.blockLen = none → s.moves = [] → s.status = .busy → s.phase = .run →
    s.opos ≠ s.dsize → stepIn c s = tokenStep c (execIn c) s)

/-- R38 and R53: no engine step changes IN, DSIZE or IN_LEN. -/
def Obligations.EngineLeavesTheInput : Prop :=
  ∀ (c : Config) (s t : State), s.moves = [] → stepIn c s = .next t →
    t.input = s.input ∧ t.dsize = s.dsize ∧ t.inLen = s.inLen

/-- R16, R17 and R120: in an engine step IPOS and OPOS never decrease and never pass IN_LEN and DSIZE. -/
def Obligations.PositionsMoveForward : Prop :=
  ∀ (c : Config) (s t : State), s.moves = [] → s.status = .busy → s.ipos.toNat ≤ s.inLen.toNat →
    s.opos.toNat ≤ s.dsize.toNat → stepIn c s = .next t →
    s.ipos.toNat ≤ t.ipos.toNat ∧ t.ipos.toNat ≤ t.inLen.toNat ∧
    s.opos.toNat ≤ t.opos.toNat ∧ t.opos.toNat ≤ t.dsize.toNat

/-- R40: an engine step writes OUT only from OPOS up to the new OPOS: every byte below the old OPOS and every byte at or
above the new one is unchanged. -/
def Obligations.OutputGrowsInOrder : Prop :=
  ∀ (c : Config) (s t : State), s.moves = [] → s.status = .busy → s.opos.toNat ≤ s.dsize.toNat →
    stepIn c s = .next t →
    ∀ a : Nat, a < s.opos.toNat ∨ t.opos.toNat ≤ a → t.output.read a = s.output.read a

/-- R118: what a token does depends on nothing but the table, ACC, BCNT, IPOS, IN_LEN and the bytes of IN from IPOS on,
OPOS, DSIZE and OUT below OPOS. -/
def Obligations.TokenDependsOnItsInputs : Prop :=
  ∀ (s s' t : State), SameForToken s s' →
    tokenStep Config.std exec s = .next t →
    ∃ t', tokenStep Config.std exec s' = .next t' ∧ SameAfterToken s t t'

/-! ## Invariants and runs -/

/-- The invariant holds at reset, for every configuration. -/
def Obligations.ResetMeetsTheInvariant : Prop := ∀ c : Config, Inv c State.reset

/-- Every step keeps the invariant (R15 to R17, R30, R31, R40, R83, and P_IN_VALID of R156): of `step`, and of the step of
every valid configuration, where the readings of log 1 and log 2 (DEDUCED) stand for parameters other than the defaults. -/
def Obligations.StepKeepsTheInvariant : Prop :=
  (∀ s t : State, Inv Config.std s → step s = .next t → Inv Config.std t) ∧
  (∀ (c : Config) (s t : State), c.Valid → Inv c s → stepIn c s = .next t → Inv c t)

/-- R134's "No other cause exists" and R99: from a state that meets the invariant no step of any valid configuration
stops with a fault of the model. -/
def Obligations.NoStepFaults : Prop :=
  ∀ (c : Config) (s : State) (r : Fault), c.Valid → Inv c s → stepIn c s ≠ .fault r

/-- R164: from a state that meets the invariant, which says that IN is valid, the engine has an enabled step in every BUSY
state, and each step lowers the bound on the steps left. -/
def Obligations.BusyStepsMakeProgress : Prop :=
  ∀ s : State, Inv Config.std s → s.status = .busy → s.moves = [] →
    ∃ t, step s = .next t ∧ stepsLeft t < stepsLeft s

/-- R164, R165 and R29: from a launch that meets the invariant, which says that IN is valid, the run is over after DSIZE + 2
steps: STATE is DONE with OPOS = DSIZE and exactly the bytes of OUT below DSIZE hold a value, or ERR with one of the seven
causes. -/
def Obligations.EveryRunEnds : Prop :=
  ∀ s : State, Inv Config.std s → s.status = .busy → s.phase = .init → s.moves = [] →
    ∃ t, core.run (s.dsize.toNat + 2) s = .next t ∧
      ((t.status = .done ∧ t.opos = s.dsize ∧ t.errcode = 0 ∧
          ∀ a : Nat, (t.output.read a).isSome = true ↔ a < s.dsize.toNat) ∨
        (t.status = .err ∧ ∃ f : FaultCause, t.errcode = f.code ∧ t.errsub = f.sub))

/-! ## Encoding -/

/-- R61 to R65 and R72: decoding the words of a well-formed instruction gives it back, whatever bytes follow its
extension bytes and whatever bits follow its distance bits. -/
def Obligations.DecodeEncode : Prop :=
  (∀ i : Instr, i.wellFormed = true → decode Config.std (encode i) = .ok i) ∧
  (∀ (i : Instr) (rest : List Byte) (padding : BitVec 15), i.wellFormed = true → (∀ value, i ≠ .start value) →
    padding.toNat < 2 ^ (15 - (tokenExtra i).1) →
    decodeToken Config.std (tokenSym i) (tokenBytes i ++ rest) (tokenWindow i ||| padding) = .ok (i, rest))

/-- R72: every symbol with enough bytes after it decodes to exactly one form, whose encoding is that symbol and the bytes
it took, whose distance bits are those the window begins with, and which is well-formed unless it is a MATCHX16 with a
value below 15 (R69). -/
def Obligations.EncodeDecode : Prop :=
  ∀ (sym : Sym) (b₀ b₁ b₂ : Byte) (rest : List Byte) (w : BitVec 15),
    ∃ i left, decodeToken Config.std sym (b₀ :: b₁ :: b₂ :: rest) w = .ok (i, left) ∧
      tokenSym i = sym ∧ tokenBytes i ++ left = b₀ :: b₁ :: b₂ :: rest ∧
      (tokenExtra i).2 = windowBits w (tokenExtra i).1 ∧
      (i.wellFormed = true ∨ ∃ dbits v extra, i = .matchX16 dbits v extra ∧ v.toNat < 15)

/-- Words written out from R61 to R65 and R28, and the instructions they stand for. -/
def Obligations.WordsDecode : Prop :=
  decode Config.std (.token 0b001000001#9 [] 0) = .ok (.lit 0x41) ∧
  decode Config.std (.token 0b100000111#9 [] 0) = .ok (.matchM 0 7 0) ∧
  decode Config.std (.token 0b100011111#9 [0x02] 0) = .ok (.matchX8 1 0x02 0) ∧
  decode Config.std (.token 0b100001111#9 [0xff, 0x29, 0x01] 0) = .ok (.matchX16 0 297 0) ∧
  decode Config.std (.command 1) = .ok (.start 1)

/-- R66, R67 and R73: every length 3 to 65538 and every distance 1 to 65535 has a spelling, which is well-formed and means
that length and that distance; a distance has one spelling. -/
def Obligations.EveryMatchCanBeSpelled : Prop :=
  (∀ length dist : Nat, 3 ≤ length → length ≤ 65538 → 1 ≤ dist → dist ≤ 65535 →
    ∃ i, spellMatch length dist = some i ∧ i.wellFormed = true ∧ isMatchForm i = true ∧ matchLength i = length ∧
      2 ^ (tokenExtra i).1 + (tokenExtra i).2.toNat = dist) ∧
  (∀ (d d' : Nibble) (x x' : BitVec 15), x.toNat < 2 ^ d.toNat → x'.toNat < 2 ^ d'.toNat →
    distance Config.std d x = distance Config.std d' x' → d = d' ∧ x = x')

/-- R124 and R74, the round trip this spec can offer for S1: the payload that R74 assembles for a listing of well-formed
tokens over a complete table decodes to the bytes the listing spells, in one step for INIT, one for each token and one
for FINISH. -/
def Obligations.AssembledListingDecodes : Prop :=
  ∀ (len : Vector Nibble 512) (listing : List Instr) (out : List Byte),
    CompleteTable len →
    (∀ i ∈ listing, i.wellFormed = true ∧ lenAt len (tokenSym i).toNat ≠ 0) →
    expandListing listing [] = some out →
    out.length < 2 ^ 32 → (assemble len listing).length < 2 ^ 32 →
    ∃ t, core.run (listing.length + 2) (launched (assemble len listing) (BitVec.ofNat 32 out.length)) = .next t ∧
      t.status = .done ∧ t.opos.toNat = out.length ∧ t.ipos.toNat = (assemble len listing).length ∧
      t.output = memOf out

end
end

