-- ==== Sys2Proof/Laws/Memory.lean ====
section
/-! SUPPORT. The laws of a memory: a read after a write, the canonical form, runs of bytes, filled ranges. -/

namespace Sys2Proof.Machine

@[simp] theorem Mem.read_nil (a : Nat) : Mem.read [] a = none := rfl

/-- A read after a write: the byte written at its address, what was there anywhere else. -/
theorem Mem.read_write (m : Mem) (a : Nat) (b : Byte) (a' : Nat) :
    (m.write a b).read a' = if a' = a then some b else m.read a' := by
  induction m with
  | nil => simp [Mem.write, Mem.read]
  | cons e m ih =>
    obtain ⟨k, v⟩ := e
    by_cases h₁ : a < k
    · simp [Mem.write, Mem.read, h₁]
    · by_cases h₂ : a = k
      · subst h₂
        by_cases h : a' = a <;> simp [Mem.write, Mem.read, h]
      · simp only [Mem.write, Mem.read, h₁, h₂, if_false, ih]
        by_cases h : a' = k
        · simp [h, Ne.symm h₂]
        · simp [h]

@[simp] theorem Mem.read_write_same (m : Mem) (a : Nat) (b : Byte) : (m.write a b).read a = some b := by
  simp [Mem.read_write]

theorem Mem.read_write_other (m : Mem) {a a' : Nat} (b : Byte) (h : a' ≠ a) : (m.write a b).read a' = m.read a' := by
  simp [Mem.read_write, h]

/-- A canonical form from an address on is one from any lower address on. -/
theorem Mem.wfFrom_mono {m : Mem} {lo lo' : Nat} (h : Mem.wfFrom lo m = true) (hl : lo' ≤ lo) :
    Mem.wfFrom lo' m = true := by
  cases m with
  | nil => rfl
  | cons e m =>
    obtain ⟨k, v⟩ := e
    simp only [Mem.wfFrom, Bool.and_eq_true, decide_eq_true_eq] at h ⊢
    exact ⟨⟨by omega, h.1.2⟩, h.2⟩

theorem Mem.wfFrom_write (m : Mem) (lo a : Nat) (b : Byte) (h : Mem.wfFrom lo m = true) (hl : lo ≤ a)
    (ha : a < 2 ^ 32) : Mem.wfFrom lo (m.write a b) = true := by
  induction m generalizing lo with
  | nil => simpa [Mem.write, Mem.wfFrom, hl] using ha
  | cons e m ih =>
    obtain ⟨k, v⟩ := e
    simp only [Mem.wfFrom, Bool.and_eq_true, decide_eq_true_eq] at h
    unfold Mem.write
    split
    · simp only [Mem.wfFrom, Bool.and_eq_true, decide_eq_true_eq]
      exact ⟨⟨hl, ha⟩, ⟨by omega, h.1.2⟩, h.2⟩
    · split
      · subst_vars
        simp only [Mem.wfFrom, Bool.and_eq_true, decide_eq_true_eq]
        exact h
      · simp only [Mem.wfFrom, Bool.and_eq_true, decide_eq_true_eq]
        exact ⟨h.1, ih _ h.2 (by omega)⟩

/-- Every write keeps the canonical form. -/
theorem Mem.wf_write (m : Mem) (a : Nat) (b : Byte) (h : m.wf = true) (ha : a < 2 ^ 32) : (m.write a b).wf = true :=
  Mem.wfFrom_write m 0 a b h (Nat.zero_le _) ha

/-- Bytes written in a row keep the canonical form. -/
theorem Mem.wf_writeBytes (bs : List Byte) (m : Mem) (a : Nat) (h : m.wf = true) (ha : a + bs.length ≤ 2 ^ 32) :
    (m.writeBytes a bs).wf = true := by
  induction bs generalizing m a with
  | nil => exact h
  | cons b bs ih =>
    simp only [List.length_cons] at ha
    exact ih _ _ (Mem.wf_write m a b h (by omega)) (by omega)

/-- A read after bytes written in a row. -/
theorem Mem.read_writeBytes (bs : List Byte) (m : Mem) (a a' : Nat) :
    (m.writeBytes a bs).read a' =
      if a ≤ a' ∧ a' < a + bs.length then bs[a' - a]? else m.read a' := by
  induction bs generalizing m a with
  | nil => simp [Mem.writeBytes]
  | cons b bs ih =>
    simp only [Mem.writeBytes, ih, Mem.read_write, List.length_cons]
    by_cases h : a' = a
    · subst h; simp
    · by_cases h₂ : a + 1 ≤ a' ∧ a' < a + 1 + bs.length
      · have e : a' - a = (a' - (a + 1)) + 1 := by omega
        rw [if_pos h₂, if_pos (by omega), e, List.getElem?_cons_succ]
      · rw [if_neg h₂, if_neg h, if_neg (by omega)]

/-- The bytes that `readBytes` returns are those of the memory. -/
theorem Mem.readBytes_eq_some {m : Mem} {a n : Nat} {bs : List Byte} (h : m.readBytes a n = some bs) :
    bs.length = n ∧ ∀ i : Nat, i < n → m.read (a + i) = some (bs.getD i 0) := by
  induction n generalizing a bs with
  | zero => simp [Mem.readBytes] at h; subst h; simp
  | succ n ih =>
    unfold Mem.readBytes at h
    split at h
    · rename_i b bs' h₁ h₂
      obtain rfl := Option.some.inj h
      obtain ⟨hl, hr⟩ := ih h₂
      refine ⟨by simp [hl], fun i hi => ?_⟩
      cases i with
      | zero => simpa using h₁
      | succ i =>
        have := hr i (by omega)
        rw [show a + (i + 1) = a + 1 + i by omega, this]
        simp
    · cases h

/-- `readBytes` answers when every byte holds a value. -/
theorem Mem.readBytes_isSome {m : Mem} {a n : Nat} (h : ∀ i : Nat, i < n → (m.read (a + i)).isSome = true) :
    ∃ bs, m.readBytes a n = some bs := by
  induction n generalizing a with
  | zero => exact ⟨[], rfl⟩
  | succ n ih =>
    obtain ⟨bs, hb⟩ := ih (a := a + 1) (fun i hi => by
      have := h (i + 1) (by omega)
      rwa [show a + 1 + i = a + (i + 1) by omega])
    obtain ⟨b, h₀⟩ := Option.isSome_iff_exists.mp (h 0 (by omega))
    exact ⟨b :: bs, by simp [Mem.readBytes, hb, show m.read a = some b from h₀]⟩

/-- Bytes written in a row are read back. -/
theorem Mem.readBytes_writeBytes (bs : List Byte) (m : Mem) (a n : Nat) (h : n ≤ bs.length) :
    (m.writeBytes a bs).readBytes a n = some (bs.take n) := by
  obtain ⟨l, hl⟩ := Mem.readBytes_isSome (m := m.writeBytes a bs) (a := a) (n := n) (fun i hi => by
    rw [Mem.read_writeBytes, if_pos (by omega)]
    simp; omega)
  obtain ⟨e, e'⟩ := Mem.readBytes_eq_some hl
  rw [hl]
  congr 1
  apply List.ext_getElem
  · simp [e]; omega
  · intro i h₁ h₂
    have := e' i (by omega)
    rw [Mem.read_writeBytes, if_pos (by omega)] at this
    simp at this
    rw [List.getElem?_eq_getElem (by omega), List.getElem?_eq_getElem (by omega)] at this
    simp at this
    simp [this]

/-- A filled memory, canonical or not, holds a value at every address of the range. -/
theorem Mem.isSome_of_filledFrom {m : Mem} {hi lo : Nat} (h : Mem.filledFrom hi lo m = true) {a : Nat} (hl : lo ≤ a)
    (ha : a < hi) : (m.read a).isSome = true := by
  induction m generalizing lo with
  | nil => simp only [Mem.filledFrom, decide_eq_true_eq] at h; omega
  | cons e m ih =>
    obtain ⟨k, v⟩ := e
    simp only [Mem.filledFrom, Bool.or_eq_true, Bool.and_eq_true, decide_eq_true_eq] at h
    rcases h with h | ⟨rfl, h⟩
    · omega
    · by_cases hk : a = k
      · simp [Mem.read, hk]
      · simpa [Mem.read, hk] using ih h (by omega)

/-- Below its first possible entry a canonical memory holds no value. -/
theorem Mem.read_eq_none_of_lt {m : Mem} {lo a : Nat} (h : Mem.wfFrom lo m = true) (ha : a < lo) : m.read a = none := by
  induction m generalizing lo with
  | nil => rfl
  | cons e m ih =>
    obtain ⟨k, v⟩ := e
    simp only [Mem.wfFrom, Bool.and_eq_true, decide_eq_true_eq] at h
    simpa [Mem.read, show a ≠ k by omega] using ih h.2 (by omega)

/-- In canonical form the walk decides it: a memory is filled when every address of the range holds a value. -/
theorem Mem.filledFrom_iff {m : Mem} {hi lo : Nat} (h : Mem.wfFrom lo m = true) :
    Mem.filledFrom hi lo m = true ↔ ∀ a : Nat, lo ≤ a → a < hi → (m.read a).isSome = true := by
  refine ⟨fun hf a hl ha => Mem.isSome_of_filledFrom hf hl ha, fun hr => ?_⟩
  induction m generalizing lo with
  | nil =>
    simp only [Mem.filledFrom, decide_eq_true_eq]
    by_contra hlo
    exact absurd (hr lo le_rfl (by omega)) (by simp)
  | cons e m ih =>
    obtain ⟨k, v⟩ := e
    simp only [Mem.wfFrom, Bool.and_eq_true, decide_eq_true_eq] at h
    simp only [Mem.filledFrom, Bool.or_eq_true, Bool.and_eq_true, decide_eq_true_eq]
    by_cases hlo : hi ≤ lo
    · exact .inl hlo
    · have hk : k = lo := by
        by_contra hk
        have := hr lo le_rfl (by omega)
        simp [Mem.read, Ne.symm hk, Mem.read_eq_none_of_lt h.2 (show lo < k + 1 by omega)] at this
      subst hk
      refine .inr ⟨rfl, ih h.2 fun a hl ha => ?_⟩
      simpa [Mem.read, show a ≠ k by omega] using hr a (by omega) ha

/-- The canonical form at reset. -/
theorem reset_memories_wf : State.reset.input.wf = true ∧ State.reset.output.wf = true := ⟨rfl, rfl⟩

end Sys2Proof.Machine
end

