-- ==== Sys2Proof/Laws/State.lean ====
section
/-! SUPPORT. One lemma per field and per update of the state, so that no proof unfolds a record update. -/

namespace Sys2Proof.Machine

/-- The state after the bit reader has moved: these three registers and nothing else. -/
def readerMoved (acc : Nat) (bcnt : BitVec 6) (ipos : Word32) (s : State) : State :=
  { s with acc := acc, bcnt := bcnt, ipos := ipos }

/-- The state after `n` bytes have been copied, OUT being `out`. -/
def copied (out : Mem) (n : Nat) (s : State) : State :=
  { s with output := out, opos := s.opos + BitVec.ofNat 32 n, mrem := s.mrem - BitVec.ofNat 17 n }

/-! ## advance -/

@[simp] theorem advance_acc (n : Nat) (s : State) : (advance n s).acc = s.acc := rfl
@[simp] theorem advance_bcnt (n : Nat) (s : State) : (advance n s).bcnt = s.bcnt := rfl
@[simp] theorem advance_sym (n : Nat) (s : State) : (advance n s).sym = s.sym := rfl
@[simp] theorem advance_mlen (n : Nat) (s : State) : (advance n s).mlen = s.mlen := rfl
@[simp] theorem advance_mdist (n : Nat) (s : State) : (advance n s).mdist = s.mdist := rfl
@[simp] theorem advance_mrem (n : Nat) (s : State) : (advance n s).mrem = s.mrem := rfl
@[simp] theorem advance_phase (n : Nat) (s : State) : (advance n s).phase = s.phase := rfl
@[simp] theorem advance_bend (n : Nat) (s : State) : (advance n s).bend = s.bend := rfl
@[simp] theorem advance_degen (n : Nat) (s : State) : (advance n s).degen = s.degen := rfl
@[simp] theorem advance_dsym (n : Nat) (s : State) : (advance n s).dsym = s.dsym := rfl
@[simp] theorem advance_nnz (n : Nat) (s : State) : (advance n s).nnz = s.nnz := rfl
@[simp] theorem advance_kraft (n : Nat) (s : State) : (advance n s).kraft = s.kraft := rfl
@[simp] theorem advance_len (n : Nat) (s : State) : (advance n s).len = s.len := rfl
@[simp] theorem advance_cnt (n : Nat) (s : State) : (advance n s).cnt = s.cnt := rfl
@[simp] theorem advance_first (n : Nat) (s : State) : (advance n s).first = s.first := rfl
@[simp] theorem advance_code (n : Nat) (s : State) : (advance n s).code = s.code := rfl
@[simp] theorem advance_status (n : Nat) (s : State) : (advance n s).status = s.status := rfl
@[simp] theorem advance_errcode (n : Nat) (s : State) : (advance n s).errcode = s.errcode := rfl
@[simp] theorem advance_errsub (n : Nat) (s : State) : (advance n s).errsub = s.errsub := rfl
@[simp] theorem advance_dsize (n : Nat) (s : State) : (advance n s).dsize = s.dsize := rfl
@[simp] theorem advance_inLen (n : Nat) (s : State) : (advance n s).inLen = s.inLen := rfl
@[simp] theorem advance_opos (n : Nat) (s : State) : (advance n s).opos = s.opos := rfl
@[simp] theorem advance_ipos (n : Nat) (s : State) : (advance n s).ipos = s.ipos + BitVec.ofNat 32 n := rfl
@[simp] theorem advance_input (n : Nat) (s : State) : (advance n s).input = s.input := rfl
@[simp] theorem advance_output (n : Nat) (s : State) : (advance n s).output = s.output := rfl
@[simp] theorem advance_moves (n : Nat) (s : State) : (advance n s).moves = s.moves := rfl
@[simp] theorem advance_readData (n : Nat) (s : State) : (advance n s).readData = s.readData := rfl
@[simp] theorem advance_draws (n : Nat) (s : State) : (advance n s).draws = s.draws := rfl

/-! ## dropBits -/

@[simp] theorem dropBits_acc (c : Config) (n : Nat) (s : State) : (dropBits c n s).acc = (s.acc <<< n) % 2 ^ c.accw := rfl
@[simp] theorem dropBits_bcnt (c : Config) (n : Nat) (s : State) : (dropBits c n s).bcnt = BitVec.ofNat 6 (s.bcnt.toNat - n) := rfl
@[simp] theorem dropBits_sym (c : Config) (n : Nat) (s : State) : (dropBits c n s).sym = s.sym := rfl
@[simp] theorem dropBits_mlen (c : Config) (n : Nat) (s : State) : (dropBits c n s).mlen = s.mlen := rfl
@[simp] theorem dropBits_mdist (c : Config) (n : Nat) (s : State) : (dropBits c n s).mdist = s.mdist := rfl
@[simp] theorem dropBits_mrem (c : Config) (n : Nat) (s : State) : (dropBits c n s).mrem = s.mrem := rfl
@[simp] theorem dropBits_phase (c : Config) (n : Nat) (s : State) : (dropBits c n s).phase = s.phase := rfl
@[simp] theorem dropBits_bend (c : Config) (n : Nat) (s : State) : (dropBits c n s).bend = s.bend := rfl
@[simp] theorem dropBits_degen (c : Config) (n : Nat) (s : State) : (dropBits c n s).degen = s.degen := rfl
@[simp] theorem dropBits_dsym (c : Config) (n : Nat) (s : State) : (dropBits c n s).dsym = s.dsym := rfl
@[simp] theorem dropBits_nnz (c : Config) (n : Nat) (s : State) : (dropBits c n s).nnz = s.nnz := rfl
@[simp] theorem dropBits_kraft (c : Config) (n : Nat) (s : State) : (dropBits c n s).kraft = s.kraft := rfl
@[simp] theorem dropBits_len (c : Config) (n : Nat) (s : State) : (dropBits c n s).len = s.len := rfl
@[simp] theorem dropBits_cnt (c : Config) (n : Nat) (s : State) : (dropBits c n s).cnt = s.cnt := rfl
@[simp] theorem dropBits_first (c : Config) (n : Nat) (s : State) : (dropBits c n s).first = s.first := rfl
@[simp] theorem dropBits_code (c : Config) (n : Nat) (s : State) : (dropBits c n s).code = s.code := rfl
@[simp] theorem dropBits_status (c : Config) (n : Nat) (s : State) : (dropBits c n s).status = s.status := rfl
@[simp] theorem dropBits_errcode (c : Config) (n : Nat) (s : State) : (dropBits c n s).errcode = s.errcode := rfl
@[simp] theorem dropBits_errsub (c : Config) (n : Nat) (s : State) : (dropBits c n s).errsub = s.errsub := rfl
@[simp] theorem dropBits_dsize (c : Config) (n : Nat) (s : State) : (dropBits c n s).dsize = s.dsize := rfl
@[simp] theorem dropBits_inLen (c : Config) (n : Nat) (s : State) : (dropBits c n s).inLen = s.inLen := rfl
@[simp] theorem dropBits_opos (c : Config) (n : Nat) (s : State) : (dropBits c n s).opos = s.opos := rfl
@[simp] theorem dropBits_ipos (c : Config) (n : Nat) (s : State) : (dropBits c n s).ipos = s.ipos := rfl
@[simp] theorem dropBits_input (c : Config) (n : Nat) (s : State) : (dropBits c n s).input = s.input := rfl
@[simp] theorem dropBits_output (c : Config) (n : Nat) (s : State) : (dropBits c n s).output = s.output := rfl
@[simp] theorem dropBits_moves (c : Config) (n : Nat) (s : State) : (dropBits c n s).moves = s.moves := rfl
@[simp] theorem dropBits_readData (c : Config) (n : Nat) (s : State) : (dropBits c n s).readData = s.readData := rfl
@[simp] theorem dropBits_draws (c : Config) (n : Nat) (s : State) : (dropBits c n s).draws = s.draws := rfl

/-! ## setLength -/

@[simp] theorem setLength_acc (n : Nat) (s : State) : (setLength n s).acc = s.acc := rfl
@[simp] theorem setLength_bcnt (n : Nat) (s : State) : (setLength n s).bcnt = s.bcnt := rfl
@[simp] theorem setLength_sym (n : Nat) (s : State) : (setLength n s).sym = s.sym := rfl
@[simp] theorem setLength_mlen (n : Nat) (s : State) : (setLength n s).mlen = BitVec.ofNat 17 n := rfl
@[simp] theorem setLength_mdist (n : Nat) (s : State) : (setLength n s).mdist = s.mdist := rfl
@[simp] theorem setLength_mrem (n : Nat) (s : State) : (setLength n s).mrem = s.mrem := rfl
@[simp] theorem setLength_phase (n : Nat) (s : State) : (setLength n s).phase = s.phase := rfl
@[simp] theorem setLength_bend (n : Nat) (s : State) : (setLength n s).bend = s.bend := rfl
@[simp] theorem setLength_degen (n : Nat) (s : State) : (setLength n s).degen = s.degen := rfl
@[simp] theorem setLength_dsym (n : Nat) (s : State) : (setLength n s).dsym = s.dsym := rfl
@[simp] theorem setLength_nnz (n : Nat) (s : State) : (setLength n s).nnz = s.nnz := rfl
@[simp] theorem setLength_kraft (n : Nat) (s : State) : (setLength n s).kraft = s.kraft := rfl
@[simp] theorem setLength_len (n : Nat) (s : State) : (setLength n s).len = s.len := rfl
@[simp] theorem setLength_cnt (n : Nat) (s : State) : (setLength n s).cnt = s.cnt := rfl
@[simp] theorem setLength_first (n : Nat) (s : State) : (setLength n s).first = s.first := rfl
@[simp] theorem setLength_code (n : Nat) (s : State) : (setLength n s).code = s.code := rfl
@[simp] theorem setLength_status (n : Nat) (s : State) : (setLength n s).status = s.status := rfl
@[simp] theorem setLength_errcode (n : Nat) (s : State) : (setLength n s).errcode = s.errcode := rfl
@[simp] theorem setLength_errsub (n : Nat) (s : State) : (setLength n s).errsub = s.errsub := rfl
@[simp] theorem setLength_dsize (n : Nat) (s : State) : (setLength n s).dsize = s.dsize := rfl
@[simp] theorem setLength_inLen (n : Nat) (s : State) : (setLength n s).inLen = s.inLen := rfl
@[simp] theorem setLength_opos (n : Nat) (s : State) : (setLength n s).opos = s.opos := rfl
@[simp] theorem setLength_ipos (n : Nat) (s : State) : (setLength n s).ipos = s.ipos := rfl
@[simp] theorem setLength_input (n : Nat) (s : State) : (setLength n s).input = s.input := rfl
@[simp] theorem setLength_output (n : Nat) (s : State) : (setLength n s).output = s.output := rfl
@[simp] theorem setLength_moves (n : Nat) (s : State) : (setLength n s).moves = s.moves := rfl
@[simp] theorem setLength_readData (n : Nat) (s : State) : (setLength n s).readData = s.readData := rfl
@[simp] theorem setLength_draws (n : Nat) (s : State) : (setLength n s).draws = s.draws := rfl

/-! ## enterFault -/

@[simp] theorem enterFault_acc (f : FaultCause) (s : State) : (enterFault f s).acc = (Config.freeDatapath s.draws).acc := rfl
@[simp] theorem enterFault_bcnt (f : FaultCause) (s : State) : (enterFault f s).bcnt = (Config.freeDatapath s.draws).bcnt := rfl
@[simp] theorem enterFault_sym (f : FaultCause) (s : State) : (enterFault f s).sym = (Config.freeDatapath s.draws).sym := rfl
@[simp] theorem enterFault_mlen (f : FaultCause) (s : State) : (enterFault f s).mlen = (Config.freeDatapath s.draws).mlen := rfl
@[simp] theorem enterFault_mdist (f : FaultCause) (s : State) : (enterFault f s).mdist = (Config.freeDatapath s.draws).mdist := rfl
@[simp] theorem enterFault_mrem (f : FaultCause) (s : State) : (enterFault f s).mrem = (Config.freeDatapath s.draws).mrem := rfl
@[simp] theorem enterFault_phase (f : FaultCause) (s : State) : (enterFault f s).phase = (Config.freeDatapath s.draws).phase := rfl
@[simp] theorem enterFault_bend (f : FaultCause) (s : State) : (enterFault f s).bend = (Config.freeDatapath s.draws).bend := rfl
@[simp] theorem enterFault_degen (f : FaultCause) (s : State) : (enterFault f s).degen = (Config.freeDatapath s.draws).degen := rfl
@[simp] theorem enterFault_dsym (f : FaultCause) (s : State) : (enterFault f s).dsym = (Config.freeDatapath s.draws).dsym := rfl
@[simp] theorem enterFault_nnz (f : FaultCause) (s : State) : (enterFault f s).nnz = (Config.freeDatapath s.draws).nnz := rfl
@[simp] theorem enterFault_kraft (f : FaultCause) (s : State) : (enterFault f s).kraft = (Config.freeDatapath s.draws).kraft := rfl
@[simp] theorem enterFault_len (f : FaultCause) (s : State) : (enterFault f s).len = (Config.freeDatapath s.draws).len := rfl
@[simp] theorem enterFault_cnt (f : FaultCause) (s : State) : (enterFault f s).cnt = (Config.freeDatapath s.draws).cnt := rfl
@[simp] theorem enterFault_first (f : FaultCause) (s : State) : (enterFault f s).first = (Config.freeDatapath s.draws).first := rfl
@[simp] theorem enterFault_code (f : FaultCause) (s : State) : (enterFault f s).code = (Config.freeDatapath s.draws).code := rfl
@[simp] theorem enterFault_status (f : FaultCause) (s : State) : (enterFault f s).status = .err := rfl
@[simp] theorem enterFault_errcode (f : FaultCause) (s : State) : (enterFault f s).errcode = f.code := rfl
@[simp] theorem enterFault_errsub (f : FaultCause) (s : State) : (enterFault f s).errsub = f.sub := rfl
@[simp] theorem enterFault_dsize (f : FaultCause) (s : State) : (enterFault f s).dsize = s.dsize := rfl
@[simp] theorem enterFault_inLen (f : FaultCause) (s : State) : (enterFault f s).inLen = s.inLen := rfl
@[simp] theorem enterFault_opos (f : FaultCause) (s : State) : (enterFault f s).opos = s.opos := rfl
@[simp] theorem enterFault_ipos (f : FaultCause) (s : State) : (enterFault f s).ipos = s.ipos := rfl
@[simp] theorem enterFault_input (f : FaultCause) (s : State) : (enterFault f s).input = s.input := rfl
@[simp] theorem enterFault_output (f : FaultCause) (s : State) : (enterFault f s).output = s.output := rfl
@[simp] theorem enterFault_moves (f : FaultCause) (s : State) : (enterFault f s).moves = s.moves := rfl
@[simp] theorem enterFault_readData (f : FaultCause) (s : State) : (enterFault f s).readData = s.readData := rfl
@[simp] theorem enterFault_draws (f : FaultCause) (s : State) : (enterFault f s).draws = s.draws + 1 := rfl

/-! ## launch -/

@[simp] theorem launch_acc (s : State) : (launch s).acc = (Config.freeDatapath s.draws).acc := rfl
@[simp] theorem launch_bcnt (s : State) : (launch s).bcnt = (Config.freeDatapath s.draws).bcnt := rfl
@[simp] theorem launch_sym (s : State) : (launch s).sym = (Config.freeDatapath s.draws).sym := rfl
@[simp] theorem launch_mlen (s : State) : (launch s).mlen = (Config.freeDatapath s.draws).mlen := rfl
@[simp] theorem launch_mdist (s : State) : (launch s).mdist = (Config.freeDatapath s.draws).mdist := rfl
@[simp] theorem launch_mrem (s : State) : (launch s).mrem = (Config.freeDatapath s.draws).mrem := rfl
@[simp] theorem launch_phase (s : State) : (launch s).phase = .init := rfl
@[simp] theorem launch_bend (s : State) : (launch s).bend = (Config.freeDatapath s.draws).bend := rfl
@[simp] theorem launch_degen (s : State) : (launch s).degen = (Config.freeDatapath s.draws).degen := rfl
@[simp] theorem launch_dsym (s : State) : (launch s).dsym = (Config.freeDatapath s.draws).dsym := rfl
@[simp] theorem launch_nnz (s : State) : (launch s).nnz = (Config.freeDatapath s.draws).nnz := rfl
@[simp] theorem launch_kraft (s : State) : (launch s).kraft = (Config.freeDatapath s.draws).kraft := rfl
@[simp] theorem launch_len (s : State) : (launch s).len = (Config.freeDatapath s.draws).len := rfl
@[simp] theorem launch_cnt (s : State) : (launch s).cnt = (Config.freeDatapath s.draws).cnt := rfl
@[simp] theorem launch_first (s : State) : (launch s).first = (Config.freeDatapath s.draws).first := rfl
@[simp] theorem launch_code (s : State) : (launch s).code = (Config.freeDatapath s.draws).code := rfl
@[simp] theorem launch_status (s : State) : (launch s).status = .busy := rfl
@[simp] theorem launch_errcode (s : State) : (launch s).errcode = 0 := rfl
@[simp] theorem launch_errsub (s : State) : (launch s).errsub = 0 := rfl
@[simp] theorem launch_dsize (s : State) : (launch s).dsize = s.dsize := rfl
@[simp] theorem launch_inLen (s : State) : (launch s).inLen = s.inLen := rfl
@[simp] theorem launch_opos (s : State) : (launch s).opos = 0 := rfl
@[simp] theorem launch_ipos (s : State) : (launch s).ipos = 0 := rfl
@[simp] theorem launch_input (s : State) : (launch s).input = s.input := rfl
@[simp] theorem launch_output (s : State) : (launch s).output = [] := rfl
@[simp] theorem launch_moves (s : State) : (launch s).moves = s.moves := rfl
@[simp] theorem launch_readData (s : State) : (launch s).readData = s.readData := rfl
@[simp] theorem launch_draws (s : State) : (launch s).draws = s.draws + 1 := rfl

/-! ## finish -/

@[simp] theorem finish_acc (s : State) : (finish s).acc = s.acc := rfl
@[simp] theorem finish_bcnt (s : State) : (finish s).bcnt = s.bcnt := rfl
@[simp] theorem finish_sym (s : State) : (finish s).sym = s.sym := rfl
@[simp] theorem finish_mlen (s : State) : (finish s).mlen = s.mlen := rfl
@[simp] theorem finish_mdist (s : State) : (finish s).mdist = s.mdist := rfl
@[simp] theorem finish_mrem (s : State) : (finish s).mrem = s.mrem := rfl
@[simp] theorem finish_phase (s : State) : (finish s).phase = s.phase := rfl
@[simp] theorem finish_bend (s : State) : (finish s).bend = s.bend := rfl
@[simp] theorem finish_degen (s : State) : (finish s).degen = s.degen := rfl
@[simp] theorem finish_dsym (s : State) : (finish s).dsym = s.dsym := rfl
@[simp] theorem finish_nnz (s : State) : (finish s).nnz = s.nnz := rfl
@[simp] theorem finish_kraft (s : State) : (finish s).kraft = s.kraft := rfl
@[simp] theorem finish_len (s : State) : (finish s).len = s.len := rfl
@[simp] theorem finish_cnt (s : State) : (finish s).cnt = s.cnt := rfl
@[simp] theorem finish_first (s : State) : (finish s).first = s.first := rfl
@[simp] theorem finish_code (s : State) : (finish s).code = s.code := rfl
@[simp] theorem finish_status (s : State) : (finish s).status = .done := rfl
@[simp] theorem finish_errcode (s : State) : (finish s).errcode = s.errcode := rfl
@[simp] theorem finish_errsub (s : State) : (finish s).errsub = s.errsub := rfl
@[simp] theorem finish_dsize (s : State) : (finish s).dsize = s.dsize := rfl
@[simp] theorem finish_inLen (s : State) : (finish s).inLen = s.inLen := rfl
@[simp] theorem finish_opos (s : State) : (finish s).opos = s.opos := rfl
@[simp] theorem finish_ipos (s : State) : (finish s).ipos = s.ipos := rfl
@[simp] theorem finish_input (s : State) : (finish s).input = s.input := rfl
@[simp] theorem finish_output (s : State) : (finish s).output = s.output := rfl
@[simp] theorem finish_moves (s : State) : (finish s).moves = s.moves := rfl
@[simp] theorem finish_readData (s : State) : (finish s).readData = s.readData := rfl
@[simp] theorem finish_draws (s : State) : (finish s).draws = s.draws := rfl

/-! ## emit -/

@[simp] theorem emit_acc (b : Byte) (s : State) : (emit b s).acc = s.acc := rfl
@[simp] theorem emit_bcnt (b : Byte) (s : State) : (emit b s).bcnt = s.bcnt := rfl
@[simp] theorem emit_sym (b : Byte) (s : State) : (emit b s).sym = s.sym := rfl
@[simp] theorem emit_mlen (b : Byte) (s : State) : (emit b s).mlen = s.mlen := rfl
@[simp] theorem emit_mdist (b : Byte) (s : State) : (emit b s).mdist = s.mdist := rfl
@[simp] theorem emit_mrem (b : Byte) (s : State) : (emit b s).mrem = s.mrem := rfl
@[simp] theorem emit_phase (b : Byte) (s : State) : (emit b s).phase = s.phase := rfl
@[simp] theorem emit_bend (b : Byte) (s : State) : (emit b s).bend = s.bend := rfl
@[simp] theorem emit_degen (b : Byte) (s : State) : (emit b s).degen = s.degen := rfl
@[simp] theorem emit_dsym (b : Byte) (s : State) : (emit b s).dsym = s.dsym := rfl
@[simp] theorem emit_nnz (b : Byte) (s : State) : (emit b s).nnz = s.nnz := rfl
@[simp] theorem emit_kraft (b : Byte) (s : State) : (emit b s).kraft = s.kraft := rfl
@[simp] theorem emit_len (b : Byte) (s : State) : (emit b s).len = s.len := rfl
@[simp] theorem emit_cnt (b : Byte) (s : State) : (emit b s).cnt = s.cnt := rfl
@[simp] theorem emit_first (b : Byte) (s : State) : (emit b s).first = s.first := rfl
@[simp] theorem emit_code (b : Byte) (s : State) : (emit b s).code = s.code := rfl
@[simp] theorem emit_status (b : Byte) (s : State) : (emit b s).status = s.status := rfl
@[simp] theorem emit_errcode (b : Byte) (s : State) : (emit b s).errcode = s.errcode := rfl
@[simp] theorem emit_errsub (b : Byte) (s : State) : (emit b s).errsub = s.errsub := rfl
@[simp] theorem emit_dsize (b : Byte) (s : State) : (emit b s).dsize = s.dsize := rfl
@[simp] theorem emit_inLen (b : Byte) (s : State) : (emit b s).inLen = s.inLen := rfl
@[simp] theorem emit_opos (b : Byte) (s : State) : (emit b s).opos = s.opos + 1 := rfl
@[simp] theorem emit_ipos (b : Byte) (s : State) : (emit b s).ipos = s.ipos := rfl
@[simp] theorem emit_input (b : Byte) (s : State) : (emit b s).input = s.input := rfl
@[simp] theorem emit_output (b : Byte) (s : State) : (emit b s).output = s.output.write s.opos.toNat b := rfl
@[simp] theorem emit_moves (b : Byte) (s : State) : (emit b s).moves = s.moves := rfl
@[simp] theorem emit_readData (b : Byte) (s : State) : (emit b s).readData = s.readData := rfl
@[simp] theorem emit_draws (b : Byte) (s : State) : (emit b s).draws = s.draws := rfl

/-! ## wordLoaded -/

@[simp] theorem wordLoaded_acc (c : Config) (w : Word16) (s : State) : (wordLoaded c w s).acc = placeWord c (orderBits c w) s.bcnt.toNat s.acc := rfl
@[simp] theorem wordLoaded_bcnt (c : Config) (w : Word16) (s : State) : (wordLoaded c w s).bcnt = s.bcnt + 16 := rfl
@[simp] theorem wordLoaded_sym (c : Config) (w : Word16) (s : State) : (wordLoaded c w s).sym = s.sym := rfl
@[simp] theorem wordLoaded_mlen (c : Config) (w : Word16) (s : State) : (wordLoaded c w s).mlen = s.mlen := rfl
@[simp] theorem wordLoaded_mdist (c : Config) (w : Word16) (s : State) : (wordLoaded c w s).mdist = s.mdist := rfl
@[simp] theorem wordLoaded_mrem (c : Config) (w : Word16) (s : State) : (wordLoaded c w s).mrem = s.mrem := rfl
@[simp] theorem wordLoaded_phase (c : Config) (w : Word16) (s : State) : (wordLoaded c w s).phase = s.phase := rfl
@[simp] theorem wordLoaded_bend (c : Config) (w : Word16) (s : State) : (wordLoaded c w s).bend = s.bend := rfl
@[simp] theorem wordLoaded_degen (c : Config) (w : Word16) (s : State) : (wordLoaded c w s).degen = s.degen := rfl
@[simp] theorem wordLoaded_dsym (c : Config) (w : Word16) (s : State) : (wordLoaded c w s).dsym = s.dsym := rfl
@[simp] theorem wordLoaded_nnz (c : Config) (w : Word16) (s : State) : (wordLoaded c w s).nnz = s.nnz := rfl
@[simp] theorem wordLoaded_kraft (c : Config) (w : Word16) (s : State) : (wordLoaded c w s).kraft = s.kraft := rfl
@[simp] theorem wordLoaded_len (c : Config) (w : Word16) (s : State) : (wordLoaded c w s).len = s.len := rfl
@[simp] theorem wordLoaded_cnt (c : Config) (w : Word16) (s : State) : (wordLoaded c w s).cnt = s.cnt := rfl
@[simp] theorem wordLoaded_first (c : Config) (w : Word16) (s : State) : (wordLoaded c w s).first = s.first := rfl
@[simp] theorem wordLoaded_code (c : Config) (w : Word16) (s : State) : (wordLoaded c w s).code = s.code := rfl
@[simp] theorem wordLoaded_status (c : Config) (w : Word16) (s : State) : (wordLoaded c w s).status = s.status := rfl
@[simp] theorem wordLoaded_errcode (c : Config) (w : Word16) (s : State) : (wordLoaded c w s).errcode = s.errcode := rfl
@[simp] theorem wordLoaded_errsub (c : Config) (w : Word16) (s : State) : (wordLoaded c w s).errsub = s.errsub := rfl
@[simp] theorem wordLoaded_dsize (c : Config) (w : Word16) (s : State) : (wordLoaded c w s).dsize = s.dsize := rfl
@[simp] theorem wordLoaded_inLen (c : Config) (w : Word16) (s : State) : (wordLoaded c w s).inLen = s.inLen := rfl
@[simp] theorem wordLoaded_opos (c : Config) (w : Word16) (s : State) : (wordLoaded c w s).opos = s.opos := rfl
@[simp] theorem wordLoaded_ipos (c : Config) (w : Word16) (s : State) : (wordLoaded c w s).ipos = s.ipos + 2 := rfl
@[simp] theorem wordLoaded_input (c : Config) (w : Word16) (s : State) : (wordLoaded c w s).input = s.input := rfl
@[simp] theorem wordLoaded_output (c : Config) (w : Word16) (s : State) : (wordLoaded c w s).output = s.output := rfl
@[simp] theorem wordLoaded_moves (c : Config) (w : Word16) (s : State) : (wordLoaded c w s).moves = s.moves := rfl
@[simp] theorem wordLoaded_readData (c : Config) (w : Word16) (s : State) : (wordLoaded c w s).readData = s.readData := rfl
@[simp] theorem wordLoaded_draws (c : Config) (w : Word16) (s : State) : (wordLoaded c w s).draws = s.draws := rfl

/-! ## clearAcc -/

@[simp] theorem clearAcc_acc (s : State) : (clearAcc s).acc = 0 := rfl
@[simp] theorem clearAcc_bcnt (s : State) : (clearAcc s).bcnt = 0 := rfl
@[simp] theorem clearAcc_sym (s : State) : (clearAcc s).sym = s.sym := rfl
@[simp] theorem clearAcc_mlen (s : State) : (clearAcc s).mlen = s.mlen := rfl
@[simp] theorem clearAcc_mdist (s : State) : (clearAcc s).mdist = s.mdist := rfl
@[simp] theorem clearAcc_mrem (s : State) : (clearAcc s).mrem = s.mrem := rfl
@[simp] theorem clearAcc_phase (s : State) : (clearAcc s).phase = s.phase := rfl
@[simp] theorem clearAcc_bend (s : State) : (clearAcc s).bend = s.bend := rfl
@[simp] theorem clearAcc_degen (s : State) : (clearAcc s).degen = s.degen := rfl
@[simp] theorem clearAcc_dsym (s : State) : (clearAcc s).dsym = s.dsym := rfl
@[simp] theorem clearAcc_nnz (s : State) : (clearAcc s).nnz = s.nnz := rfl
@[simp] theorem clearAcc_kraft (s : State) : (clearAcc s).kraft = s.kraft := rfl
@[simp] theorem clearAcc_len (s : State) : (clearAcc s).len = s.len := rfl
@[simp] theorem clearAcc_cnt (s : State) : (clearAcc s).cnt = s.cnt := rfl
@[simp] theorem clearAcc_first (s : State) : (clearAcc s).first = s.first := rfl
@[simp] theorem clearAcc_code (s : State) : (clearAcc s).code = s.code := rfl
@[simp] theorem clearAcc_status (s : State) : (clearAcc s).status = s.status := rfl
@[simp] theorem clearAcc_errcode (s : State) : (clearAcc s).errcode = s.errcode := rfl
@[simp] theorem clearAcc_errsub (s : State) : (clearAcc s).errsub = s.errsub := rfl
@[simp] theorem clearAcc_dsize (s : State) : (clearAcc s).dsize = s.dsize := rfl
@[simp] theorem clearAcc_inLen (s : State) : (clearAcc s).inLen = s.inLen := rfl
@[simp] theorem clearAcc_opos (s : State) : (clearAcc s).opos = s.opos := rfl
@[simp] theorem clearAcc_ipos (s : State) : (clearAcc s).ipos = s.ipos := rfl
@[simp] theorem clearAcc_input (s : State) : (clearAcc s).input = s.input := rfl
@[simp] theorem clearAcc_output (s : State) : (clearAcc s).output = s.output := rfl
@[simp] theorem clearAcc_moves (s : State) : (clearAcc s).moves = s.moves := rfl
@[simp] theorem clearAcc_readData (s : State) : (clearAcc s).readData = s.readData := rfl
@[simp] theorem clearAcc_draws (s : State) : (clearAcc s).draws = s.draws := rfl

/-! ## setLengths -/

@[simp] theorem setLengths_acc (len : Vector Nibble 512) (s : State) : (setLengths len s).acc = s.acc := by simp only [setLengths]
@[simp] theorem setLengths_bcnt (len : Vector Nibble 512) (s : State) : (setLengths len s).bcnt = s.bcnt := by simp only [setLengths]
@[simp] theorem setLengths_sym (len : Vector Nibble 512) (s : State) : (setLengths len s).sym = s.sym := by simp only [setLengths]
@[simp] theorem setLengths_mlen (len : Vector Nibble 512) (s : State) : (setLengths len s).mlen = s.mlen := by simp only [setLengths]
@[simp] theorem setLengths_mdist (len : Vector Nibble 512) (s : State) : (setLengths len s).mdist = s.mdist := by simp only [setLengths]
@[simp] theorem setLengths_mrem (len : Vector Nibble 512) (s : State) : (setLengths len s).mrem = s.mrem := by simp only [setLengths]
@[simp] theorem setLengths_phase (len : Vector Nibble 512) (s : State) : (setLengths len s).phase = s.phase := by simp only [setLengths]
@[simp] theorem setLengths_bend (len : Vector Nibble 512) (s : State) : (setLengths len s).bend = s.bend := by simp only [setLengths]
@[simp] theorem setLengths_degen (len : Vector Nibble 512) (s : State) : (setLengths len s).degen = s.degen := by simp only [setLengths]
@[simp] theorem setLengths_dsym (len : Vector Nibble 512) (s : State) : (setLengths len s).dsym = s.dsym := by simp only [setLengths]
@[simp] theorem setLengths_nnz (len : Vector Nibble 512) (s : State) : (setLengths len s).nnz = s.nnz := by simp only [setLengths]
@[simp] theorem setLengths_kraft (len : Vector Nibble 512) (s : State) : (setLengths len s).kraft = s.kraft := by simp only [setLengths]
@[simp] theorem setLengths_len (len : Vector Nibble 512) (s : State) : (setLengths len s).len = len := by simp only [setLengths]
@[simp] theorem setLengths_cnt (len : Vector Nibble 512) (s : State) : (setLengths len s).cnt = s.cnt := by simp only [setLengths]
@[simp] theorem setLengths_first (len : Vector Nibble 512) (s : State) : (setLengths len s).first = s.first := by simp only [setLengths]
@[simp] theorem setLengths_code (len : Vector Nibble 512) (s : State) : (setLengths len s).code = s.code := by simp only [setLengths]
@[simp] theorem setLengths_status (len : Vector Nibble 512) (s : State) : (setLengths len s).status = s.status := by simp only [setLengths]
@[simp] theorem setLengths_errcode (len : Vector Nibble 512) (s : State) : (setLengths len s).errcode = s.errcode := by simp only [setLengths]
@[simp] theorem setLengths_errsub (len : Vector Nibble 512) (s : State) : (setLengths len s).errsub = s.errsub := by simp only [setLengths]
@[simp] theorem setLengths_dsize (len : Vector Nibble 512) (s : State) : (setLengths len s).dsize = s.dsize := by simp only [setLengths]
@[simp] theorem setLengths_inLen (len : Vector Nibble 512) (s : State) : (setLengths len s).inLen = s.inLen := by simp only [setLengths]
@[simp] theorem setLengths_opos (len : Vector Nibble 512) (s : State) : (setLengths len s).opos = s.opos := by simp only [setLengths]
@[simp] theorem setLengths_ipos (len : Vector Nibble 512) (s : State) : (setLengths len s).ipos = s.ipos := by simp only [setLengths]
@[simp] theorem setLengths_input (len : Vector Nibble 512) (s : State) : (setLengths len s).input = s.input := by simp only [setLengths]
@[simp] theorem setLengths_output (len : Vector Nibble 512) (s : State) : (setLengths len s).output = s.output := by simp only [setLengths]
@[simp] theorem setLengths_moves (len : Vector Nibble 512) (s : State) : (setLengths len s).moves = s.moves := by simp only [setLengths]
@[simp] theorem setLengths_readData (len : Vector Nibble 512) (s : State) : (setLengths len s).readData = s.readData := by simp only [setLengths]
@[simp] theorem setLengths_draws (len : Vector Nibble 512) (s : State) : (setLengths len s).draws = s.draws := by simp only [setLengths]

/-! ## setDegenerate -/

@[simp] theorem setDegenerate_acc (s : State) : (setDegenerate s).acc = s.acc := by simp only [setDegenerate]
@[simp] theorem setDegenerate_bcnt (s : State) : (setDegenerate s).bcnt = s.bcnt := by simp only [setDegenerate]
@[simp] theorem setDegenerate_sym (s : State) : (setDegenerate s).sym = s.sym := by simp only [setDegenerate]
@[simp] theorem setDegenerate_mlen (s : State) : (setDegenerate s).mlen = s.mlen := by simp only [setDegenerate]
@[simp] theorem setDegenerate_mdist (s : State) : (setDegenerate s).mdist = s.mdist := by simp only [setDegenerate]
@[simp] theorem setDegenerate_mrem (s : State) : (setDegenerate s).mrem = s.mrem := by simp only [setDegenerate]
@[simp] theorem setDegenerate_phase (s : State) : (setDegenerate s).phase = s.phase := by simp only [setDegenerate]
@[simp] theorem setDegenerate_bend (s : State) : (setDegenerate s).bend = s.bend := by simp only [setDegenerate]
@[simp] theorem setDegenerate_degen (s : State) : (setDegenerate s).degen = true := by simp only [setDegenerate]
@[simp] theorem setDegenerate_dsym (s : State) : (setDegenerate s).dsym = firstNonzero s.len := by simp only [setDegenerate]
@[simp] theorem setDegenerate_nnz (s : State) : (setDegenerate s).nnz = s.nnz := by simp only [setDegenerate]
@[simp] theorem setDegenerate_kraft (s : State) : (setDegenerate s).kraft = s.kraft := by simp only [setDegenerate]
@[simp] theorem setDegenerate_len (s : State) : (setDegenerate s).len = s.len := by simp only [setDegenerate]
@[simp] theorem setDegenerate_cnt (s : State) : (setDegenerate s).cnt = s.cnt := by simp only [setDegenerate]
@[simp] theorem setDegenerate_first (s : State) : (setDegenerate s).first = s.first := by simp only [setDegenerate]
@[simp] theorem setDegenerate_code (s : State) : (setDegenerate s).code = s.code := by simp only [setDegenerate]
@[simp] theorem setDegenerate_status (s : State) : (setDegenerate s).status = s.status := by simp only [setDegenerate]
@[simp] theorem setDegenerate_errcode (s : State) : (setDegenerate s).errcode = s.errcode := by simp only [setDegenerate]
@[simp] theorem setDegenerate_errsub (s : State) : (setDegenerate s).errsub = s.errsub := by simp only [setDegenerate]
@[simp] theorem setDegenerate_dsize (s : State) : (setDegenerate s).dsize = s.dsize := by simp only [setDegenerate]
@[simp] theorem setDegenerate_inLen (s : State) : (setDegenerate s).inLen = s.inLen := by simp only [setDegenerate]
@[simp] theorem setDegenerate_opos (s : State) : (setDegenerate s).opos = s.opos := by simp only [setDegenerate]
@[simp] theorem setDegenerate_ipos (s : State) : (setDegenerate s).ipos = s.ipos := by simp only [setDegenerate]
@[simp] theorem setDegenerate_input (s : State) : (setDegenerate s).input = s.input := by simp only [setDegenerate]
@[simp] theorem setDegenerate_output (s : State) : (setDegenerate s).output = s.output := by simp only [setDegenerate]
@[simp] theorem setDegenerate_moves (s : State) : (setDegenerate s).moves = s.moves := by simp only [setDegenerate]
@[simp] theorem setDegenerate_readData (s : State) : (setDegenerate s).readData = s.readData := by simp only [setDegenerate]
@[simp] theorem setDegenerate_draws (s : State) : (setDegenerate s).draws = s.draws := by simp only [setDegenerate]

/-! ## setCodes -/

@[simp] theorem setCodes_acc (s : State) : (setCodes s).acc = s.acc := by simp only [setCodes]
@[simp] theorem setCodes_bcnt (s : State) : (setCodes s).bcnt = s.bcnt := by simp only [setCodes]
@[simp] theorem setCodes_sym (s : State) : (setCodes s).sym = s.sym := by simp only [setCodes]
@[simp] theorem setCodes_mlen (s : State) : (setCodes s).mlen = s.mlen := by simp only [setCodes]
@[simp] theorem setCodes_mdist (s : State) : (setCodes s).mdist = s.mdist := by simp only [setCodes]
@[simp] theorem setCodes_mrem (s : State) : (setCodes s).mrem = s.mrem := by simp only [setCodes]
@[simp] theorem setCodes_phase (s : State) : (setCodes s).phase = s.phase := by simp only [setCodes]
@[simp] theorem setCodes_bend (s : State) : (setCodes s).bend = s.bend := by simp only [setCodes]
@[simp] theorem setCodes_degen (s : State) : (setCodes s).degen = false := by simp only [setCodes]
@[simp] theorem setCodes_dsym (s : State) : (setCodes s).dsym = s.dsym := by simp only [setCodes]
@[simp] theorem setCodes_nnz (s : State) : (setCodes s).nnz = s.nnz := by simp only [setCodes]
@[simp] theorem setCodes_kraft (s : State) : (setCodes s).kraft = s.kraft := by simp only [setCodes]
@[simp] theorem setCodes_len (s : State) : (setCodes s).len = s.len := by simp only [setCodes]
@[simp] theorem setCodes_cnt (s : State) : (setCodes s).cnt = s.cnt := by simp only [setCodes]
@[simp] theorem setCodes_first (s : State) : (setCodes s).first = firstTable s.cnt := by simp only [setCodes]
@[simp] theorem setCodes_code (s : State) : (setCodes s).code = assignCodes s.len (firstTable s.cnt) s.code := by simp only [setCodes]
@[simp] theorem setCodes_status (s : State) : (setCodes s).status = s.status := by simp only [setCodes]
@[simp] theorem setCodes_errcode (s : State) : (setCodes s).errcode = s.errcode := by simp only [setCodes]
@[simp] theorem setCodes_errsub (s : State) : (setCodes s).errsub = s.errsub := by simp only [setCodes]
@[simp] theorem setCodes_dsize (s : State) : (setCodes s).dsize = s.dsize := by simp only [setCodes]
@[simp] theorem setCodes_inLen (s : State) : (setCodes s).inLen = s.inLen := by simp only [setCodes]
@[simp] theorem setCodes_opos (s : State) : (setCodes s).opos = s.opos := by simp only [setCodes]
@[simp] theorem setCodes_ipos (s : State) : (setCodes s).ipos = s.ipos := by simp only [setCodes]
@[simp] theorem setCodes_input (s : State) : (setCodes s).input = s.input := by simp only [setCodes]
@[simp] theorem setCodes_output (s : State) : (setCodes s).output = s.output := by simp only [setCodes]
@[simp] theorem setCodes_moves (s : State) : (setCodes s).moves = s.moves := by simp only [setCodes]
@[simp] theorem setCodes_readData (s : State) : (setCodes s).readData = s.readData := by simp only [setCodes]
@[simp] theorem setCodes_draws (s : State) : (setCodes s).draws = s.draws := by simp only [setCodes]

/-! ## setSym -/

@[simp] theorem setSym_acc (sym : Sym) (s : State) : (setSym sym s).acc = s.acc := rfl
@[simp] theorem setSym_bcnt (sym : Sym) (s : State) : (setSym sym s).bcnt = s.bcnt := rfl
@[simp] theorem setSym_sym (sym : Sym) (s : State) : (setSym sym s).sym = sym := rfl
@[simp] theorem setSym_mlen (sym : Sym) (s : State) : (setSym sym s).mlen = s.mlen := rfl
@[simp] theorem setSym_mdist (sym : Sym) (s : State) : (setSym sym s).mdist = s.mdist := rfl
@[simp] theorem setSym_mrem (sym : Sym) (s : State) : (setSym sym s).mrem = s.mrem := rfl
@[simp] theorem setSym_phase (sym : Sym) (s : State) : (setSym sym s).phase = s.phase := rfl
@[simp] theorem setSym_bend (sym : Sym) (s : State) : (setSym sym s).bend = s.bend := rfl
@[simp] theorem setSym_degen (sym : Sym) (s : State) : (setSym sym s).degen = s.degen := rfl
@[simp] theorem setSym_dsym (sym : Sym) (s : State) : (setSym sym s).dsym = s.dsym := rfl
@[simp] theorem setSym_nnz (sym : Sym) (s : State) : (setSym sym s).nnz = s.nnz := rfl
@[simp] theorem setSym_kraft (sym : Sym) (s : State) : (setSym sym s).kraft = s.kraft := rfl
@[simp] theorem setSym_len (sym : Sym) (s : State) : (setSym sym s).len = s.len := rfl
@[simp] theorem setSym_cnt (sym : Sym) (s : State) : (setSym sym s).cnt = s.cnt := rfl
@[simp] theorem setSym_first (sym : Sym) (s : State) : (setSym sym s).first = s.first := rfl
@[simp] theorem setSym_code (sym : Sym) (s : State) : (setSym sym s).code = s.code := rfl
@[simp] theorem setSym_status (sym : Sym) (s : State) : (setSym sym s).status = s.status := rfl
@[simp] theorem setSym_errcode (sym : Sym) (s : State) : (setSym sym s).errcode = s.errcode := rfl
@[simp] theorem setSym_errsub (sym : Sym) (s : State) : (setSym sym s).errsub = s.errsub := rfl
@[simp] theorem setSym_dsize (sym : Sym) (s : State) : (setSym sym s).dsize = s.dsize := rfl
@[simp] theorem setSym_inLen (sym : Sym) (s : State) : (setSym sym s).inLen = s.inLen := rfl
@[simp] theorem setSym_opos (sym : Sym) (s : State) : (setSym sym s).opos = s.opos := rfl
@[simp] theorem setSym_ipos (sym : Sym) (s : State) : (setSym sym s).ipos = s.ipos := rfl
@[simp] theorem setSym_input (sym : Sym) (s : State) : (setSym sym s).input = s.input := rfl
@[simp] theorem setSym_output (sym : Sym) (s : State) : (setSym sym s).output = s.output := rfl
@[simp] theorem setSym_moves (sym : Sym) (s : State) : (setSym sym s).moves = s.moves := rfl
@[simp] theorem setSym_readData (sym : Sym) (s : State) : (setSym sym s).readData = s.readData := rfl
@[simp] theorem setSym_draws (sym : Sym) (s : State) : (setSym sym s).draws = s.draws := rfl

/-! ## countDown -/

@[simp] theorem countDown_acc (s : State) : (countDown s).acc = s.acc := rfl
@[simp] theorem countDown_bcnt (s : State) : (countDown s).bcnt = s.bcnt := rfl
@[simp] theorem countDown_sym (s : State) : (countDown s).sym = s.sym := rfl
@[simp] theorem countDown_mlen (s : State) : (countDown s).mlen = s.mlen := rfl
@[simp] theorem countDown_mdist (s : State) : (countDown s).mdist = s.mdist := rfl
@[simp] theorem countDown_mrem (s : State) : (countDown s).mrem = s.mrem - 1 := rfl
@[simp] theorem countDown_phase (s : State) : (countDown s).phase = s.phase := rfl
@[simp] theorem countDown_bend (s : State) : (countDown s).bend = s.bend := rfl
@[simp] theorem countDown_degen (s : State) : (countDown s).degen = s.degen := rfl
@[simp] theorem countDown_dsym (s : State) : (countDown s).dsym = s.dsym := rfl
@[simp] theorem countDown_nnz (s : State) : (countDown s).nnz = s.nnz := rfl
@[simp] theorem countDown_kraft (s : State) : (countDown s).kraft = s.kraft := rfl
@[simp] theorem countDown_len (s : State) : (countDown s).len = s.len := rfl
@[simp] theorem countDown_cnt (s : State) : (countDown s).cnt = s.cnt := rfl
@[simp] theorem countDown_first (s : State) : (countDown s).first = s.first := rfl
@[simp] theorem countDown_code (s : State) : (countDown s).code = s.code := rfl
@[simp] theorem countDown_status (s : State) : (countDown s).status = s.status := rfl
@[simp] theorem countDown_errcode (s : State) : (countDown s).errcode = s.errcode := rfl
@[simp] theorem countDown_errsub (s : State) : (countDown s).errsub = s.errsub := rfl
@[simp] theorem countDown_dsize (s : State) : (countDown s).dsize = s.dsize := rfl
@[simp] theorem countDown_inLen (s : State) : (countDown s).inLen = s.inLen := rfl
@[simp] theorem countDown_opos (s : State) : (countDown s).opos = s.opos := rfl
@[simp] theorem countDown_ipos (s : State) : (countDown s).ipos = s.ipos := rfl
@[simp] theorem countDown_input (s : State) : (countDown s).input = s.input := rfl
@[simp] theorem countDown_output (s : State) : (countDown s).output = s.output := rfl
@[simp] theorem countDown_moves (s : State) : (countDown s).moves = s.moves := rfl
@[simp] theorem countDown_readData (s : State) : (countDown s).readData = s.readData := rfl
@[simp] theorem countDown_draws (s : State) : (countDown s).draws = s.draws := rfl

/-! ## setRemaining -/

@[simp] theorem setRemaining_acc (n : Nat) (s : State) : (setRemaining n s).acc = s.acc := rfl
@[simp] theorem setRemaining_bcnt (n : Nat) (s : State) : (setRemaining n s).bcnt = s.bcnt := rfl
@[simp] theorem setRemaining_sym (n : Nat) (s : State) : (setRemaining n s).sym = s.sym := rfl
@[simp] theorem setRemaining_mlen (n : Nat) (s : State) : (setRemaining n s).mlen = s.mlen := rfl
@[simp] theorem setRemaining_mdist (n : Nat) (s : State) : (setRemaining n s).mdist = s.mdist := rfl
@[simp] theorem setRemaining_mrem (n : Nat) (s : State) : (setRemaining n s).mrem = BitVec.ofNat 17 n := rfl
@[simp] theorem setRemaining_phase (n : Nat) (s : State) : (setRemaining n s).phase = s.phase := rfl
@[simp] theorem setRemaining_bend (n : Nat) (s : State) : (setRemaining n s).bend = s.bend := rfl
@[simp] theorem setRemaining_degen (n : Nat) (s : State) : (setRemaining n s).degen = s.degen := rfl
@[simp] theorem setRemaining_dsym (n : Nat) (s : State) : (setRemaining n s).dsym = s.dsym := rfl
@[simp] theorem setRemaining_nnz (n : Nat) (s : State) : (setRemaining n s).nnz = s.nnz := rfl
@[simp] theorem setRemaining_kraft (n : Nat) (s : State) : (setRemaining n s).kraft = s.kraft := rfl
@[simp] theorem setRemaining_len (n : Nat) (s : State) : (setRemaining n s).len = s.len := rfl
@[simp] theorem setRemaining_cnt (n : Nat) (s : State) : (setRemaining n s).cnt = s.cnt := rfl
@[simp] theorem setRemaining_first (n : Nat) (s : State) : (setRemaining n s).first = s.first := rfl
@[simp] theorem setRemaining_code (n : Nat) (s : State) : (setRemaining n s).code = s.code := rfl
@[simp] theorem setRemaining_status (n : Nat) (s : State) : (setRemaining n s).status = s.status := rfl
@[simp] theorem setRemaining_errcode (n : Nat) (s : State) : (setRemaining n s).errcode = s.errcode := rfl
@[simp] theorem setRemaining_errsub (n : Nat) (s : State) : (setRemaining n s).errsub = s.errsub := rfl
@[simp] theorem setRemaining_dsize (n : Nat) (s : State) : (setRemaining n s).dsize = s.dsize := rfl
@[simp] theorem setRemaining_inLen (n : Nat) (s : State) : (setRemaining n s).inLen = s.inLen := rfl
@[simp] theorem setRemaining_opos (n : Nat) (s : State) : (setRemaining n s).opos = s.opos := rfl
@[simp] theorem setRemaining_ipos (n : Nat) (s : State) : (setRemaining n s).ipos = s.ipos := rfl
@[simp] theorem setRemaining_input (n : Nat) (s : State) : (setRemaining n s).input = s.input := rfl
@[simp] theorem setRemaining_output (n : Nat) (s : State) : (setRemaining n s).output = s.output := rfl
@[simp] theorem setRemaining_moves (n : Nat) (s : State) : (setRemaining n s).moves = s.moves := rfl
@[simp] theorem setRemaining_readData (n : Nat) (s : State) : (setRemaining n s).readData = s.readData := rfl
@[simp] theorem setRemaining_draws (n : Nat) (s : State) : (setRemaining n s).draws = s.draws := rfl

/-! ## setDistance -/

@[simp] theorem setDistance_acc (n : Nat) (s : State) : (setDistance n s).acc = s.acc := rfl
@[simp] theorem setDistance_bcnt (n : Nat) (s : State) : (setDistance n s).bcnt = s.bcnt := rfl
@[simp] theorem setDistance_sym (n : Nat) (s : State) : (setDistance n s).sym = s.sym := rfl
@[simp] theorem setDistance_mlen (n : Nat) (s : State) : (setDistance n s).mlen = s.mlen := rfl
@[simp] theorem setDistance_mdist (n : Nat) (s : State) : (setDistance n s).mdist = BitVec.ofNat 16 n := rfl
@[simp] theorem setDistance_mrem (n : Nat) (s : State) : (setDistance n s).mrem = s.mrem := rfl
@[simp] theorem setDistance_phase (n : Nat) (s : State) : (setDistance n s).phase = s.phase := rfl
@[simp] theorem setDistance_bend (n : Nat) (s : State) : (setDistance n s).bend = s.bend := rfl
@[simp] theorem setDistance_degen (n : Nat) (s : State) : (setDistance n s).degen = s.degen := rfl
@[simp] theorem setDistance_dsym (n : Nat) (s : State) : (setDistance n s).dsym = s.dsym := rfl
@[simp] theorem setDistance_nnz (n : Nat) (s : State) : (setDistance n s).nnz = s.nnz := rfl
@[simp] theorem setDistance_kraft (n : Nat) (s : State) : (setDistance n s).kraft = s.kraft := rfl
@[simp] theorem setDistance_len (n : Nat) (s : State) : (setDistance n s).len = s.len := rfl
@[simp] theorem setDistance_cnt (n : Nat) (s : State) : (setDistance n s).cnt = s.cnt := rfl
@[simp] theorem setDistance_first (n : Nat) (s : State) : (setDistance n s).first = s.first := rfl
@[simp] theorem setDistance_code (n : Nat) (s : State) : (setDistance n s).code = s.code := rfl
@[simp] theorem setDistance_status (n : Nat) (s : State) : (setDistance n s).status = s.status := rfl
@[simp] theorem setDistance_errcode (n : Nat) (s : State) : (setDistance n s).errcode = s.errcode := rfl
@[simp] theorem setDistance_errsub (n : Nat) (s : State) : (setDistance n s).errsub = s.errsub := rfl
@[simp] theorem setDistance_dsize (n : Nat) (s : State) : (setDistance n s).dsize = s.dsize := rfl
@[simp] theorem setDistance_inLen (n : Nat) (s : State) : (setDistance n s).inLen = s.inLen := rfl
@[simp] theorem setDistance_opos (n : Nat) (s : State) : (setDistance n s).opos = s.opos := rfl
@[simp] theorem setDistance_ipos (n : Nat) (s : State) : (setDistance n s).ipos = s.ipos := rfl
@[simp] theorem setDistance_input (n : Nat) (s : State) : (setDistance n s).input = s.input := rfl
@[simp] theorem setDistance_output (n : Nat) (s : State) : (setDistance n s).output = s.output := rfl
@[simp] theorem setDistance_moves (n : Nat) (s : State) : (setDistance n s).moves = s.moves := rfl
@[simp] theorem setDistance_readData (n : Nat) (s : State) : (setDistance n s).readData = s.readData := rfl
@[simp] theorem setDistance_draws (n : Nat) (s : State) : (setDistance n s).draws = s.draws := rfl

/-! ## switchBlock -/

@[simp] theorem switchBlock_acc (s : State) : (switchBlock s).acc = s.acc := rfl
@[simp] theorem switchBlock_bcnt (s : State) : (switchBlock s).bcnt = s.bcnt := rfl
@[simp] theorem switchBlock_sym (s : State) : (switchBlock s).sym = s.sym := rfl
@[simp] theorem switchBlock_mlen (s : State) : (switchBlock s).mlen = s.mlen := rfl
@[simp] theorem switchBlock_mdist (s : State) : (switchBlock s).mdist = s.mdist := rfl
@[simp] theorem switchBlock_mrem (s : State) : (switchBlock s).mrem = s.mrem := rfl
@[simp] theorem switchBlock_phase (s : State) : (switchBlock s).phase = .init := rfl
@[simp] theorem switchBlock_bend (s : State) : (switchBlock s).bend = s.bend := rfl
@[simp] theorem switchBlock_degen (s : State) : (switchBlock s).degen = s.degen := rfl
@[simp] theorem switchBlock_dsym (s : State) : (switchBlock s).dsym = s.dsym := rfl
@[simp] theorem switchBlock_nnz (s : State) : (switchBlock s).nnz = s.nnz := rfl
@[simp] theorem switchBlock_kraft (s : State) : (switchBlock s).kraft = s.kraft := rfl
@[simp] theorem switchBlock_len (s : State) : (switchBlock s).len = s.len := rfl
@[simp] theorem switchBlock_cnt (s : State) : (switchBlock s).cnt = s.cnt := rfl
@[simp] theorem switchBlock_first (s : State) : (switchBlock s).first = s.first := rfl
@[simp] theorem switchBlock_code (s : State) : (switchBlock s).code = s.code := rfl
@[simp] theorem switchBlock_status (s : State) : (switchBlock s).status = s.status := rfl
@[simp] theorem switchBlock_errcode (s : State) : (switchBlock s).errcode = s.errcode := rfl
@[simp] theorem switchBlock_errsub (s : State) : (switchBlock s).errsub = s.errsub := rfl
@[simp] theorem switchBlock_dsize (s : State) : (switchBlock s).dsize = s.dsize := rfl
@[simp] theorem switchBlock_inLen (s : State) : (switchBlock s).inLen = s.inLen := rfl
@[simp] theorem switchBlock_opos (s : State) : (switchBlock s).opos = s.opos := rfl
@[simp] theorem switchBlock_ipos (s : State) : (switchBlock s).ipos = s.ipos := rfl
@[simp] theorem switchBlock_input (s : State) : (switchBlock s).input = s.input := rfl
@[simp] theorem switchBlock_output (s : State) : (switchBlock s).output = s.output := rfl
@[simp] theorem switchBlock_moves (s : State) : (switchBlock s).moves = s.moves := rfl
@[simp] theorem switchBlock_readData (s : State) : (switchBlock s).readData = s.readData := rfl
@[simp] theorem switchBlock_draws (s : State) : (switchBlock s).draws = s.draws := rfl

/-! ## count -/

@[simp] theorem count_acc (s : State) : (count s).acc = s.acc := by simp only [count]
@[simp] theorem count_bcnt (s : State) : (count s).bcnt = s.bcnt := by simp only [count]
@[simp] theorem count_sym (s : State) : (count s).sym = s.sym := by simp only [count]
@[simp] theorem count_mlen (s : State) : (count s).mlen = s.mlen := by simp only [count]
@[simp] theorem count_mdist (s : State) : (count s).mdist = s.mdist := by simp only [count]
@[simp] theorem count_mrem (s : State) : (count s).mrem = s.mrem := by simp only [count]
@[simp] theorem count_phase (s : State) : (count s).phase = s.phase := by simp only [count]
@[simp] theorem count_bend (s : State) : (count s).bend = s.bend := by simp only [count]
@[simp] theorem count_degen (s : State) : (count s).degen = s.degen := by simp only [count]
@[simp] theorem count_dsym (s : State) : (count s).dsym = s.dsym := by simp only [count]
@[simp] theorem count_nnz (s : State) : (count s).nnz = nonzeroCount (countTable s.len) := by simp only [count]
@[simp] theorem count_kraft (s : State) : (count s).kraft = kraftSum (countTable s.len) := by simp only [count]
@[simp] theorem count_len (s : State) : (count s).len = s.len := by simp only [count]
@[simp] theorem count_cnt (s : State) : (count s).cnt = countTable s.len := by simp only [count]
@[simp] theorem count_first (s : State) : (count s).first = s.first := by simp only [count]
@[simp] theorem count_code (s : State) : (count s).code = s.code := by simp only [count]
@[simp] theorem count_status (s : State) : (count s).status = s.status := by simp only [count]
@[simp] theorem count_errcode (s : State) : (count s).errcode = s.errcode := by simp only [count]
@[simp] theorem count_errsub (s : State) : (count s).errsub = s.errsub := by simp only [count]
@[simp] theorem count_dsize (s : State) : (count s).dsize = s.dsize := by simp only [count]
@[simp] theorem count_inLen (s : State) : (count s).inLen = s.inLen := by simp only [count]
@[simp] theorem count_opos (s : State) : (count s).opos = s.opos := by simp only [count]
@[simp] theorem count_ipos (s : State) : (count s).ipos = s.ipos := by simp only [count]
@[simp] theorem count_input (s : State) : (count s).input = s.input := by simp only [count]
@[simp] theorem count_output (s : State) : (count s).output = s.output := by simp only [count]
@[simp] theorem count_moves (s : State) : (count s).moves = s.moves := by simp only [count]
@[simp] theorem count_readData (s : State) : (count s).readData = s.readData := by simp only [count]
@[simp] theorem count_draws (s : State) : (count s).draws = s.draws := by simp only [count]

/-! ## readerMoved -/

@[simp] theorem readerMoved_acc (acc : Nat) (bcnt : BitVec 6) (ipos : Word32) (s : State) : (readerMoved acc bcnt ipos s).acc = acc := rfl
@[simp] theorem readerMoved_bcnt (acc : Nat) (bcnt : BitVec 6) (ipos : Word32) (s : State) : (readerMoved acc bcnt ipos s).bcnt = bcnt := rfl
@[simp] theorem readerMoved_sym (acc : Nat) (bcnt : BitVec 6) (ipos : Word32) (s : State) : (readerMoved acc bcnt ipos s).sym = s.sym := rfl
@[simp] theorem readerMoved_mlen (acc : Nat) (bcnt : BitVec 6) (ipos : Word32) (s : State) : (readerMoved acc bcnt ipos s).mlen = s.mlen := rfl
@[simp] theorem readerMoved_mdist (acc : Nat) (bcnt : BitVec 6) (ipos : Word32) (s : State) : (readerMoved acc bcnt ipos s).mdist = s.mdist := rfl
@[simp] theorem readerMoved_mrem (acc : Nat) (bcnt : BitVec 6) (ipos : Word32) (s : State) : (readerMoved acc bcnt ipos s).mrem = s.mrem := rfl
@[simp] theorem readerMoved_phase (acc : Nat) (bcnt : BitVec 6) (ipos : Word32) (s : State) : (readerMoved acc bcnt ipos s).phase = s.phase := rfl
@[simp] theorem readerMoved_bend (acc : Nat) (bcnt : BitVec 6) (ipos : Word32) (s : State) : (readerMoved acc bcnt ipos s).bend = s.bend := rfl
@[simp] theorem readerMoved_degen (acc : Nat) (bcnt : BitVec 6) (ipos : Word32) (s : State) : (readerMoved acc bcnt ipos s).degen = s.degen := rfl
@[simp] theorem readerMoved_dsym (acc : Nat) (bcnt : BitVec 6) (ipos : Word32) (s : State) : (readerMoved acc bcnt ipos s).dsym = s.dsym := rfl
@[simp] theorem readerMoved_nnz (acc : Nat) (bcnt : BitVec 6) (ipos : Word32) (s : State) : (readerMoved acc bcnt ipos s).nnz = s.nnz := rfl
@[simp] theorem readerMoved_kraft (acc : Nat) (bcnt : BitVec 6) (ipos : Word32) (s : State) : (readerMoved acc bcnt ipos s).kraft = s.kraft := rfl
@[simp] theorem readerMoved_len (acc : Nat) (bcnt : BitVec 6) (ipos : Word32) (s : State) : (readerMoved acc bcnt ipos s).len = s.len := rfl
@[simp] theorem readerMoved_cnt (acc : Nat) (bcnt : BitVec 6) (ipos : Word32) (s : State) : (readerMoved acc bcnt ipos s).cnt = s.cnt := rfl
@[simp] theorem readerMoved_first (acc : Nat) (bcnt : BitVec 6) (ipos : Word32) (s : State) : (readerMoved acc bcnt ipos s).first = s.first := rfl
@[simp] theorem readerMoved_code (acc : Nat) (bcnt : BitVec 6) (ipos : Word32) (s : State) : (readerMoved acc bcnt ipos s).code = s.code := rfl
@[simp] theorem readerMoved_status (acc : Nat) (bcnt : BitVec 6) (ipos : Word32) (s : State) : (readerMoved acc bcnt ipos s).status = s.status := rfl
@[simp] theorem readerMoved_errcode (acc : Nat) (bcnt : BitVec 6) (ipos : Word32) (s : State) : (readerMoved acc bcnt ipos s).errcode = s.errcode := rfl
@[simp] theorem readerMoved_errsub (acc : Nat) (bcnt : BitVec 6) (ipos : Word32) (s : State) : (readerMoved acc bcnt ipos s).errsub = s.errsub := rfl
@[simp] theorem readerMoved_dsize (acc : Nat) (bcnt : BitVec 6) (ipos : Word32) (s : State) : (readerMoved acc bcnt ipos s).dsize = s.dsize := rfl
@[simp] theorem readerMoved_inLen (acc : Nat) (bcnt : BitVec 6) (ipos : Word32) (s : State) : (readerMoved acc bcnt ipos s).inLen = s.inLen := rfl
@[simp] theorem readerMoved_opos (acc : Nat) (bcnt : BitVec 6) (ipos : Word32) (s : State) : (readerMoved acc bcnt ipos s).opos = s.opos := rfl
@[simp] theorem readerMoved_ipos (acc : Nat) (bcnt : BitVec 6) (ipos : Word32) (s : State) : (readerMoved acc bcnt ipos s).ipos = ipos := rfl
@[simp] theorem readerMoved_input (acc : Nat) (bcnt : BitVec 6) (ipos : Word32) (s : State) : (readerMoved acc bcnt ipos s).input = s.input := rfl
@[simp] theorem readerMoved_output (acc : Nat) (bcnt : BitVec 6) (ipos : Word32) (s : State) : (readerMoved acc bcnt ipos s).output = s.output := rfl
@[simp] theorem readerMoved_moves (acc : Nat) (bcnt : BitVec 6) (ipos : Word32) (s : State) : (readerMoved acc bcnt ipos s).moves = s.moves := rfl
@[simp] theorem readerMoved_readData (acc : Nat) (bcnt : BitVec 6) (ipos : Word32) (s : State) : (readerMoved acc bcnt ipos s).readData = s.readData := rfl
@[simp] theorem readerMoved_draws (acc : Nat) (bcnt : BitVec 6) (ipos : Word32) (s : State) : (readerMoved acc bcnt ipos s).draws = s.draws := rfl

/-! ## copied -/

@[simp] theorem copied_acc (out : Mem) (n : Nat) (s : State) : (copied out n s).acc = s.acc := rfl
@[simp] theorem copied_bcnt (out : Mem) (n : Nat) (s : State) : (copied out n s).bcnt = s.bcnt := rfl
@[simp] theorem copied_sym (out : Mem) (n : Nat) (s : State) : (copied out n s).sym = s.sym := rfl
@[simp] theorem copied_mlen (out : Mem) (n : Nat) (s : State) : (copied out n s).mlen = s.mlen := rfl
@[simp] theorem copied_mdist (out : Mem) (n : Nat) (s : State) : (copied out n s).mdist = s.mdist := rfl
@[simp] theorem copied_mrem (out : Mem) (n : Nat) (s : State) : (copied out n s).mrem = s.mrem - BitVec.ofNat 17 n := rfl
@[simp] theorem copied_phase (out : Mem) (n : Nat) (s : State) : (copied out n s).phase = s.phase := rfl
@[simp] theorem copied_bend (out : Mem) (n : Nat) (s : State) : (copied out n s).bend = s.bend := rfl
@[simp] theorem copied_degen (out : Mem) (n : Nat) (s : State) : (copied out n s).degen = s.degen := rfl
@[simp] theorem copied_dsym (out : Mem) (n : Nat) (s : State) : (copied out n s).dsym = s.dsym := rfl
@[simp] theorem copied_nnz (out : Mem) (n : Nat) (s : State) : (copied out n s).nnz = s.nnz := rfl
@[simp] theorem copied_kraft (out : Mem) (n : Nat) (s : State) : (copied out n s).kraft = s.kraft := rfl
@[simp] theorem copied_len (out : Mem) (n : Nat) (s : State) : (copied out n s).len = s.len := rfl
@[simp] theorem copied_cnt (out : Mem) (n : Nat) (s : State) : (copied out n s).cnt = s.cnt := rfl
@[simp] theorem copied_first (out : Mem) (n : Nat) (s : State) : (copied out n s).first = s.first := rfl
@[simp] theorem copied_code (out : Mem) (n : Nat) (s : State) : (copied out n s).code = s.code := rfl
@[simp] theorem copied_status (out : Mem) (n : Nat) (s : State) : (copied out n s).status = s.status := rfl
@[simp] theorem copied_errcode (out : Mem) (n : Nat) (s : State) : (copied out n s).errcode = s.errcode := rfl
@[simp] theorem copied_errsub (out : Mem) (n : Nat) (s : State) : (copied out n s).errsub = s.errsub := rfl
@[simp] theorem copied_dsize (out : Mem) (n : Nat) (s : State) : (copied out n s).dsize = s.dsize := rfl
@[simp] theorem copied_inLen (out : Mem) (n : Nat) (s : State) : (copied out n s).inLen = s.inLen := rfl
@[simp] theorem copied_opos (out : Mem) (n : Nat) (s : State) : (copied out n s).opos = s.opos + BitVec.ofNat 32 n := rfl
@[simp] theorem copied_ipos (out : Mem) (n : Nat) (s : State) : (copied out n s).ipos = s.ipos := rfl
@[simp] theorem copied_input (out : Mem) (n : Nat) (s : State) : (copied out n s).input = s.input := rfl
@[simp] theorem copied_output (out : Mem) (n : Nat) (s : State) : (copied out n s).output = out := rfl
@[simp] theorem copied_moves (out : Mem) (n : Nat) (s : State) : (copied out n s).moves = s.moves := rfl
@[simp] theorem copied_readData (out : Mem) (n : Nat) (s : State) : (copied out n s).readData = s.readData := rfl
@[simp] theorem copied_draws (out : Mem) (n : Nat) (s : State) : (copied out n s).draws = s.draws := rfl

/-! ## resetEvent -/

@[simp] theorem resetEvent_acc (s : State) : (resetEvent s).acc = State.reset.acc := rfl
@[simp] theorem resetEvent_bcnt (s : State) : (resetEvent s).bcnt = State.reset.bcnt := rfl
@[simp] theorem resetEvent_sym (s : State) : (resetEvent s).sym = State.reset.sym := rfl
@[simp] theorem resetEvent_mlen (s : State) : (resetEvent s).mlen = State.reset.mlen := rfl
@[simp] theorem resetEvent_mdist (s : State) : (resetEvent s).mdist = State.reset.mdist := rfl
@[simp] theorem resetEvent_mrem (s : State) : (resetEvent s).mrem = State.reset.mrem := rfl
@[simp] theorem resetEvent_phase (s : State) : (resetEvent s).phase = State.reset.phase := rfl
@[simp] theorem resetEvent_bend (s : State) : (resetEvent s).bend = State.reset.bend := rfl
@[simp] theorem resetEvent_degen (s : State) : (resetEvent s).degen = State.reset.degen := rfl
@[simp] theorem resetEvent_dsym (s : State) : (resetEvent s).dsym = State.reset.dsym := rfl
@[simp] theorem resetEvent_nnz (s : State) : (resetEvent s).nnz = State.reset.nnz := rfl
@[simp] theorem resetEvent_kraft (s : State) : (resetEvent s).kraft = State.reset.kraft := rfl
@[simp] theorem resetEvent_len (s : State) : (resetEvent s).len = State.reset.len := rfl
@[simp] theorem resetEvent_cnt (s : State) : (resetEvent s).cnt = State.reset.cnt := rfl
@[simp] theorem resetEvent_first (s : State) : (resetEvent s).first = State.reset.first := rfl
@[simp] theorem resetEvent_code (s : State) : (resetEvent s).code = State.reset.code := rfl
@[simp] theorem resetEvent_status (s : State) : (resetEvent s).status = State.reset.status := rfl
@[simp] theorem resetEvent_errcode (s : State) : (resetEvent s).errcode = State.reset.errcode := rfl
@[simp] theorem resetEvent_errsub (s : State) : (resetEvent s).errsub = State.reset.errsub := rfl
@[simp] theorem resetEvent_dsize (s : State) : (resetEvent s).dsize = State.reset.dsize := rfl
@[simp] theorem resetEvent_inLen (s : State) : (resetEvent s).inLen = State.reset.inLen := rfl
@[simp] theorem resetEvent_opos (s : State) : (resetEvent s).opos = State.reset.opos := rfl
@[simp] theorem resetEvent_ipos (s : State) : (resetEvent s).ipos = State.reset.ipos := rfl
@[simp] theorem resetEvent_input (s : State) : (resetEvent s).input = State.reset.input := rfl
@[simp] theorem resetEvent_output (s : State) : (resetEvent s).output = State.reset.output := rfl
@[simp] theorem resetEvent_moves (s : State) : (resetEvent s).moves = s.moves := rfl
@[simp] theorem resetEvent_readData (s : State) : (resetEvent s).readData = s.readData := rfl
@[simp] theorem resetEvent_draws (s : State) : (resetEvent s).draws = s.draws := rfl

end Sys2Proof.Machine
end

