-- ==== Sys2Proof/Laws/Ops.lean ====
section
/-! SUPPORT. How operations end one after another, and the operations over the memories: one lemma each that says
everything the operation can do. -/

namespace Sys2Proof.Machine

@[simp] theorem Res.bind_ok {α β : Type} (a : α) (s : State) (k : α → State → Res β) :
    (Res.ok a s).bind k = k a s := rfl

@[simp] theorem Res.bind_raised {α β : Type} (f : FaultCause) (s : State) (k : α → State → Res β) :
    (Res.raised f s : Res α).bind k = .raised f s := rfl

@[simp] theorem Res.bind_faulted {α β : Type} (r : Fault) (k : α → State → Res β) :
    (Res.faulted r : Res α).bind k = .faulted r := rfl

@[simp] theorem Res.bind_refused {α β : Type} (r : Refusal) (k : α → State → Res β) :
    (Res.refused r : Res α).bind k = .refused r := rfl

/-- A sequence that ends with a value: its first part did. -/
theorem Res.bind_eq_ok {α β : Type} {r : Res α} {k : α → State → Res β} {b : β} {t : State}
    (h : r.bind k = .ok b t) : ∃ a s, r = .ok a s ∧ k a s = .ok b t := by
  cases r with
  | ok a s => exact ⟨a, s, rfl, h⟩
  | raised _ _ => cases h
  | faulted _ => cases h
  | refused _ => cases h

/-- A sequence that ends in a raise: its first part raised, or answered and its second part raised. -/
theorem Res.bind_eq_raised {α β : Type} {r : Res α} {k : α → State → Res β} {f : FaultCause} {t : State}
    (h : r.bind k = .raised f t) : r = .raised f t ∨ ∃ a s, r = .ok a s ∧ k a s = .raised f t := by
  cases r with
  | ok a s => exact .inr ⟨a, s, rfl, h⟩
  | raised _ _ => left; cases h; rfl
  | faulted _ => cases h
  | refused _ => cases h

/-- A sequence that ends in a stop of the model: the same. -/
theorem Res.bind_eq_faulted {α β : Type} {r : Res α} {k : α → State → Res β} {f : Fault}
    (h : r.bind k = .faulted f) : r = .faulted f ∨ ∃ a s, r = .ok a s ∧ k a s = .faulted f := by
  cases r with
  | ok a s => exact .inr ⟨a, s, rfl, h⟩
  | raised _ _ => cases h
  | faulted _ => left; cases h; rfl
  | refused _ => cases h

/-- A step that answers a next state ended with a value, or took a fault of the block. -/
theorem Res.outcome_eq_next {α : Type} {r : Res α} {t : State} (h : r.outcome = .next t) :
    (∃ a, r = .ok a t) ∨ ∃ f s, r = .raised f s ∧ t = enterFault f s := by
  cases r with
  | ok a s => left; cases h; exact ⟨a, rfl⟩
  | raised f s => right; cases h; exact ⟨f, s, rfl, rfl⟩
  | faulted _ => cases h
  | refused _ => cases h

theorem Res.outcome_eq_fault {α : Type} {r : Res α} {f : Fault} (h : r.outcome = .fault f) : r = .faulted f := by
  cases r with
  | ok _ _ => cases h
  | raised _ _ => cases h
  | faulted _ => cases h; rfl
  | refused _ => cases h

@[simp] theorem Res.outcome_ok {α : Type} (a : α) (s : State) : (Res.ok a s).outcome = .next s := rfl

@[simp] theorem Res.outcome_raised {α : Type} (f : FaultCause) (s : State) :
    (Res.raised f s : Res α).outcome = .next (enterFault f s) := rfl

theorem inputLeft_iff (n : Nat) (s : State) : inputLeft n s = true ↔ s.ipos.toNat + n ≤ s.inLen.toNat := by
  simp [inputLeft]

theorem inputLeft_eq_false_iff (n : Nat) (s : State) : inputLeft n s = false ↔ s.inLen.toNat < s.ipos.toNat + n := by
  simp [inputLeft]

/-- Inside IN the position advances without wrapping (00_scope.md R8, 42_token_engine.md R119). -/
theorem advance_ipos_toNat {n : Nat} {s : State} (h : s.ipos.toNat + n ≤ s.inLen.toNat) :
    (advance n s).ipos.toNat = s.ipos.toNat + n := by
  have := s.inLen.isLt
  simp only [advance_ipos, BitVec.toNat_add, BitVec.toNat_ofNat]
  omega

theorem advance_advance (m n : Nat) (s : State) : advance n (advance m s) = advance (m + n) s := by
  simp only [advance, BitVec.add_assoc, State.mk.injEq, true_and, and_true]
  rw [BitVec.ofNat_add]

/-- InRead(a, 2) gives the two bytes, or is refused because one of them holds no value. -/
theorem inRead2_cases (a : Nat) (s : State) :
    (∃ lo hi, s.input.read a = some lo ∧ s.input.read (a + 1) = some hi ∧ inRead2 a s = .ok (wordOfBytes lo hi) s) ∨
    (((s.input.read a).isSome = false ∨ (s.input.read (a + 1)).isSome = false) ∧
      inRead2 a s = .refused .inputByteUnset) := by
  unfold inRead2
  cases h₁ : s.input.read a <;> cases h₂ : s.input.read (a + 1) <;> simp

/-- A write at OPOS below DSIZE completes, and OPOS does not wrap. -/
theorem outWrite_of_room {b : Byte} {s : State} (h : s.opos.toNat < s.dsize.toNat) :
    outWrite b s = .ok () (emit b s) ∧ (s.opos + 1).toNat = s.opos.toNat + 1 := by
  have := s.dsize.isLt
  refine ⟨by simp [outWrite, h], ?_⟩
  rw [BitVec.toNat_add, show (1 : Word32).toNat = 1 from rfl]
  omega

end Sys2Proof.Machine
end

