-- ==== Sys2Proof/Laws/BitReader.lean ====
section
/-! SUPPORT. The Bit Reader: what REFILL, CONSUME, RDBYTE and RD16 can do, said once. -/

namespace Sys2Proof.Machine

/-- Fetching a word completes, or is refused because IN holds no value there. -/
theorem loadWord_cases (c : Config) (s : State) :
    (∃ lo hi, s.input.read s.ipos.toNat = some lo ∧ s.input.read (s.ipos.toNat + 1) = some hi ∧
      loadWord c s = .ok () (wordLoaded c (wordOfBytes lo hi) s)) ∨
    (((s.input.read s.ipos.toNat).isSome = false ∨ (s.input.read (s.ipos.toNat + 1)).isSome = false) ∧
      loadWord c s = .refused .inputByteUnset) := by
  rcases inRead2_cases s.ipos.toNat s with ⟨lo, hi, h₁, h₂, h⟩ | ⟨h', h⟩
  · exact .inl ⟨lo, hi, h₁, h₂, by simp [loadWord, h]⟩
  · exact .inr ⟨h', by simp [loadWord, h]⟩

/-- Everything CONSUME can do: no refill due; a refill due and no word left; a refill made; a refill that reads a byte of
IN without a value. -/
theorem consume_cases (c : Config) (n : Nat) (s : State) :
    (16 ≤ (dropBits c n s).bcnt.toNat ∧ consume c n s = .ok () (dropBits c n s)) ∨
    ((dropBits c n s).bcnt.toNat < 16 ∧ s.inLen.toNat < s.ipos.toNat + 2 ∧
      consume c n s = .raised .refillEmpty (dropBits c n s)) ∨
    ((dropBits c n s).bcnt.toNat < 16 ∧ s.ipos.toNat + 2 ≤ s.inLen.toNat ∧ ∃ lo hi,
      s.input.read s.ipos.toNat = some lo ∧ s.input.read (s.ipos.toNat + 1) = some hi ∧
      consume c n s = .ok () (wordLoaded c (wordOfBytes lo hi) (dropBits c n s))) ∨
    ((dropBits c n s).bcnt.toNat < 16 ∧ s.ipos.toNat + 2 ≤ s.inLen.toNat ∧
      ((s.input.read s.ipos.toNat).isSome = false ∨ (s.input.read (s.ipos.toNat + 1)).isSome = false) ∧
      consume c n s = .refused .inputByteUnset) := by
  unfold consume refill
  by_cases h : (dropBits c n s).bcnt.toNat < 16
  · by_cases h₂ : s.ipos.toNat + 2 ≤ s.inLen.toNat
    · have hl : inputLeft 2 (dropBits c n s) = true := by simpa [inputLeft_iff] using h₂
      rcases loadWord_cases c (dropBits c n s) with ⟨lo, hi, r₁, r₂, hw⟩ | ⟨hr, hw⟩
      · exact .inr (.inr (.inl ⟨h, h₂, lo, hi, r₁, r₂, by simp only [h, hl, hw, if_true]⟩))
      · exact .inr (.inr (.inr ⟨h, h₂, hr, by simp only [h, hl, hw, if_true]⟩))
    · have hl : inputLeft 2 (dropBits c n s) = false := by
        rw [inputLeft_eq_false_iff]; simpa using h₂
      exact .inr (.inl ⟨h, by omega, by simp only [h, hl, if_true, Bool.false_eq_true, if_false]⟩)
  · exact .inl ⟨by omega, by simp only [h, if_false]⟩

/-- BCNT after a drop of no more bits than there are. -/
theorem dropBits_bcnt_toNat (c : Config) (n : Nat) (s : State) : (dropBits c n s).bcnt.toNat = s.bcnt.toNat - n := by
  have := s.bcnt.isLt
  simp only [dropBits_bcnt, BitVec.toNat_ofNat]
  omega

/-- Everything RDBYTE can do. -/
theorem rdByte_cases (s : State) :
    (s.inLen.toNat < s.ipos.toNat + 1 ∧ rdByte s = .raised .extensionShort s) ∨
    (s.ipos.toNat + 1 ≤ s.inLen.toNat ∧ ∃ b, s.input.read s.ipos.toNat = some b ∧
      rdByte s = .ok b (advance 1 s)) ∨
    (s.ipos.toNat + 1 ≤ s.inLen.toNat ∧ s.input.read s.ipos.toNat = none ∧ rdByte s = .refused .inputByteUnset) := by
  unfold rdByte inRead1
  by_cases h : s.ipos.toNat + 1 ≤ s.inLen.toNat
  · have hl : inputLeft 1 s = true := (inputLeft_iff 1 s).mpr h
    cases hr : s.input.read s.ipos.toNat with
    | none => exact .inr (.inr ⟨h, rfl, by simp [hl]⟩)
    | some b => exact .inr (.inl ⟨h, b, rfl, by simp [hl]⟩)
  · have hl : inputLeft 1 s = false := by rw [inputLeft_eq_false_iff]; omega
    exact .inl ⟨by omega, by simp [hl]⟩

/-- Everything RD16 can do. -/
theorem rd16_cases (s : State) :
    (s.inLen.toNat < s.ipos.toNat + 2 ∧ rd16 s = .raised .extensionShort s) ∨
    (s.ipos.toNat + 2 ≤ s.inLen.toNat ∧ ∃ lo hi, s.input.read s.ipos.toNat = some lo ∧
      s.input.read (s.ipos.toNat + 1) = some hi ∧ rd16 s = .ok (wordOfBytes lo hi) (advance 2 s)) ∨
    (s.ipos.toNat + 2 ≤ s.inLen.toNat ∧
      ((s.input.read s.ipos.toNat).isSome = false ∨ (s.input.read (s.ipos.toNat + 1)).isSome = false) ∧
      rd16 s = .refused .inputByteUnset) := by
  unfold rd16
  by_cases h : s.ipos.toNat + 2 ≤ s.inLen.toNat
  · have hl : inputLeft 2 s = true := (inputLeft_iff 2 s).mpr h
    rcases inRead2_cases s.ipos.toNat s with ⟨lo, hi, r₁, r₂, hr⟩ | ⟨hn, hr⟩
    · exact .inr (.inl ⟨h, lo, hi, r₁, r₂, by simp [hl, hr]⟩)
    · exact .inr (.inr ⟨h, hn, by simp [hl, hr]⟩)
  · have hl : inputLeft 2 s = false := by rw [inputLeft_eq_false_iff]; omega
    exact .inl ⟨by omega, by simp [hl]⟩

theorem readerMoved_self (s : State) : readerMoved s.acc s.bcnt s.ipos s = s := rfl

theorem readerMoved_wordLoaded (acc : Nat) (bcnt : BitVec 6) (ipos : Word32) (c : Config) (w : Word16) (s : State) :
    readerMoved acc bcnt ipos (wordLoaded c w s) = readerMoved acc bcnt ipos s := rfl

theorem readerMoved_clearAcc (acc : Nat) (bcnt : BitVec 6) (ipos : Word32) (s : State) :
    readerMoved acc bcnt ipos (clearAcc s) = readerMoved acc bcnt ipos s := rfl

/-- Loading words moves the reader alone, two bytes for each, or is refused because IN holds no value there. -/
theorem loadWords_cases (c : Config) (n : Nat) (s : State) :
    (∃ acc, loadWords c n s =
      .ok () (readerMoved acc (s.bcnt + BitVec.ofNat 6 (16 * n)) (s.ipos + BitVec.ofNat 32 (2 * n)) s)) ∨
    loadWords c n s = .refused .inputByteUnset := by
  induction n generalizing s with
  | zero => left; refine ⟨s.acc, ?_⟩; simp [loadWords, readerMoved]
  | succ n ih =>
    rcases loadWord_cases c s with ⟨lo, hi, -, -, h⟩ | ⟨-, h⟩
    · rcases ih (wordLoaded c (wordOfBytes lo hi) s) with ⟨acc, h'⟩ | h'
      · left
        refine ⟨acc, ?_⟩
        rw [loadWords, h, Res.bind_ok, h', readerMoved_wordLoaded, wordLoaded_bcnt, wordLoaded_ipos, BitVec.add_assoc,
          BitVec.add_assoc, Nat.mul_succ, Nat.mul_succ, Nat.add_comm (16 * n), Nat.add_comm (2 * n), BitVec.ofNat_add,
          BitVec.ofNat_add]
        rfl
      · right; simp [loadWords, h, h']
    · right; simp [loadWords, h]

/-- Everything PRIME can do, R77. -/
theorem prime_cases (c : Config) (s : State) :
    (s.inLen.toNat < s.ipos.toNat + 2 * c.primeWords ∧
      prime c s = .raised .primeShort (advance (2 * ((s.inLen.toNat - s.ipos.toNat) / 2)) s)) ∨
    (s.ipos.toNat + 2 * c.primeWords ≤ s.inLen.toNat ∧ ∃ acc,
      prime c s = .ok () (readerMoved acc (BitVec.ofNat 6 (16 * c.primeWords))
        (s.ipos + BitVec.ofNat 32 (2 * c.primeWords)) s)) ∨
    (s.ipos.toNat + 2 * c.primeWords ≤ s.inLen.toNat ∧ prime c s = .refused .inputByteUnset) := by
  unfold prime
  by_cases h : s.ipos.toNat + 2 * c.primeWords ≤ s.inLen.toNat
  · have hl := (inputLeft_iff (2 * c.primeWords) s).mpr h
    rcases loadWords_cases c c.primeWords (clearAcc s) with ⟨acc, h'⟩ | h'
    · exact .inr (.inl ⟨h, acc, by rw [if_pos hl, h', readerMoved_clearAcc]; simp⟩)
    · exact .inr (.inr ⟨h, by simp [hl, h']⟩)
  · have hl : inputLeft (2 * c.primeWords) s = false := by rw [inputLeft_eq_false_iff]; omega
    exact .inl ⟨by omega, by simp [hl]⟩

/-- A CONSUME that completes moves the reader alone. -/
theorem consume_moves {c : Config} {n : Nat} {s t : State} (h : consume c n s = .ok () t) :
    t = readerMoved t.acc t.bcnt t.ipos s := by
  rcases consume_cases c n s with ⟨-, h'⟩ | ⟨-, -, h'⟩ | ⟨-, -, lo, hi, -, -, h'⟩ | ⟨-, -, -, h'⟩ <;>
    rw [h'] at h <;> cases h <;> rfl

/-- A CONSUME that raises has a refill due and no word left; only ACC and BCNT have moved, IPOS has not. -/
theorem consume_raised {c : Config} {n : Nat} {s t : State} {f : FaultCause} (h : consume c n s = .raised f t) :
    f = .refillEmpty ∧ t = dropBits c n s ∧ s.inLen.toNat < s.ipos.toNat + 2 := by
  rcases consume_cases c n s with ⟨-, h'⟩ | ⟨-, h₂, h'⟩ | ⟨-, -, lo, hi, -, -, h'⟩ | ⟨-, -, -, h'⟩ <;>
    rw [h'] at h <;> cases h
  exact ⟨rfl, rfl, h₂⟩

end Sys2Proof.Machine
end

