-- ==== Sys2Proof/Laws/Builder.lean ====
section
/-! SUPPORT. The Table Builder: what LOADTABLE, BUILD and DECODESYM can do, said once. -/

namespace Sys2Proof.Machine

/-- Everything LOADTABLE can do, R90. -/
theorem loadTable_cases (c : Config) (s : State) :
    (s.inLen.toNat < s.ipos.toNat + 256 ∧ loadTable c s = .raised .tableShort s) ∨
    (s.ipos.toNat + 256 ≤ s.inLen.toNat ∧ ∃ bytes : List Byte, bytes.length = 256 ∧
      (∀ i : Nat, i < 256 → s.input.read (s.ipos.toNat + i) = some (bytes.getD i 0)) ∧
      loadTable c s =
        .ok () (advance 256 (setLengths (vectorOfList 512 0 (unpackLengths c.nibbleEven bytes)) s))) ∨
    (s.ipos.toNat + 256 ≤ s.inLen.toNat ∧ loadTable c s = .refused .inputByteUnset) := by
  unfold loadTable
  by_cases h : s.ipos.toNat + 256 ≤ s.inLen.toNat
  · have hl := (inputLeft_iff Config.tableBytes s).mpr h
    cases hr : s.input.readBytes s.ipos.toNat Config.tableBytes with
    | none => exact .inr (.inr ⟨h, by simp [hl]⟩)
    | some bytes =>
      obtain ⟨e, e'⟩ := Mem.readBytes_eq_some hr
      exact .inr (.inl ⟨h, bytes, e, e', by simp [hl]⟩)
  · have hl : inputLeft Config.tableBytes s = false := by rw [inputLeft_eq_false_iff]; simp only [Config.tableBytes]; omega
    exact .inl ⟨by omega, by simp [hl]⟩

/-- Everything BUILD can do, R92 and R93. -/
theorem build_cases (s : State) :
    (classify (nonzeroCount (countTable s.len)) (kraftSum (countTable s.len)) = .invalid ∧
      build s = .raised .tableInvalid (count s)) ∨
    (classify (nonzeroCount (countTable s.len)) (kraftSum (countTable s.len)) = .degenerate ∧
      build s = .ok () (setDegenerate (count s))) ∨
    (classify (nonzeroCount (countTable s.len)) (kraftSum (countTable s.len)) = .complete ∧
      build s = .ok () (setCodes (count s))) := by
  unfold build
  rw [count_nnz, count_kraft]
  cases h : classify (nonzeroCount (countTable s.len)) (kraftSum (countTable s.len))
  · exact .inl ⟨rfl, rfl⟩
  · exact .inr (.inl ⟨rfl, rfl⟩)
  · exact .inr (.inr ⟨rfl, rfl⟩)

/-- Everything DECODESYM can do, R103 and R104. -/
theorem decodeSym_cases (c : Config) (s : State) :
    (s.degen = true ∧ decodeSym c s = .ok s.dsym (setSym s.dsym s)) ∨
    (s.degen = false ∧ lookup s.toDatapath (window c s) = none ∧ decodeSym c s = .faulted .noCodeword) ∨
    (s.degen = false ∧ ∃ sym l, lookup s.toDatapath (window c s) = some (sym, l) ∧
      ((∃ t, consume c l s = .ok () t ∧ decodeSym c s = .ok sym (setSym sym t)) ∨
        (consume c l s = .raised .refillEmpty (dropBits c l s) ∧
          decodeSym c s = .raised .refillEmpty (dropBits c l s)) ∨
        (consume c l s = .refused .inputByteUnset ∧ decodeSym c s = .refused .inputByteUnset))) := by
  unfold decodeSym
  cases hd : s.degen with
  | true => exact .inl ⟨rfl, by simp⟩
  | false =>
    cases hl : lookup s.toDatapath (window c s) with
    | none => exact .inr (.inl ⟨rfl, rfl, by simp⟩)
    | some p =>
      obtain ⟨sym, l⟩ := p
      refine .inr (.inr ⟨rfl, sym, l, rfl, ?_⟩)
      rcases consume_cases c l s with ⟨-, h⟩ | ⟨-, -, h⟩ | ⟨-, -, lo, hi, -, -, h⟩ | ⟨-, -, -, h⟩
      · exact .inl ⟨_, h, by simp [h]⟩
      · exact .inr (.inl ⟨h, by simp [h]⟩)
      · exact .inl ⟨_, h, by simp [h]⟩
      · exact .inr (.inr ⟨h, by simp [h]⟩)

end Sys2Proof.Machine
end

