-- ==== Sys2Proof/Laws/PerInstr.lean ====
section
/-! SUPPORT. Statements for all instructions, one lemma per constructor. TableRow: the word of a well-formed instruction
matches its own row of opcode_table.json (30_encoding.md R61 to R65, R72; 10_state.md R28). -/

namespace Sys2Proof.Laws.TableRow

open Sys2Proof

/-- The word the table's "mask" and "match" speak of: a token's symbol, or the value written to CTRL. -/
def word : Instr → BitVec 32
  | .start value => value
  | i => (tokenSym i).setWidth 32

/-- The "mask" of the instruction's row. -/
def mask : Instr → BitVec 32
  | .lit _ => 0x100
  | .matchM _ _ _ => 0x100
  | .matchX8 _ _ _ => 0x10f
  | .matchX16 _ _ _ => 0x10f
  | .start _ => 0x00000001

/-- The "match" of the instruction's row. -/
def fixed : Instr → BitVec 32
  | .lit _ => 0x000
  | .matchM _ _ _ => 0x100
  | .matchX8 _ _ _ => 0x10f
  | .matchX16 _ _ _ => 0x10f
  | .start _ => 0x00000001

/-- The row's fixed bits are those of the word; a MATCH is told from the extended forms by its length nibble (R63). -/
def Statement (i : Instr) : Prop :=
  i.wellFormed = true → word i &&& mask i = fixed i ∧
    match i with
    | .matchM _ _ _ => word i &&& 0x10f ≠ 0x10f
    | _ => True

theorem lit (b : Byte) : Statement (.lit b) := by
  intro _
  have : ∀ b : Byte, (0#1 ++ b : Sym).setWidth 32 &&& 0x100 = (0x000 : BitVec 32) := by decide +kernel
  exact ⟨this b, trivial⟩

theorem matchM (dbits lnib : Nibble) (extra : BitVec 15) : Statement (.matchM dbits lnib extra) := by
  intro h
  have h' : lnib ≠ 15 := by
    simp only [Instr.wellFormed, Instr.wellFormedIn, Config.std, Bool.and_eq_true, bne_iff_ne] at h
    exact h.1
  revert h'
  have : ∀ d l : Nibble, l ≠ 15 → ((matchSym d l).setWidth 32 &&& 0x100 = (0x100 : BitVec 32) ∧
      (matchSym d l).setWidth 32 &&& 0x10f ≠ (0x10f : BitVec 32)) := by decide +kernel
  exact this dbits lnib

theorem matchX8 (dbits : Nibble) (b : Byte) (extra : BitVec 15) : Statement (.matchX8 dbits b extra) := by
  intro _
  have : ∀ d : Nibble, (matchSym d 15).setWidth 32 &&& 0x10f = (0x10f : BitVec 32) := by decide +kernel
  exact ⟨this dbits, trivial⟩

theorem matchX16 (dbits : Nibble) (v : Word16) (extra : BitVec 15) : Statement (.matchX16 dbits v extra) := by
  intro _
  have : ∀ d : Nibble, (matchSym d 15).setWidth 32 &&& 0x10f = (0x10f : BitVec 32) := by decide +kernel
  exact ⟨this dbits, trivial⟩

theorem start (value : Word32) : Statement (.start value) := by
  intro h
  have h' : value.getLsbD 0 = true := h
  refine ⟨?_, trivial⟩
  apply BitVec.eq_of_getLsbD_eq
  intro i hi
  simp only [word, mask, fixed, BitVec.getLsbD_and]
  by_cases h₀ : i = 0
  · subst h₀; simp [h']
  · simp [BitVec.getLsbD_one, h₀]

end Sys2Proof.Laws.TableRow
end

