-- ==== Sys2Proof/Laws/Tokens.lean ====
section
/-! SUPPORT. COPY said once (42_token_engine.md R116, 20_memory.md R49), and what the shared part of the three match forms
can do. -/

namespace Sys2Proof.Machine

/-- One step further round a period. -/
theorem succ_mod_cases (i m : Nat) (hm : 1 ≤ m) :
    (i % m + 1 = m ∧ (i + 1) % m = 0) ∨ (i % m + 1 < m ∧ (i + 1) % m = i % m + 1) := by
  have h := Nat.mod_lt i hm
  by_cases e : i % m + 1 = m
  · left
    refine ⟨e, ?_⟩
    rw [Nat.add_mod]
    by_cases h₁ : m = 1
    · subst h₁; simp [Nat.mod_one]
    · rw [Nat.mod_eq_of_lt (show 1 < m by omega), e, Nat.mod_self]
  · right
    refine ⟨by omega, ?_⟩
    rw [Nat.add_mod, Nat.mod_eq_of_lt (show 1 < m by omega), Nat.mod_eq_of_lt (by omega)]

theorem copied_zero (s : State) : copied s.output 0 s = s := by
  simp [copied]

theorem copied_succ (out : Mem) (n : Nat) (b : Byte) (s : State) :
    copied out n (countDown (emit b s)) = copied out (n + 1) s := by
  have e₁ : s.opos + 1 + BitVec.ofNat 32 n = s.opos + BitVec.ofNat 32 (n + 1) := by
    rw [Nat.add_comm n 1, BitVec.ofNat_add, BitVec.add_assoc]
    rfl
  have e₂ : s.mrem - 1 - BitVec.ofNat 17 n = s.mrem - BitVec.ofNat 17 (n + 1) := by
    rw [Nat.add_comm n 1, BitVec.ofNat_add, BitVec.sub_sub]
    rfl
  simp only [copied, countDown, emit, e₁, e₂]

/-- The loop of COPY with its source filled and room for its bytes: it completes, its bytes repeat the last MDIST bytes,
and no other byte changes. -/
theorem copyLoop_spec (n : Nat) (s : State) (hfill : OutputReady s) (h₁ : 1 ≤ s.mdist.toNat)
    (h₂ : s.mdist.toNat ≤ s.opos.toNat) (hn : s.opos.toNat + n ≤ s.dsize.toNat) :
    ∃ out : Mem,
      copyLoop n s = .ok () (copied out n s) ∧
      (∀ i : Nat, i < n →
        out.read (s.opos.toNat + i) = s.output.read (s.opos.toNat - s.mdist.toNat + i % s.mdist.toNat)) ∧
      (∀ a : Nat, a < s.opos.toNat ∨ s.opos.toNat + n ≤ a → out.read a = s.output.read a) ∧
      (s.output.wf = true → out.wf = true) := by
  induction n generalizing s with
  | zero => exact ⟨s.output, by rw [copied_zero]; rfl, fun i hi => by omega, fun _ _ => rfl, id⟩
  | succ n ih =>
    obtain ⟨b, hb⟩ := Option.isSome_iff_exists.mp (hfill (s.opos.toNat - s.mdist.toNat) (by omega))
    obtain ⟨hw, hp⟩ := outWrite_of_room (b := b) (s := s) (by omega)
    have hd := s.dsize.isLt
    obtain ⟨out, hr, hc, hk, hwf⟩ := ih (countDown (emit b s))
      (by
        intro a ha
        simp only [countDown_opos, emit_opos, hp] at ha
        simp only [countDown_output, emit_output, Mem.read_write]
        split
        · rfl
        · exact hfill a (by omega))
      h₁ (by simp only [countDown_opos, emit_opos, hp, countDown_mdist, emit_mdist]; omega)
      (by simp only [countDown_opos, emit_opos, hp, countDown_dsize, emit_dsize]; omega)
    simp only [countDown_opos, emit_opos, hp, countDown_output, emit_output, countDown_mdist, emit_mdist] at hc hk hwf
    refine ⟨out, ?_, fun i hi => ?_, fun a ha => ?_, fun h => hwf (Mem.wf_write _ _ _ h (by omega))⟩
    · simp only [copyLoop, outRead, hb, Res.bind_ok, hw, hr, copied_succ]
    · cases i with
      | zero =>
        rw [Nat.add_zero, hk _ (.inl (by omega)), Mem.read_write_same]
        simp [hb]
      | succ i =>
        rw [show s.opos.toNat + (i + 1) = s.opos.toNat + 1 + i by omega, hc i (by omega)]
        have hm := Nat.mod_lt i (show 0 < s.mdist.toNat from h₁)
        rcases succ_mod_cases i s.mdist.toNat h₁ with ⟨e, e'⟩ | ⟨e, e'⟩
        · rw [show s.opos.toNat + 1 - s.mdist.toNat + i % s.mdist.toNat = s.opos.toNat by omega,
            Mem.read_write_same, e', Nat.add_zero, hb]
        · rw [Mem.read_write_other _ _ (by omega), e']
          congr 1
          omega
    · rw [hk a (by omega), Mem.read_write_other _ _ (by omega)]

/-- The low byte of a little-endian word, and its high byte. -/
theorem wordOfBytes_low (lo hi : Byte) : (wordOfBytes lo hi).setWidth 8 = lo := by
  apply BitVec.eq_of_getLsbD_eq
  intro i h
  simp only [wordOfBytes, BitVec.getLsbD_setWidth, BitVec.getLsbD_append]
  simp [h]

theorem wordOfBytes_high (lo hi : Byte) : (wordOfBytes lo hi >>> 8).setWidth 8 = hi := by
  apply BitVec.eq_of_getLsbD_eq
  intro i h
  simp only [wordOfBytes, BitVec.getLsbD_setWidth, BitVec.getLsbD_ushiftRight, BitVec.getLsbD_append]
  simp [h]

/-- COPY raises no fault of the block. -/
theorem copyLoop_not_raised (n : Nat) (s : State) (f : FaultCause) (t : State) : copyLoop n s ≠ .raised f t := by
  induction n generalizing s with
  | zero => intro h; cases h
  | succ n ih =>
    intro h
    simp only [copyLoop, outRead, outWrite] at h
    cases hr : s.output.read (s.opos.toNat - s.mdist.toNat) with
    | none => rw [hr] at h; cases h
    | some b =>
      rw [hr] at h
      simp only [Res.bind_ok] at h
      split at h
      · exact ih _ h
      · cases h

/-- The loop of COPY from any state: when it completes, `n` bytes from OPOS on have been written and no other byte of
OUT has changed. -/
theorem copyLoop_ok {n : Nat} {s t : State} (h : copyLoop n s = .ok () t) :
    ∃ out : Mem, t = copied out n s ∧ (n = 0 ∨ s.opos.toNat + n ≤ s.dsize.toNat) ∧
      (∀ a : Nat, a < s.opos.toNat ∨ s.opos.toNat + n ≤ a → out.read a = s.output.read a) ∧
      (s.output.wf = true → out.wf = true) := by
  induction n generalizing s with
  | zero =>
    obtain rfl : s = t := by cases h; rfl
    exact ⟨s.output, (copied_zero s).symm, .inl rfl, fun _ _ => rfl, id⟩
  | succ n ih =>
    simp only [copyLoop, outRead] at h
    cases hr : s.output.read (s.opos.toNat - s.mdist.toNat) with
    | none => rw [hr] at h; cases h
    | some b =>
      rw [hr] at h
      simp only [Res.bind_ok] at h
      by_cases hroom : s.opos.toNat < s.dsize.toNat
      · obtain ⟨hw, hp⟩ := outWrite_of_room (b := b) hroom
        rw [hw, Res.bind_ok] at h
        obtain ⟨out, e, hn, hk, hwf⟩ := ih h
        simp only [countDown_opos, emit_opos, hp, countDown_dsize, emit_dsize, countDown_output, emit_output] at hn hk hwf
        have hd := s.dsize.isLt
        refine ⟨out, by rw [e, copied_succ], .inr (by omega), fun a ha => ?_,
          fun hs => hwf (Mem.wf_write _ _ _ hs (by omega))⟩
        rw [hk a (by omega), Mem.read_write_other _ _ (by omega)]
      · rw [outWrite, if_neg hroom] at h; cases h

/-- When points 6 to 8 of R110 complete: the distance is no greater than OPOS, and a copy was made. -/
theorem checkAndCopy_ok {c : Config} {dbits : Nibble} {extra : BitVec 15} {s t : State}
    (h : checkAndCopy c dbits extra s = .ok () t) :
    (setDistance (distance c dbits extra) s).mdist.toNat ≤ s.opos.toNat ∧
    ∃ out : Mem,
      t = copied out (copyCount s) (setRemaining (copyCount s) (setDistance (distance c dbits extra) s)) ∧
      (∀ a : Nat, a < s.opos.toNat ∨ s.opos.toNat + copyCount s ≤ a → out.read a = s.output.read a) ∧
      (s.output.wf = true → out.wf = true) := by
  unfold checkAndCopy at h
  split at h
  · cases h
  · rename_i hd
    obtain ⟨out, e, -, hk, hwf⟩ := copyLoop_ok (n := copyCount s) h
    exact ⟨by omega, out, e, hk, hwf⟩

/-- When points 6 to 8 of R110 raise, the distance is greater than OPOS and only MDIST has been written. -/
theorem checkAndCopy_raised {c : Config} {dbits : Nibble} {extra : BitVec 15} {s t : State} {f : FaultCause}
    (h : checkAndCopy c dbits extra s = .raised f t) :
    f = .badDistance ∧ t = setDistance (distance c dbits extra) s ∧ s.opos.toNat < t.mdist.toNat := by
  unfold checkAndCopy at h
  split at h
  · rename_i hd
    cases h
    exact ⟨rfl, rfl, hd⟩
  · exact absurd h (copyLoop_not_raised _ _ _ _)

/-- The extension bytes a token takes are those at IPOS, and they are what R64 and R65 ask for. -/
theorem readExtension_ok {c : Config} {sym : Sym} {s t : State} {bytes : List Byte}
    (h : readExtension c sym s = .ok bytes t) :
    t = advance bytes.length s ∧
    ((bytes = [] ∧ (symIsMatch sym = false ∨ c.slotLnib (symLow sym) ≠ c.lenSentinel)) ∨
      (symIsMatch sym = true ∧ c.slotLnib (symLow sym) = c.lenSentinel ∧
        ((∃ b, b ≠ 255 ∧ bytes = [b] ∧ s.input.read s.ipos.toNat = some b) ∨
          ∃ lo hi, bytes = [255, lo, hi] ∧ s.input.read s.ipos.toNat = some 255 ∧
            s.input.read (s.ipos.toNat + 1) = some lo ∧ s.input.read (s.ipos.toNat + 2) = some hi))) := by
  unfold readExtension at h
  split at h
  · cases h; exact ⟨(by simp [advance]), .inl ⟨rfl, .inl ‹_›⟩⟩
  · rename_i hm
    split at h
    · cases h; exact ⟨(by simp [advance]), .inl ⟨rfl, .inr ‹_›⟩⟩
    · rename_i hl
      rcases rdByte_cases s with ⟨-, hb⟩ | ⟨h₁, b, hr, hb⟩ | ⟨-, -, hb⟩ <;> rw [hb] at h
      · cases h
      · rw [Res.bind_ok] at h
        split at h
        · cases h
          exact ⟨rfl, .inr ⟨by simpa using hm, by simpa using hl, .inl ⟨_, ‹_›, rfl, hr⟩⟩⟩
        · rename_i hb
          obtain rfl : b = 255 := by simpa using hb
          have hp := advance_ipos_toNat h₁
          rcases rd16_cases (advance 1 s) with ⟨-, h'⟩ | ⟨h₂, lo, hi, hlo, hhi, h'⟩ | ⟨-, -, h'⟩ <;> rw [h'] at h
          · cases h
          · rw [Res.bind_ok] at h
            cases h
            simp only [hp, advance_input] at hlo hhi
            exact ⟨advance_advance 1 2 s, .inr ⟨by simpa using hm, by simpa using hl, .inr
              ⟨lo, hi, by rw [wordOfBytes_low, wordOfBytes_high], hr, hlo, hhi⟩⟩⟩
          · cases h
      · cases h

end Sys2Proof.Machine
end

