-- ==== Sys2Proof/Laws/Step.lean ====
section
/-! SUPPORT. What a step can do, said once: START, which of the two moves, the five steps of the engine, and the ways a token step
ends. -/

namespace Sys2Proof.Machine

/-! ## START -/

/-- In a canonical IN, START's check decides P_IN_VALID, R156. -/
theorem inputFilled_iff {s : State} (h : s.input.wf = true) : inputFilled s = true ↔ InputValid s := by
  rw [inputFilled, Mem.filledFrom_iff h]
  exact ⟨fun hr a ha => hr a (Nat.zero_le a) ha, fun hr a _ ha => hr a ha⟩

/-- Everything START can do, R106, R28 and R156. -/
theorem execStartIn_cases (c : Config) (value : Word32) (s : State) :
    ((value.getLsbD 0 = false ∨ s.status = .busy) ∧ execStartIn c value s = .next s) ∨
    (value.getLsbD 0 = true ∧ s.status ≠ .busy ∧
      ((c.outCap < s.dsize.toNat ∧ execStartIn c value s = .refused .outputCapacity) ∨
        (s.dsize.toNat ≤ c.outCap ∧ inputFilled s = false ∧ execStartIn c value s = .refused .inputNotValid) ∨
        (s.dsize.toNat ≤ c.outCap ∧ inputFilled s = true ∧ execStartIn c value s = .next (launch s)))) := by
  unfold execStartIn
  split
  · exact .inl ⟨.inl ‹_›, rfl⟩
  · split
    · exact .inl ⟨.inr ‹_›, rfl⟩
    · refine .inr ⟨by simpa using ‹¬value.getLsbD 0 = false›, ‹_›, ?_⟩
      split
      · exact .inl ⟨‹_›, rfl⟩
      · split
        · exact .inr (.inl ⟨by omega, ‹_›, rfl⟩)
        · exact .inr (.inr ⟨by omega, by simpa using ‹¬inputFilled s = false›, rfl⟩)

/-- A launch that START accepts has IN valid. -/
theorem inputValid_of_filled {s : State} (h : inputFilled s = true) : InputValid s :=
  fun _ ha => Mem.isSome_of_filledFrom h (Nat.zero_le _) ha
/-! ## Which of the two agents moves -/

/-- The meanings that `step` runs are those of the default parameters. -/
theorem exec_eq_execIn (i : Instr) (s : State) : exec i s = execIn Config.std i s := by cases i <;> rfl

theorem step_eq_stepIn (s : State) : step s = stepIn Config.std s := rfl

/-- With no move of the host pending the engine steps. -/
theorem stepIn_of_engine {c : Config} {s : State} (h : s.moves = []) : stepIn c s = engineStep c (execIn c) s := by
  unfold stepIn machineStep
  rw [h]

/-- With a move pending the step is that move, made from the state without it. -/
theorem stepIn_of_move {c : Config} {s : State} {m : HostMove} {rest : List HostMove} (h : s.moves = m :: rest) :
    stepIn c s = hostStep c (execIn c) m { s with moves := rest } := by
  unfold stepIn machineStep
  rw [h]

/-- The five steps of the engine, R107 to R110 and R123, and no other. -/
theorem engineStep_cases (c : Config) (ex : Instr → State → Host.Outcome State Fault Refusal) (s : State) :
    (s.status ≠ .busy ∧ engineStep c ex s = .next s) ∨
    (s.status = .busy ∧ s.phase = .init ∧ engineStep c ex s = (init c s).outcome) ∨
    (s.status = .busy ∧ s.phase = .run ∧ s.opos = s.dsize ∧ engineStep c ex s = .next (finish s)) ∨
    (s.status = .busy ∧ s.phase = .run ∧ s.opos ≠ s.dsize ∧ blockDue c s = true ∧
      engineStep c ex s = .next (switchBlock s)) ∨
    (s.status = .busy ∧ s.phase = .run ∧ s.opos ≠ s.dsize ∧ blockDue c s = false ∧
      engineStep c ex s = tokenStep c ex s) := by
  unfold engineStep
  cases hs : s.status
  · exact .inl ⟨by simp, rfl⟩
  · cases hp : s.phase
    · exact .inr (.inl ⟨rfl, rfl, rfl⟩)
    · by_cases ho : s.opos = s.dsize
      · exact .inr (.inr (.inl ⟨rfl, rfl, ho, by simp only [ho, if_true]⟩))
      · cases hb : blockDue c s
        · exact .inr (.inr (.inr (.inr ⟨rfl, rfl, ho, rfl, by simp [ho]⟩)))
        · exact .inr (.inr (.inr (.inl ⟨rfl, rfl, ho, rfl, by simp [ho]⟩)))
  · exact .inl ⟨by simp, rfl⟩
  · exact .inl ⟨by simp, rfl⟩

/-- A token step that answers a next state: an instruction was decoded and run, or a fault was taken on the way. -/
theorem tokenStep_next {c : Config} {ex : Instr → State → Host.Outcome State Fault Refusal} {s t : State}
    (h : tokenStep c ex s = .next t) :
    (∃ sym s₁ bytes s₂ i, decodeSym c s = .ok sym s₁ ∧ readExtension c sym s₁ = .ok bytes s₂ ∧
      decode c (.token sym bytes (window c s₁)) = .ok i ∧ ex i s₁ = .next t) ∨
    (∃ f s₁, decodeSym c s = .raised f s₁ ∧ t = enterFault f s₁) ∨
    (∃ sym s₁ f s₂, decodeSym c s = .ok sym s₁ ∧ readExtension c sym s₁ = .raised f s₂ ∧ t = enterFault f s₂) := by
  unfold tokenStep at h
  cases hd : decodeSym c s with
  | ok sym s₁ =>
    rw [hd] at h
    simp only at h
    cases hx : readExtension c sym s₁ with
    | ok bytes s₂ =>
      rw [hx] at h
      simp only at h
      cases hi : decode c (.token sym bytes (window c s₁)) with
      | ok i => rw [hi] at h; exact .inl ⟨sym, s₁, bytes, s₂, i, rfl, hx, hi, h⟩
      | error e => rw [hi] at h; cases h
    | raised f s₂ => rw [hx] at h; cases h; exact .inr (.inr ⟨sym, s₁, f, s₂, rfl, hx, rfl⟩)
    | faulted r => rw [hx] at h; cases h
    | refused r => rw [hx] at h; cases h
  | raised f s₁ => rw [hd] at h; cases h; exact .inr (.inl ⟨f, s₁, rfl, rfl⟩)
  | faulted r => rw [hd] at h; cases h
  | refused r => rw [hd] at h; cases h

end Sys2Proof.Machine
end

