-- ==== Sys2Proof/Tests/Slice0.lean ====
section
/-! SUPPORT. The model's own tests (vectors and programs of 95_test_vectors.md, named in each comment) and a witness for the
hypotheses of every statement of Obligations.lean that has some. -/

namespace Sys2Proof.Tests

-- One test after another: each waits for the kernel, and waiting side by side they would take a thread each.
set_option Elab.async false

open Sys2Proof Sys2Proof.Machine

/-! ## WellFormed: an ill-formed term for each check (R63 to R67, R69, R28) -/

theorem test_wellFormed_match_sentinel : (Instr.matchM 0 15 0).wellFormed = false := by decide
theorem test_wellFormed_match_extra : (Instr.matchM 2 3 4).wellFormed = false := by decide
theorem test_wellFormed_matchX8_byte : (Instr.matchX8 0 0xff 0).wellFormed = false := by decide
theorem test_wellFormed_matchX8_extra : (Instr.matchX8 1 2 2).wellFormed = false := by decide
theorem test_wellFormed_matchX16_value : (Instr.matchX16 0 14 0).wellFormed = false := by decide
theorem test_wellFormed_matchX16_extra : (Instr.matchX16 0 15 1).wellFormed = false := by decide
theorem test_wellFormed_start_bit : (Instr.start 2).wellFormed = false := by decide

/-- The greatest of each form is well-formed. -/
theorem test_wellFormed_greatest :
    (Instr.lit 0xff).wellFormed = true ∧ (Instr.matchM 15 14 32767).wellFormed = true ∧
    (Instr.matchX8 15 0xfe 32767).wellFormed = true ∧ (Instr.matchX16 15 0xffff 32767).wellFormed = true ∧
    (Instr.start 3).wellFormed = true := by decide

/-! ## Decoding words written out from R61 to R65, R67 and R28 -/

/-- LIT 'A': M = 0, BYTE = 0x41. -/
theorem test_decode_lit : decode Config.std (.token 0b001000001#9 [] 0) = .ok (.lit 0x41) := by decide

/-- M(2, 3) = 291 with the two distance bits 01 (P3, token 7). -/
theorem test_decode_match :
    decode Config.std (.token 0b100100011#9 [] 0b010000000000000#15) = .ok (.matchM 2 3 1) := by decide

/-- M(1, 15) = 287, extension byte 02, one distance bit 0; the byte after it is not taken (P3, token 3). -/
theorem test_decode_matchX8 :
    decodeToken Config.std 0b100011111#9 [0x02, 0x00] 0b001111111111111#15 = .ok (.matchX8 1 0x02 0, [0x00]) := by decide

/-- M(0, 15) = 271, extension bytes ff 29 01: 0x0129 = 297 (P4, token 2). -/
theorem test_decode_matchX16 :
    decode Config.std (.token 0b100001111#9 [0xff, 0x29, 0x01] 0) = .ok (.matchX16 0 297 0) := by decide

/-- A write of 3 to CTRL is START, bits 31:1 ignored; a write of 2 is none (I5). -/
theorem test_decode_start :
    decode Config.std (.command 0b11#32) = .ok (.start 3) ∧
    decode Config.std (.command 0b10#32) = .error .startBitClear := by decide

/-- A saturated length nibble without its bytes is refused by name. -/
theorem test_decode_short :
    decode Config.std (.token 0b100001111#9 [] 0) = .error .extensionByteMissing ∧
    decode Config.std (.token 0b100001111#9 [0xff, 0x29] 0) = .error .extensionValueMissing := by decide

/-- Words of opcode_table.json: the match values of its rows, and a word with a bit above the symbol. -/
theorem test_decode_tableWords :
    decodeTableWord 16 0x000 = some (.lit 0) ∧ decodeTableWord 16 0x100 = some (.matchM 0 0 0) ∧
    decodeTableWord 16 0x10f = some (.matchX8 0 0 0) ∧ decodeTableWord 40 0x0129ff010f = some (.matchX16 0 297 0) ∧
    decodeTableWord 32 1 = some (.start 1) ∧ decodeTableWord 16 0x200 = none := by decide

/-! ## Small states -/

/-- What an outcome is, if it is a next state. -/
def nextIs (o : Host.Outcome State Fault Refusal) (p : State → Bool) : Bool :=
  match o with
  | .next t => p t
  | .fault _ => false
  | .refused _ => false

theorem exists_of_nextIs {o : Host.Outcome State Fault Refusal} {p : State → Bool} (h : nextIs o p = true) :
    ∃ t, o = .next t ∧ p t = true := by
  cases o with
  | next t => exact ⟨t, rfl, h⟩
  | fault _ => cases h
  | refused _ => cases h

/-- What an operation of the bit reader gives, if it completes. -/
def okIs {α : Type} (r : Res α) (p : α → State → Bool) : Bool :=
  match r with
  | .ok a t => p a t
  | .raised _ _ => false
  | .faulted _ => false
  | .refused _ => false

/-- The four registers a fault tells of (R137, R138). -/
def faultIs (o : Host.Outcome State Fault Refusal) (code sub : Nat) (ipos opos : Nat) : Bool :=
  nextIs o fun t => decide (t.status = .err ∧ t.errcode.toNat = code ∧ t.errsub.toNat = sub ∧
    t.ipos.toNat = ipos ∧ t.opos.toNat = opos)

/-- A reader over some bytes of IN from address 0 (section 2 of the vectors). -/
def reader (bytes : List Byte) (acc : Nat) (bcnt : BitVec 6) (ipos : Word32) : State :=
  { State.reset with
    acc := acc
    bcnt := bcnt
    ipos := ipos
    inLen := BitVec.ofNat 32 bytes.length
    input := memOf bytes }

/-- A run in its token phase: `n` bytes `b` emitted. -/
def running (b : Byte) (n : Nat) (dsize : Word32) (s : State) : State :=
  { s with
    status := .busy
    phase := .run
    dsize := dsize
    opos := BitVec.ofNat 32 n
    output := memOf (List.replicate n b) }

/-- The lengths of the table {'a':1, 256:1} of V29 and P2's kind. -/
def lenA : Vector Nibble 512 :=
  vectorOfList 512 0 (List.replicate 97 0 ++ [1] ++ List.replicate 158 0 ++ [1])

/-- The state of V29 after INIT, its `n` first bytes emitted, the accumulator and its count given. -/
def stateA (acc : Nat) (bcnt : BitVec 6) (n : Nat) : State :=
  running 0x61 n 4
    { State.reset with
      toDatapath := { builtFrom lenA with acc := acc, bcnt := bcnt }
      ipos := 260
      inLen := 260 }

/-! ## The Bit Reader: V1 to V8 -/

/-- V1. -/
theorem test_prime :
    okIs (prime Config.std (reader [0xd8, 0x52, 0x3e, 0xd7, 0x94, 0x11] 0 0 0))
      (fun _ t => decide (t.acc = 0x52d8d73e ∧ t.bcnt = 32 ∧ t.ipos = 4)) = true := by decide +kernel

/-- V2. -/
theorem test_peek :
    (List.map (fun n => (peek Config.std n (reader [] 0x52d8d73e 32 4)).toNat) [0, 1, 2, 5, 8, 15, 16]) =
      [0, 0, 1, 10, 82, 10604, 21208] := by decide +kernel

/-- V3, the fourth CONSUME(5). -/
theorem test_consume_refills :
    okIs (consume Config.std 5 (reader [0xd8, 0x52, 0x3e, 0xd7, 0x94, 0x11] 0x6b9f0000 17 4))
      (fun _ t => decide (t.acc = 0x73e11940 ∧ t.bcnt = 28 ∧ t.ipos = 6)) = true := by decide +kernel

/-- V5: a consume that lands on exactly 16 makes no refill. -/
theorem test_consume_lands_on_16 :
    okIs (consume Config.std 12 (reader (List.replicate 10 0x5f) 0x194e95b0 28 8))
      (fun _ t => decide (t.acc = 0xe95b0000 ∧ t.bcnt = 16 ∧ t.ipos = 8)) = true := by decide +kernel

/-- V6, the last CONSUME(16), and V7 with IN_LEN 3. -/
theorem test_reader_faults :
    faultIs (consume Config.std 16 (reader [0x34, 0x12, 0x78, 0x56, 0xbc, 0x9a] 0x9abc0000 16 6)).outcome 2 3 6 0 = true ∧
    faultIs (prime Config.std (reader [0x34, 0x12, 0x78] 0 0 0)).outcome 2 2 2 0 = true := by decide +kernel

/-- V8, third case: a refill from the odd address 5. -/
theorem test_refill_odd :
    okIs (consume Config.std 1 (reader [0x34, 0x12, 0x78, 0x56, 0x02, 0xcd, 0xab] 0x56780000 16 5))
      (fun _ t => decide (t.acc = 0xacf1579a ∧ t.bcnt = 31 ∧ t.ipos = 7)) = true := by decide +kernel

/-- V8: RDBYTE and RD16. -/
theorem test_extension_reads :
    okIs (rdByte (reader [0, 0, 0, 0, 0x02, 0xff, 0x29, 0x01] 0 32 4))
      (fun b t => decide (b = 0x02 ∧ t.ipos = 5)) = true ∧
    okIs (rd16 (reader [0, 0, 0, 0, 0x02, 0xff, 0x29, 0x01] 0 32 6))
      (fun v t => decide (v = 297 ∧ t.ipos = 8)) = true := by decide +kernel

/-! ## The Table Builder: V13, V17, V20, V24 -/

/-- The lengths of a table that begins with these bytes, the rest 00. -/
def lensOf (bytes : List Byte) : Vector Nibble 512 := vectorOfList 512 0 (unpackLengths .low bytes)

/-- V13: the low nibble is the even symbol's, and the four codes. -/
theorem test_build_nibble_order :
    (List.map (fun s => lenAt (lensOf [0x21, 0x33]) s) [0, 1, 2, 3, 4] = [1, 2, 3, 3, 0]) ∧
    ((codesOf (lensOf [0x21, 0x33])).toList.take 4 = [0b0, 0b10, 0b110, 0b111]) := by decide +kernel

/-- V24: a length no symbol has still takes part in the shift. -/
theorem test_first_codes :
    List.map (firstCode (countTable (lensOf [0, 0, 0x10, 0x33, 0x43, 0x04]))) [1, 2, 3, 4] = [0, 0b10, 0b100, 0b1110] := by
  decide +kernel

/-- V20, V21 and V19: overfull, incomplete, empty. -/
theorem test_classify_invalid :
    (kraftSum (countTable (lensOf [0x10, 0x11])) = 49152 ∧ kraftSum (countTable (lensOf [0x10, 0x02])) = 24576) ∧
    (classify 3 49152 = .invalid ∧ classify 2 24576 = .invalid ∧ classify 0 0 = .invalid) := by decide +kernel

/-- V18: one symbol of stated length 5. -/
theorem test_classify_degenerate :
    nonzeroCount (countTable (lensOf (List.replicate 45 0 ++ [0x05]))) = 1 ∧
    firstNonzero (lensOf (List.replicate 45 0 ++ [0x05])) = 0x5a ∧ classify 1 1024 = .degenerate := by decide +kernel

/-- The lengths of the a-to-z table, V17. -/
def lenAz : Vector Nibble 512 :=
  lensOf (List.replicate 48 0 ++ [0x50] ++ List.replicate 10 0x55 ++ [0x45, 0x44, 0x04] ++
    List.replicate 66 0 ++ [0x04])

/-- V25: three of its patterns. -/
theorem test_lookup :
    lookup (builtFrom lenAz) 10239 = some (256, 4) ∧ lookup (builtFrom lenAz) 10240 = some (0x61, 5) ∧
    lookup (builtFrom lenAz) 32767 = some (0x76, 5) := by decide +kernel

/-! ## The token forms -/

/-- V29, token 1: the codeword 0 is LIT 'a'. -/
theorem test_step_lit :
    nextIs (step (stateA 0x40000000 32 0)) (fun t => decide
      (t.acc = 0x80000000 ∧ t.bcnt = 31 ∧ t.ipos = 260 ∧ t.opos = 1 ∧ t.output = [(0, 0x61)])) = true := by
  decide +kernel

/-- A literal on a full output is one of the model's stops. -/
theorem test_lit_full : exec (.lit 0) State.reset = .fault .outputBeyondSize := rfl

/-- V29, token 2: the codeword 1 is symbol 256, an ordinary MATCH 3, 1. -/
theorem test_step_match :
    nextIs (step (stateA 0x80000000 31 1)) (fun t => decide
      (t.acc = 0 ∧ t.bcnt = 30 ∧ t.opos = 4 ∧ t.output = memOf [0x61, 0x61, 0x61, 0x61])) = true := by decide +kernel

/-- E1: a match as the first token is FormatError(2), and emits nothing. -/
theorem test_step_match_bad_distance : faultIs (step (stateA 0x80000000 32 0)) 1 2 260 0 = true := by decide +kernel

/-- P3, token 3, after its codeword: extension byte 02 at IN 0 here, one distance bit 0, 20 bytes of period 2. -/
theorem test_exec_matchX8 :
    nextIs (exec (.matchX8 1 0x02 0) { reader [0x02, 0x00, 0xa0] 0x11a7a000 20 0 with
        dsize := 32, opos := 2, output := memOf [0x61, 0x62] })
      (fun t => decide (t.acc = 0x234f4000 ∧ t.bcnt = 19 ∧ t.ipos = 1 ∧ t.opos = 22 ∧
        t.output = memOf (List.flatten (List.replicate 11 [0x61, 0x62])))) = true := by decide +kernel

/-- V37: no extension byte. -/
theorem test_exec_matchX8_short :
    faultIs (exec (.matchX8 0 0 0) (running 0x78 1 19 (reader [] 0 31 0))) 2 4 0 1 = true := by decide +kernel

/-- P4, token 2, with DSIZE 20: MLEN is 300, and the copy is clipped (R117). -/
theorem test_exec_matchX16 :
    nextIs (exec (.matchX16 0 297 0) (running 0x78 1 20 (reader [0xff, 0x29, 0x01] 0 30 0)))
      (fun t => decide (t.ipos = 3 ∧ t.opos = 20 ∧ t.mlen = 300 ∧ t.output = memOf (List.replicate 20 0x78))) = true := by
  decide +kernel

/-- V36 (b): the value 14. -/
theorem test_exec_matchX16_bad_extension :
    faultIs (exec (.matchX16 0 14 0) (running 0x78 1 19 (reader [0xff, 0x0e, 0x00] 0 30 0))) 1 3 3 1 = true := by
  decide +kernel

/-- V39: a match clipped at DSIZE, and the next step is FINISH. -/
theorem test_clipped :
    nextIs (exec (.matchM 0 7 0) (stateA 0 30 1)) (fun t => decide (t.opos = 4 ∧ t.mlen = 10) &&
      nextIs (step t) fun t => decide (t.status = .done ∧ t.opos = 4)) = true := by decide +kernel

/-! ## The host: I1, I5 and the launch -/

/-- I5: a write of 2 to CTRL has no effect, a write of 3 is START. -/
theorem test_start :
    nextIs (step { State.reset with moves := [.writeReg 0 2] }) (fun t => decide (t.status = .idle)) = true ∧
    nextIs (step { reader [0xaa, 0xbb] 0 0 0 with moves := [.writeReg 0 3], dsize := 11 })
      (fun t => decide (t.status = .busy ∧ t.phase = .init ∧ t.dsize = 11 ∧ t.inLen = 2)) = true := by decide +kernel

/-- I4: a START while BUSY is ignored. -/
theorem test_start_busy :
    nextIs (exec (.start 1) (stateA 0 30 1)) (fun t => decide (t.opos = 1 ∧ t.phase = .run)) = true := by decide +kernel

/-- I6: DSIZE is bytes 4 to 7 of the file, little-endian, and IN begins at its byte 8. -/
theorem test_launchFile :
    launchFile [1, 2, 3, 4, 0x0b, 0, 0, 0, 0xaa] =
      some [.writeIn 0 0xaa, .writeReg 5 1, .writeReg 4 11, .writeReg 0 1] := by decide

/-- P4's listing as R74 lays it out. -/
theorem test_assemble :
    spellRun 0x78 301 = some [.lit 0x78, .matchX16 0 297 0] ∧
    assembleStream (vectorOfList 512 0 (List.replicate 120 0 ++ [1] ++ List.replicate 150 0 ++ [1]))
      [.lit 0x78, .matchX16 0 297 0] = [0x00, 0x40, 0x00, 0x00, 0xff, 0x29, 0x01] := by decide +kernel

/-- The step runs a placed instruction as the first after reset (log 15). -/
theorem test_withFetchWord :
    nextIs (step (State.reset.withFetchWord 16 0x041)) (fun t => decide (t.output = [(0, 0x41)])) = true ∧
    nextIs (step (State.reset.withFetchWord 32 1)) (fun t => decide (t.status = .busy)) = true := by decide +kernel

/-! ## Witnesses: for each statement with hypotheses, states that meet all of them together, at the boundary of each clause -/

theorem outputReady_of_one {s : State} (h : s.opos.toNat = 1) (h' : (s.output.read 0).isSome = true) : OutputReady s := by
  intro a ha
  obtain rfl : a = 0 := by omega
  exact h'

theorem builtTable_A : BuiltTable (builtFrom lenA) :=
  ⟨by decide +kernel, rfl, rfl, _, rfl⟩

/-- LIT: the last place of OUT. -/
theorem witness_LitEmitsItsByte : ∃ s : State, s.opos.toNat < s.dsize.toNat ∧ s.opos.toNat + 1 = s.dsize.toNat :=
  ⟨{ State.reset with dsize := 1 }, by decide, by decide⟩

theorem witness_LitFrame : ∃ s t : State, exec (.lit 0x41) s = .next t := by
  obtain ⟨t, h, -⟩ := exists_of_nextIs (o := exec (.lit 0x41) { State.reset with dsize := 1 }) (p := fun _ => true) rfl
  exact ⟨_, t, h⟩

/-- A state in which one byte has been emitted and 16 bits are buffered: the next distance bit needs a refill. -/
def lowState (bytes : List Byte) : State := running 0x78 1 19 (reader bytes 0 16 0)

/-- MATCH at distance OPOS with no distance bit, and with one distance bit and a refill. -/
theorem witness_MatchCopies :
    (CanConsume 0 (lowState []) ∧ OutputReady (lowState []) ∧
      2 ^ (0 : Nibble).toNat + (0 : BitVec 15).toNat ≤ (lowState []).opos.toNat) ∧
    (CanConsume 1 { lowState [0, 0] with opos := 2, output := memOf [0x61, 0x62] } ∧
      2 ^ (1 : Nibble).toNat + (0 : BitVec 15).toNat ≤
        ({ lowState [0, 0] with opos := 2, output := memOf [0x61, 0x62] } : State).opos.toNat) := by
  refine ⟨⟨⟨by decide, by decide, by decide⟩, outputReady_of_one rfl rfl, by decide⟩,
    ⟨by decide, by decide, fun _ => ⟨by decide, rfl, rfl⟩⟩, by decide⟩

theorem witness_MatchX8Copies :
    (lowState [5]).ipos.toNat + 1 ≤ (lowState [5]).inLen.toNat ∧
    ((lowState [5]).input.read (lowState [5]).ipos.toNat).isSome = true ∧
    CanConsume (0 : Nibble).toNat (advance 1 (lowState [5])) ∧ OutputReady (lowState [5]) ∧
    2 ^ (0 : Nibble).toNat + (0 : BitVec 15).toNat ≤ (lowState [5]).opos.toNat :=
  ⟨by decide, rfl, ⟨by decide, by decide, by decide⟩, outputReady_of_one rfl rfl, by decide⟩

theorem bytes_three (a b c : Byte) : ∀ k : Nat, k < 3 →
    ((lowState [a, b, c]).input.read ((lowState [a, b, c]).ipos.toNat + k)).isSome = true := by
  intro k hk
  obtain rfl | rfl | rfl : k = 0 ∨ k = 1 ∨ k = 2 := by omega
  all_goals rfl

/-- MATCHX16 at the least legal value, 15. -/
theorem witness_MatchX16Copies :
    (lowState [0xff, 15, 0]).ipos.toNat + 3 ≤ (lowState [0xff, 15, 0]).inLen.toNat ∧
    (∀ k : Nat, k < 3 →
      ((lowState [0xff, 15, 0]).input.read ((lowState [0xff, 15, 0]).ipos.toNat + k)).isSome = true) ∧
    15 ≤ (15 : Word16).toNat ∧ CanConsume (0 : Nibble).toNat (advance 3 (lowState [0xff, 15, 0])) ∧
    OutputReady (lowState [0xff, 15, 0]) ∧
    2 ^ (0 : Nibble).toNat + (0 : BitVec 15).toNat ≤ (lowState [0xff, 15, 0]).opos.toNat :=
  ⟨by decide, bytes_three _ _ _, by decide, ⟨by decide, by decide, by decide⟩, outputReady_of_one rfl rfl, by decide⟩

/-- A match that completes, and one that faults. -/
theorem witness_MatchFrame :
    (∃ t, exec (.matchM 0 0 0) (lowState []) = .next t ∧ t.status = .busy) ∧
    (∃ t, exec (.matchM 0 0 0) State.reset = .next t ∧ t.status = .err) := by
  obtain ⟨t, h, e⟩ := exists_of_nextIs (o := exec (.matchM 0 0 0) (lowState [])) (p := fun t => decide (t.status = .busy))
    (by decide +kernel)
  exact ⟨⟨t, h, by simpa using e⟩, _, rfl, rfl⟩

/-- A distance one more than OPOS, for each form. -/
theorem witness_BadDistanceFaults :
    (lowState [0xff, 15, 0]).opos.toNat < 2 ^ (1 : Nibble).toNat + (0 : BitVec 15).toNat ∧
    CanConsume 1 { lowState [0xff, 15, 0] with bcnt := 17 } ∧
    CanConsume 1 (advance 1 { lowState [0xff, 15, 0] with bcnt := 17 }) ∧
    CanConsume 1 (advance 3 { lowState [0xff, 15, 0] with bcnt := 17 }) ∧
    CanConsume 1 (lowState [0xff, 15, 0]) ∧
    (lowState [0xff, 15, 0]).ipos.toNat + 3 ≤ (lowState [0xff, 15, 0]).inLen.toNat := by
  refine ⟨by decide, ⟨by decide, by decide, by decide⟩, ⟨by decide, by decide, by decide⟩,
    ⟨by decide, by decide, by decide⟩, ⟨by decide, by decide, fun _ => ⟨by decide, rfl, rfl⟩⟩, by decide⟩

/-- One byte left where a word is due, for each form. -/
theorem witness_RefillEmptyFaults :
    ((1 : Nibble).toNat ≤ (lowState [0]).bcnt.toNat ∧ refillDue (1 : Nibble).toNat (lowState [0]) ∧
      (lowState [0]).inLen.toNat < (lowState [0]).ipos.toNat + 2) ∧
    ((lowState [5, 0]).ipos.toNat + 1 ≤ (lowState [5, 0]).inLen.toNat ∧
      ((lowState [5, 0]).input.read (lowState [5, 0]).ipos.toNat).isSome = true ∧
      (lowState [5, 0]).inLen.toNat < (lowState [5, 0]).ipos.toNat + 3) ∧
    ((lowState [0xff, 15, 0, 0]).ipos.toNat + 3 ≤ (lowState [0xff, 15, 0, 0]).inLen.toNat ∧
      ((lowState [0xff, 15, 0, 0]).input.read 2).isSome = true ∧
      (lowState [0xff, 15, 0, 0]).inLen.toNat < (lowState [0xff, 15, 0, 0]).ipos.toNat + 5) := by decide +kernel

/-- No byte; only the 0xff; the 0xff and one byte more. -/
theorem witness_ExtensionShortFaults :
    (lowState []).inLen.toNat < (lowState []).ipos.toNat + 1 ∧
    ((lowState [0xff]).ipos.toNat + 1 ≤ (lowState [0xff]).inLen.toNat ∧
      ((lowState [0xff]).input.read (lowState [0xff]).ipos.toNat).isSome = true ∧
      (lowState [0xff]).inLen.toNat < (lowState [0xff]).ipos.toNat + 3) ∧
    ((lowState [0xff, 1]).ipos.toNat + 1 ≤ (lowState [0xff, 1]).inLen.toNat ∧
      (lowState [0xff, 1]).inLen.toNat < (lowState [0xff, 1]).ipos.toNat + 3) := by decide +kernel

theorem witness_BadExtensionFaults :
    (14 : Word16).toNat < 15 ∧ (lowState [0xff, 14, 0]).ipos.toNat + 3 ≤ (lowState [0xff, 14, 0]).inLen.toNat ∧
    ∀ k : Nat, k < 3 → ((lowState [0xff, 14, 0]).input.read ((lowState [0xff, 14, 0]).ipos.toNat + k)).isSome = true :=
  ⟨by decide, by decide, bytes_three _ _ _⟩

/-- StartLaunches, StartIgnored and StartFrame: START outside BUSY, IN holding the two bytes IN_LEN tells of, and while
BUSY, with bit 0 set and clear. -/
theorem witness_Start :
    (1 : Word32).getLsbD 0 = true ∧ (2 : Word32).getLsbD 0 = false ∧ (1 : Word32).getLsbD 0 = (3 : Word32).getLsbD 0 ∧
    (∃ s : State, s.status ≠ .busy ∧ s.inLen = 2 ∧ s.input.wf = true ∧ InputValid s) ∧ (lowState []).status = .busy ∧
    (∃ t, exec (.start 1) State.reset = .next t) ∧ ∃ t, exec (.start 2) State.reset = .next t :=
  ⟨by decide, by decide, by decide,
    ⟨reader [1, 2] 0 0 0, by decide, rfl, rfl, inputValid_of_filled (by decide)⟩, rfl, ⟨_, rfl⟩, ⟨_, rfl⟩⟩

/-- A capacity of 0 bytes and a size of 1. -/
theorem witness_LaunchOverCapacityRefused :
    ∃ (c : Config) (s : State), s.status ≠ .busy ∧ c.outCap < s.dsize.toNat :=
  ⟨{ Config.std with outCap := 0 }, { State.reset with dsize := 1 }, by decide, by decide⟩

/-- The last byte below IN_LEN holds no value; and each byte holds one. -/
theorem witness_LaunchInvalidInputRefused :
    (∃ s : State, s.status ≠ .busy ∧ s.dsize.toNat ≤ Config.std.outCap ∧ s.input.wf = true ∧ ¬ InputValid s) ∧
    (∃ s : State, s.status ≠ .busy ∧ s.dsize.toNat ≤ Config.std.outCap ∧ s.input.wf = true ∧ InputValid s) :=
  ⟨⟨{ reader [1, 2] 0 0 0 with inLen := 3 }, by decide, by decide, rfl, fun h => absurd (h 2 (by decide)) (by decide)⟩,
    reader [1, 2] 0 0 0, by decide, by decide, rfl, inputValid_of_filled (by decide)⟩

/-- A run that faults in one engine step. -/
theorem witness_FaultIsPrecise :
    ∃ s t : State, s.moves = [] ∧ s.status = .busy ∧ step s = .next t ∧ t.status = .err := by
  obtain ⟨t, h, e⟩ := exists_of_nextIs (o := step (launch State.reset)) (p := fun t => decide (t.status = .err))
    (by decide +kernel)
  exact ⟨_, t, rfl, rfl, h, by simpa using e⟩

/-- ERR and DONE left by a START and by a reset. -/
theorem witness_ErrIsLeftOnlyByTheHost :
    ∀ st ∈ [RunState.done, .err], ∀ m ∈ [HostMove.writeReg 0 1, .reset],
      ∃ s t : State, s.status = st ∧ s.moves = [m] ∧ step s = .next t ∧ t.status ≠ s.status := by
  intro st hst m hm
  simp only [List.mem_cons, List.not_mem_nil, or_false] at hst hm
  rcases hst with rfl | rfl <;> rcases hm with rfl | rfl
  all_goals exact ⟨{ State.reset with status := _, moves := [_] }, _, rfl, rfl, rfl, by decide⟩

/-- The host's moves of ResetAbandonsARun, RegisterReads, SizeWritesTakeEffect, WritesIgnoredWhileBusy,
ReadOnlyRegistersIgnoreWrites and ForbiddenAccessRefused: in each case a state with that move first and the status it asks for. -/
theorem witness_HostMoves :
    (∃ s : State, s.moves = [.reset]) ∧ (∃ s : State, s.moves = [.readReg 7]) ∧
    (∃ s : State, s.status ≠ .busy ∧ s.moves = [.writeReg 4 99]) ∧
    (∃ s : State, s.status ≠ .busy ∧ s.moves = [.writeReg 5 99]) ∧
    (∃ s : State, s.status = .busy ∧ s.moves = [.writeReg 0 1]) ∧
    (∃ s : State, s.moves = [.writeReg 1 0] ∧ ((1 : BitVec 3) = 1 ∨ (1 : BitVec 3) = 2)) ∧
    (∃ s : State, s.moves = [.writeReg 7 0] ∧ ((7 : BitVec 3) = 6 ∨ (7 : BitVec 3) = 7)) ∧
    (∃ s : State, s.status = .busy ∧ s.moves = [.writeIn 0 0]) ∧
    (∃ s : State, s.status = .busy ∧ s.moves = [.readIn 0]) ∧
    (∃ s : State, s.status ≠ .done ∧ s.moves = [.readOut 0]) ∧
    (∃ s : State, s.inLen.toNat ≤ (0 : Word32).toNat ∧ s.moves = [.readIn 0]) ∧
    (∃ s : State, s.dsize.toNat ≤ (0 : Word32).toNat ∧ s.moves = [.readOut 0]) :=
  ⟨⟨{ State.reset with moves := _ }, rfl⟩, ⟨{ State.reset with moves := _ }, rfl⟩,
    ⟨{ State.reset with moves := _ }, by simp [State.reset], rfl⟩,
    ⟨{ State.reset with moves := _ }, by simp [State.reset], rfl⟩,
    ⟨{ State.reset with status := .busy, moves := _ }, rfl, rfl⟩,
    ⟨{ State.reset with moves := _ }, rfl, by decide⟩, ⟨{ State.reset with moves := _ }, rfl, by decide⟩,
    ⟨{ State.reset with status := .busy, moves := _ }, rfl, rfl⟩,
    ⟨{ State.reset with status := .busy, moves := _ }, rfl, rfl⟩,
    ⟨{ State.reset with moves := _ }, by simp [State.reset], rfl⟩, ⟨{ State.reset with moves := _ }, by decide, rfl⟩,
    ⟨{ State.reset with moves := _ }, by decide, rfl⟩⟩

/-- A byte of IN written at address 0 and read back, and the last byte of OUT read in DONE. -/
theorem witness_AllowedAccessWorks :
    (∃ s : State, s.status ≠ .busy ∧ s.moves = [.writeIn 0 0x41]) ∧
    (∃ s : State, s.status ≠ .busy ∧ (0 : Word32).toNat < s.inLen.toNat ∧
      s.input.read (0 : Word32).toNat = some 0x41 ∧ s.moves = [.readIn 0]) ∧
    (∃ s : State, s.status = .done ∧ (0 : Word32).toNat < s.dsize.toNat ∧
      s.output.read (0 : Word32).toNat = some 0x41 ∧ s.moves = [.readOut 0]) :=
  ⟨⟨{ State.reset with moves := [.writeIn 0 0x41] }, by simp [State.reset], rfl⟩,
    ⟨{ State.reset with inLen := 1, input := [(0, 0x41)], moves := [.readIn 0] }, by simp [State.reset], by decide, rfl, rfl⟩,
    ⟨{ State.reset with status := .done, dsize := 1, output := [(0, 0x41)], moves := [.readOut 0] }, rfl, by decide, rfl, rfl⟩⟩

/-! ### The Bit Reader -/

theorem valid_std : Config.std.Valid :=
  ⟨by decide, by decide, by decide, by decide +kernel, fun n h => by cases h⟩

/-- PRIME with exactly four bytes, and with 0, 1, 2 and 3 (V7). -/
theorem witness_PrimeLoadsTwoWords :
    (let s := reader [0x34, 0x12, 0x78, 0x56] 0 0 0;
      s.ipos.toNat + 4 ≤ s.inLen.toNat ∧ s.input.read s.ipos.toNat = some 0x34 ∧
      s.input.read (s.ipos.toNat + 1) = some 0x12 ∧ s.input.read (s.ipos.toNat + 2) = some 0x78 ∧
      s.input.read (s.ipos.toNat + 3) = some 0x56) ∧
    ∀ k : Fin 4, let s := reader (List.replicate k.val 0) 0 0 0;
      s.ipos.toNat ≤ s.inLen.toNat ∧ s.inLen.toNat < s.ipos.toNat + 4 := by decide +kernel

theorem witness_PeeksAreConsistent : Config.std.Valid ∧ ∃ m n : Nat, 0 < m ∧ m ≤ n ∧ n ≤ 16 ∧ n = 16 :=
  ⟨valid_std, 16, 16, by decide⟩

theorem readerInv_32 : ReaderInv Config.std (reader [0, 0] 0 32 0) :=
  ⟨by decide, by decide, by decide, by decide⟩

theorem readerInv_16 : ReaderInv Config.std (reader [0, 0] 0 16 0) :=
  ⟨by decide, by decide, by decide, by decide⟩

/-- CONSUME(16) from 16 bits with its refill. -/
theorem witness_ConsumeKeepsTheReader :
    Config.std.Valid ∧ ∃ s t : State, ReaderInv Config.std s ∧ consume Config.std 16 s = .ok () t :=
  ⟨valid_std, _, wordLoaded Config.std (wordOfBytes 0 0) (dropBits Config.std 16 (reader [0, 0] 0 16 0)), readerInv_16, rfl⟩

/-- A refill due with one byte left. -/
theorem witness_ConsumeUnderflows :
    let s := reader [0] 0 16 0
    16 ≤ s.bcnt.toNat ∧ refillDue 1 s ∧ s.inLen.toNat < s.ipos.toNat + 2 := by decide

theorem witness_ConsumeBitByBit : Config.std.Valid ∧ (16 ≤ 16) ∧ ReaderInv Config.std (reader [0, 0] 0 16 0) :=
  ⟨valid_std, by decide, readerInv_16⟩

/-- Two consumes from a primed state, the second with a refill. -/
theorem witness_PositionLaw :
    ∃ t, (∀ n ∈ [16, 1], n ≤ 16) ∧ ReaderInv Config.std (reader [0, 0] 0 32 0) ∧ (reader [0, 0] 0 32 0).bcnt.toNat = 32 ∧
      (reader [0, 0] 0 32 0).ipos.toNat ≤ (reader [0, 0] 0 32 0).inLen.toNat ∧
      consumeList Config.std [16, 1] (reader [0, 0] 0 32 0) = .ok () t := by
  exact ⟨_, by decide, readerInv_32, by decide, by decide, rfl⟩

/-! ### Tables -/

/-- The lengths of the four cases: none, one symbol of length 15, three of length 1, and a complete code. -/
theorem witness_BuildJudgesTheTable :
    codedSymbols (vectorOfList 512 0 []) = 0 ∧ codedSymbols (vectorOfList 512 0 [15]) = 1 ∧
    (2 ≤ codedSymbols (vectorOfList 512 0 [1, 1, 1]) ∧ symbolKraft (vectorOfList 512 0 [1, 1, 1]) ≠ 32768) ∧
    (2 ≤ codedSymbols (vectorOfList 512 0 [15, 15]) ∧ symbolKraft (vectorOfList 512 0 [15, 15]) ≠ 32768) ∧
    (2 ≤ codedSymbols lenA ∧ symbolKraft lenA = 32768) := by decide +kernel

/-- FirstCodesRecurrence, CodesAreConsecutive, CodesFitTheirLengths and LookupFindsTheOneSymbol: a built table with a coded
symbol, whose greatest used length is 1. -/
theorem witness_BuiltTable :
    BuiltTable (builtFrom lenA) ∧ lenAt lenA 256 ≠ 0 ∧ cntAt (builtFrom lenA).cnt 1 ≠ 0 ∧
    ∀ k : Fin 16, 1 < k.val → cntAt (builtFrom lenA).cnt k.val = 0 :=
  ⟨builtTable_A, by decide +kernel, by decide +kernel, by decide +kernel⟩

theorem witness_DegenerateSymbolIsFree : ∃ s : State, s.degen = true :=
  ⟨{ State.reset with degen := true }, rfl⟩

theorem codeBegins_a : CodeBegins (builtFrom lenA) 0 0x61 ∧ CodeBegins (builtFrom lenA) 0b100000000000000 0x100 := by
  unfold CodeBegins
  decide +kernel

/-- The codeword 0 with the bits it needs, and with a refill due and no word left. -/
theorem witness_SymbolConsumesItsCodeword :
    (∃ s : State, s.degen = false ∧ BuiltTable s.toDatapath ∧ ReaderInv Config.std s ∧
      CodeBegins s.toDatapath (window Config.std s) 0x61 ∧
      CanConsume (lenAt s.len (0x61 : Sym).toNat) s) ∧
    (∃ s : State, s.degen = false ∧ BuiltTable s.toDatapath ∧ ReaderInv Config.std s ∧
      CodeBegins s.toDatapath (window Config.std s) 0x61 ∧
      refillDue (lenAt s.len (0x61 : Sym).toNat) s ∧ s.inLen.toNat < s.ipos.toNat + 2) := by
  have hl : lenAt lenA (0x61 : Sym).toNat = 1 := by decide +kernel
  have hc : ∀ bcnt : BitVec 6, CodeBegins (stateA 0 bcnt 0).toDatapath (window Config.std (stateA 0 bcnt 0)) 0x61 := by
    intro bcnt
    have hw : window Config.std (stateA 0 bcnt 0) = 0 := by simp [window, peek, stateA, running]
    rw [hw]
    exact codeBegins_a.1
  have hb : ∀ bcnt : BitVec 6, BuiltTable (stateA 0 bcnt 0).toDatapath := fun _ =>
    ⟨builtTable_A.complete, rfl, rfl, _, rfl⟩
  refine ⟨⟨stateA 0 32 0, rfl, hb _, ⟨by decide, by decide, by decide, by decide⟩, hc _, ?_⟩,
    ⟨stateA 0 16 0, rfl, hb _, ⟨by decide, by decide, by decide, by decide⟩, hc _, ?_, by decide⟩⟩
  · show CanConsume (lenAt lenA (0x61 : Sym).toNat) _
    rw [hl]
    exact ⟨by decide, by decide, by decide⟩
  · show refillDue (lenAt lenA (0x61 : Sym).toNat) _
    rw [hl]
    decide
/-! ### The engine and its runs -/

/-- A payload: a table's bytes, those it lacks 0, and a stream. -/
def payload (table stream : List Byte) : List Byte := table ++ List.replicate (256 - table.length) 0 ++ stream

/-- The table bytes of {'a':1, 256:1}: bytes 48 and 128 (V29). -/
def bytesA : List Byte := List.replicate 48 0 ++ [0x10] ++ List.replicate 79 0 ++ [0x01]

theorem launched_inLen (bytes : List Byte) (dsize : Word32) (h : bytes.length < 2 ^ 32) :
    (launched bytes dsize).inLen.toNat = bytes.length := by
  simp only [launched, launch_inLen, BitVec.toNat_ofNat]
  exact Nat.mod_eq_of_lt h

theorem launched_ipos (bytes : List Byte) (dsize : Word32) : (launched bytes dsize).ipos.toNat = 0 := rfl

theorem inputValid_launched (bytes : List Byte) (dsize : Word32) (h : bytes.length < 2 ^ 32) :
    InputValid (launched bytes dsize) := by
  intro a ha
  rw [launched_inLen bytes dsize h] at ha
  simp only [launched, launch_input, memOf, Mem.read_writeBytes]
  rw [if_pos (by omega)]
  simpa using ha

theorem inv_launched (bytes : List Byte) (dsize : Word32) (h : bytes.length < 2 ^ 32) :
    Inv Config.std (launched bytes dsize) where
  inputWf := Mem.wf_writeBytes bytes [] 0 rfl (by omega)
  outputWf := rfl
  errors := .inr ⟨by simp [launched], rfl, rfl⟩
  running := fun _ => ⟨Nat.zero_le _, Nat.zero_le _, fun a => by simp [launched]⟩
  valid := fun _ => inputValid_launched bytes dsize h
  reader := fun _ hp => by cases hp
  table := fun _ hp => by cases hp

/-- The code lengths of a payload's first 256 bytes. -/
def loadedLens (bytes : List Byte) : Vector Nibble 512 := vectorOfList 512 0 (unpackLengths .low (bytes.take 256))

/-- LOADTABLE on a launched payload. -/
theorem loadTable_launched (bytes : List Byte) (dsize : Word32) (h : bytes.length < 2 ^ 32) (h' : 256 ≤ bytes.length) :
    loadTable Config.std (launched bytes dsize) =
      .ok () (advance 256 (setLengths (loadedLens bytes) (launched bytes dsize))) := by
  have hl : inputLeft Config.tableBytes (launched bytes dsize) = true := by
    rw [inputLeft_iff, launched_inLen bytes dsize h]
    simpa [launched] using h'
  have hr : (launched bytes dsize).input.readBytes (launched bytes dsize).ipos.toNat Config.tableBytes =
      some (bytes.take 256) := Mem.readBytes_writeBytes bytes [] 0 256 h'
  unfold loadTable
  rw [if_pos hl, hr]
  rfl

/-- The class of the lengths some bytes hold. -/
def classOf (bytes : List Byte) : TableClass :=
  classify (nonzeroCount (countTable (loadedLens bytes))) (kraftSum (countTable (loadedLens bytes)))

theorem build_loaded_complete (bytes : List Byte) (s : State) (h : classOf bytes = .complete) :
    build (advance 256 (setLengths (loadedLens bytes) s)) =
      .ok () (setCodes (count (advance 256 (setLengths (loadedLens bytes) s)))) := by
  rcases build_cases (advance 256 (setLengths (loadedLens bytes) s)) with ⟨e, -⟩ | ⟨e, -⟩ | ⟨-, e⟩
  · exact absurd (h.symm.trans e) (by decide)
  · exact absurd (h.symm.trans e) (by decide)
  · exact e

theorem build_loaded_invalid (bytes : List Byte) (s : State) (h : classOf bytes = .invalid) :
    build (advance 256 (setLengths (loadedLens bytes) s)) =
      .raised .tableInvalid (count (advance 256 (setLengths (loadedLens bytes) s))) := by
  rcases build_cases (advance 256 (setLengths (loadedLens bytes) s)) with ⟨-, e⟩ | ⟨e, -⟩ | ⟨e, -⟩
  · exact e
  · exact absurd (h.symm.trans e) (by decide)
  · exact absurd (h.symm.trans e) (by decide)

theorem classOf_A : classOf (payload bytesA [0, 0, 0]) = .complete ∧
    classOf (payload bytesA [0, 0x40, 0, 0]) = .complete ∧ classOf (payload [] []) = .invalid := by decide +kernel

theorem payload_lengths : (payload bytesA [0, 0, 0]).length = 259 ∧ (payload bytesA [0, 0x40, 0, 0]).length = 260 ∧
    (payload [] []).length = 256 := by decide +kernel

/-- INIT's three faults, each at the greatest IN_LEN that gives it: 255 bytes; an empty table and no stream; a good table
and 3 stream bytes. -/
theorem witness_InitFaultOrder :
    (∃ s : State, s.moves = [] ∧ s.status = .busy ∧ s.phase = .init ∧ s.ipos.toNat ≤ s.inLen.toNat ∧ InputValid s ∧
      s.inLen.toNat < s.ipos.toNat + 256) ∧
    (∃ s t₁ t₂ : State, s.moves = [] ∧ s.status = .busy ∧ s.phase = .init ∧ s.ipos.toNat ≤ s.inLen.toNat ∧
      InputValid s ∧ loadTable Config.std s = .ok () t₁ ∧ build t₁ = .raised .tableInvalid t₂) ∧
    (∃ s t₁ t₂ : State, s.moves = [] ∧ s.status = .busy ∧ s.phase = .init ∧ s.ipos.toNat ≤ s.inLen.toNat ∧
      InputValid s ∧ loadTable Config.std s = .ok () t₁ ∧ build t₁ = .ok () t₂ ∧
      s.inLen.toNat < s.ipos.toNat + 260) := by
  obtain ⟨l₁, -, l₃⟩ := payload_lengths
  refine ⟨⟨launched (List.replicate 255 0) 0, rfl, rfl, rfl, Nat.zero_le _, inputValid_launched _ _ (by rw [List.length_replicate]; omega), ?_⟩,
    ⟨launched (payload [] []) 0, _, _, rfl, rfl, rfl, Nat.zero_le _, inputValid_launched _ _ (by omega),
      loadTable_launched _ _ (by omega) (by omega), build_loaded_invalid _ _ classOf_A.2.2⟩,
    ⟨launched (payload bytesA [0, 0, 0]) 0, _, _, rfl, rfl, rfl, Nat.zero_le _, inputValid_launched _ _ (by omega),
      loadTable_launched _ _ (by omega) (by omega), build_loaded_complete _ _ classOf_A.1, ?_⟩⟩
  · rw [launched_inLen _ _ (by rw [List.length_replicate]; omega), launched_ipos, List.length_replicate]
    omega
  · rw [launched_inLen _ _ (by omega), l₁, launched_ipos]
    omega

theorem witness_UnpackingLaw : ∃ s t : State, loadTable Config.std s = .ok () t := by
  obtain ⟨-, -, l₃⟩ := payload_lengths
  exact ⟨_, _, loadTable_launched (payload [] []) 0 (by omega) (by omega)⟩

/-- Exactly four stream bytes, with one table and with blocks of 2^32 bytes. -/
theorem witness_InitCompletes :
    ∀ b ∈ [none, some (2 ^ 32)], let c := { Config.std with blockLen := b }
      ∃ s t₁ t₂ : State, c.Valid ∧ s.moves = [] ∧ s.status = .busy ∧ s.phase = .init ∧ InputValid s ∧
        s.ipos.toNat + 256 + 2 * c.primeWords ≤ s.inLen.toNat ∧ loadTable c s = .ok () t₁ ∧ build t₁ = .ok () t₂ := by
  intro b hb c
  obtain ⟨-, l₂, -⟩ := payload_lengths
  have hl : ∀ s : State, loadTable c s = loadTable Config.std s := fun s => by unfold loadTable; rfl
  refine ⟨launched (payload bytesA [0, 0x40, 0, 0]) 4, _, _, ⟨valid_std.1, valid_std.2.1, valid_std.2.2.1, valid_std.2.2.2.1,
      fun n h => ?_⟩, rfl, rfl, rfl, inputValid_launched _ _ (by omega), ?_,
    (hl _).trans (loadTable_launched _ _ (by omega) (by omega)), build_loaded_complete _ _ classOf_A.2.1⟩
  · have h' : b = some n := h
    simp only [List.mem_cons, List.not_mem_nil, or_false] at hb
    rcases hb with hb | hb <;> rw [hb] at h'
    · cases h'
    · rw [← Option.some.inj h']
      decide
  · rw [launched_inLen _ _ (by omega), l₂, launched_ipos]
    exact show 0 + 256 + 2 * 2 ≤ 260 by decide

theorem witness_DispatchFinishesFirst :
    ∃ s : State, s.moves = [] ∧ s.status = .busy ∧ s.phase = .run ∧ s.opos = s.dsize :=
  ⟨running 0 0 0 State.reset, rfl, rfl, rfl, rfl⟩

/-- A literal of the degenerate table of the symbol 0x5a (P5); a codeword whose refill finds no word; a match of the
degenerate table of the symbol 271 without its extension byte, and with only the 0xff. -/
theorem witness_StepRunsTheDecodedInstruction :
    (∃ (s s₁ s₂ : State) (sym : Sym) (bytes : List Byte) (i : Instr), s.moves = [] ∧ s.status = .busy ∧ s.phase = .run ∧
      s.opos ≠ s.dsize ∧ decodeSym Config.std s = .ok sym s₁ ∧ readExtension Config.std sym s₁ = .ok bytes s₂ ∧
      decode Config.std (.token sym bytes (window Config.std s₁)) = .ok i) ∧
    (∃ (s s₁ : State) (f : FaultCause), s.moves = [] ∧ s.status = .busy ∧ s.phase = .run ∧ s.opos ≠ s.dsize ∧
      decodeSym Config.std s = .raised f s₁) ∧
    (∀ bytes ∈ [[], [0xff]], ∃ (s s₁ s₂ : State) (sym : Sym) (f : FaultCause), s.inLen.toNat = bytes.length ∧
      s.moves = [] ∧ s.status = .busy ∧ s.phase = .run ∧ s.opos ≠ s.dsize ∧ decodeSym Config.std s = .ok sym s₁ ∧
      readExtension Config.std sym s₁ = .raised f s₂) := by
  refine ⟨⟨running 0 0 5 { State.reset with degen := true, dsym := 0x5a }, _, _, 0x5a, [], .lit 0x5a, rfl, rfl, rfl,
    by decide, rfl, rfl, rfl⟩, ?_, fun bytes hb => ?_⟩
  · have h : (match decodeSym Config.std (stateA 0 16 0) with | .raised _ _ => true | _ => false) = true := by
      decide +kernel
    cases hd : decodeSym Config.std (stateA 0 16 0) with
    | raised f s₁ => exact ⟨_, s₁, f, rfl, rfl, rfl, by decide, hd⟩
    | ok _ _ => rw [hd] at h; cases h
    | faulted _ => rw [hd] at h; cases h
    | refused _ => rw [hd] at h; cases h
  · simp only [List.mem_cons, List.not_mem_nil, or_false] at hb
    rcases hb with rfl | rfl
    · exact ⟨running 0 1 5 { reader [] 0 32 0 with degen := true, dsym := 271 }, _, _, 271, _, rfl, rfl, rfl, rfl,
        by decide, rfl, rfl⟩
    · exact ⟨running 0 1 5 { reader [0xff] 0 32 0 with degen := true, dsym := 271 }, _, _, 271, _, rfl, rfl, rfl, rfl,
        by decide, rfl, rfl⟩

theorem witness_StepRunsTheCommand :
    ∃ s : State, s.moves = [.writeReg 0 1] ∧ (1 : Word32).getLsbD 0 = true :=
  ⟨{ State.reset with moves := _ }, rfl, by decide⟩

/-- Four bytes emitted of nine in blocks of four (V46): BEND is reached exactly; BEND is one byte off; and the same with
one table. -/
theorem witness_BlockSwitch :
    (∃ (c : Config) (s : State), c.blockLen = some 4 ∧ s.moves = [] ∧ s.status = .busy ∧ s.phase = .run ∧
      s.opos ≠ s.dsize ∧ s.bend.toNat = s.opos.toNat) ∧
    (∃ (c : Config) (s : State), c.blockLen = some 4 ∧ s.moves = [] ∧ s.status = .busy ∧ s.phase = .run ∧
      s.opos ≠ s.dsize ∧ s.opos.toNat + 1 = s.bend.toNat) ∧
    (∃ s : State, Config.std.blockLen = none ∧ s.moves = [] ∧ s.status = .busy ∧ s.phase = .run ∧ s.opos ≠ s.dsize) :=
  ⟨⟨{ Config.std with blockLen := some 4 }, running 0x41 4 9 { State.reset with bend := 4 }, rfl, rfl, rfl, rfl,
      by decide, by decide⟩,
    ⟨{ Config.std with blockLen := some 4 }, running 0x41 3 9 { State.reset with bend := 4 }, rfl, rfl, rfl, rfl,
      by decide, by decide⟩,
    ⟨running 0x41 4 9 State.reset, rfl, rfl, rfl, rfl, by decide⟩⟩

/-- EngineLeavesTheInput, PositionsMoveForward and OutputGrowsInOrder: a token step of a run at its last byte. -/
theorem witness_EngineSteps :
    ∃ s t : State, s.moves = [] ∧ s.status = .busy ∧ s.ipos.toNat ≤ s.inLen.toNat ∧ s.opos.toNat ≤ s.dsize.toNat ∧
      stepIn Config.std s = .next t :=
  ⟨running 0 4 5 { State.reset with degen := true, dsym := 0x5a }, _, rfl, rfl, by decide, by decide, rfl⟩

/-- Two states that differ in MLEN, in the bytes of IN below IPOS and in those of OUT from OPOS on. -/
theorem witness_TokenDependsOnItsInputs :
    ∃ s s' t : State, SameForToken s s' ∧ s ≠ s' ∧ tokenStep Config.std exec s = .next t := by
  refine ⟨running 0 1 5 { State.reset with degen := true, dsym := 0x5a, ipos := 1, inLen := 1 },
    { running 0 1 5 { State.reset with degen := true, dsym := 0x5a, ipos := 1, inLen := 1 } with
      mlen := 7, input := [(0, 0x41)], output := [(0, 0), (3, 0x42)] }, _,
    ⟨rfl, rfl, rfl, rfl, rfl, rfl, rfl, rfl, rfl, rfl, rfl, rfl, rfl, rfl, ?_, ?_⟩,
    fun h => absurd (congrArg (fun s : State => s.mlen) h) (by decide), rfl⟩
  · intro a ha
    have : 1 ≤ a := ha
    simp [running, State.reset, Mem.read, show a ≠ 0 by omega]
  · intro a ha
    obtain rfl : a = 0 := by
      have : a < 1 := ha
      omega
    rfl

/-! ### Invariants and runs -/

/-- The invariant in a run's token phase, with a built table and an empty IN. -/
theorem inv_stateA : Inv Config.std { stateA 0x40000000 32 0 with inLen := 0, ipos := 0 } where
  inputWf := rfl
  outputWf := rfl
  errors := .inr ⟨by simp [stateA, running], rfl, rfl⟩
  running := fun _ => ⟨by decide, by decide, fun a => by simp [stateA, Tests.running, memOf, Mem.writeBytes]⟩
  valid := fun _ a ha => absurd ha (Nat.not_lt_zero a)
  reader := fun _ _ => ⟨by decide, by decide, by decide, by decide⟩
  table := fun _ _ _ => ⟨builtTable_A.complete, rfl, rfl, _, rfl⟩

theorem witness_StepKeepsTheInvariant :
    Config.std.Valid ∧ (∃ s t : State, Inv Config.std s ∧ step s = .next t) ∧
    ∃ s t : State, Inv Config.std s ∧ stepIn Config.std s = .next t := by
  obtain ⟨t, h, -⟩ := exists_of_nextIs (o := step { stateA 0x40000000 32 0 with inLen := 0, ipos := 0 })
    (p := fun t => decide (t.opos = 1)) (by decide +kernel)
  exact ⟨valid_std, ⟨_, t, inv_stateA, h⟩, ⟨_, t, inv_stateA, h⟩⟩

theorem witness_NoStepFaults : Config.std.Valid ∧ ∃ s : State, Inv Config.std s ∧ s.status = .busy :=
  ⟨valid_std, _, inv_stateA, rfl⟩

/-- BusyStepsMakeProgress and EveryRunEnds: a run in its token phase, and a launched one. -/
theorem witness_Runs :
    (∃ s : State, Inv Config.std s ∧ s.status = .busy ∧ s.phase = .run ∧ s.moves = []) ∧
    ∃ s : State, Inv Config.std s ∧ s.status = .busy ∧ s.phase = .init ∧ s.moves = [] := by
  obtain ⟨-, l₂, -⟩ := payload_lengths
  exact ⟨⟨_, inv_stateA, rfl, rfl, rfl⟩,
    launched (payload bytesA [0, 0x40, 0, 0]) 4, inv_launched _ _ (by omega), rfl, rfl, rfl⟩

/-! ### Encoding -/

/-- The greatest match of each form, with every padding bit set. -/
theorem witness_DecodeEncode :
    (Instr.matchM 1 14 1).wellFormed = true ∧ (∀ value, Instr.matchM 1 14 1 ≠ .start value) ∧
    (0x3fff : BitVec 15).toNat < 2 ^ (15 - (tokenExtra (.matchM 1 14 1)).1) :=
  ⟨by decide, by simp, by decide⟩

/-- Lengths and distances at the ends of their ranges and of each form. -/
theorem witness_EveryMatchCanBeSpelled :
    spellMatch 3 1 = some (.matchM 0 0 0) ∧ spellMatch 17 65535 = some (.matchM 15 14 32767) ∧
    spellMatch 18 1 = some (.matchX8 0 0 0) ∧ spellMatch 272 2 = some (.matchX8 1 254 0) ∧
    spellMatch 273 1 = some (.matchX16 0 270 0) ∧ spellMatch 65538 65535 = some (.matchX16 15 65535 32767) ∧
    ((32767 : BitVec 15).toNat < 2 ^ (15 : Nibble).toNat ∧
      distance Config.std 15 32767 = distance Config.std 15 32767) := by
  decide +kernel

/-- V29's listing over its table. -/
theorem witness_AssembledListingDecodes :
    CompleteTable lenA ∧
    (∀ i ∈ [Instr.lit 0x61, .matchM 0 0 0], i.wellFormed = true ∧ lenAt lenA (tokenSym i).toNat ≠ 0) ∧
    expandListing [Instr.lit 0x61, .matchM 0 0 0] [] = some [0x61, 0x61, 0x61, 0x61] ∧
    (assemble lenA [Instr.lit 0x61, .matchM 0 0 0]).length < 2 ^ 32 := by decide +kernel

end Sys2Proof.Tests
end

section
/-! PROOF. Every step keeps the invariant. Each operation is given one lemma that says how it may end: with a value in a
state of the invariant, or with a raise in a state whose memories are canonical, which is all that fault entry needs
(60_exceptions.md R137). A step is then put together from its operations. -/

namespace Sys2Proof.Machine

variable {c : Config} {s t : State} {α β : Type}

/-! ## How an operation may end -/

/-- Both memories are in canonical form. -/
def MemoriesWf (s : State) : Prop := s.input.wf = true ∧ s.output.wf = true

/-- A value leaves a state of `P`, and a raise leaves canonical memories; a stop of the model leaves no state. -/
inductive Res.Ends (P : State → Prop) : Res α → Prop
  | ok {a : α} {t : State} : P t → Res.Ends P (.ok a t)
  | raised {f : FaultCause} {t : State} : MemoriesWf t → Res.Ends P (.raised f t)
  | faulted {r : Fault} : Res.Ends P (.faulted r)
  | refused {r : Refusal} : Res.Ends P (.refused r)

theorem Res.Ends.of_ok {P : State → Prop} {a : α} (h : (Res.ok a t).Ends P) : P t := by
  cases h with
  | ok h => exact h

theorem Res.Ends.of_raised {P : State → Prop} {f : FaultCause} (h : (Res.raised f t : Res α).Ends P) :
    MemoriesWf t := by
  cases h with
  | raised h => exact h

theorem Res.Ends.bind {P Q : State → Prop} {r : Res α} {k : α → State → Res β} (h : r.Ends P)
    (hk : ∀ a s, P s → (k a s).Ends Q) : (r.bind k).Ends Q := by
  cases h with
  | ok h => exact hk _ _ h
  | raised h => exact .raised h
  | faulted => exact .faulted
  | refused => exact .refused

theorem Inv.memoriesWf (h : Inv c s) : MemoriesWf s := ⟨h.inputWf, h.outputWf⟩

/-- In a state that is not BUSY the invariant is three facts. -/
theorem inv_of_not_busy (hb : s.status ≠ .busy) (hwf : MemoriesWf s) (he : ErrorRegsAgree s) : Inv c s where
  inputWf := hwf.1
  outputWf := hwf.2
  errors := he
  running := fun h => absurd h hb
  valid := fun h => absurd h hb
  reader := fun h => absurd h hb
  table := fun h => absurd h hb

/-- Fault entry makes the invariant hold: ERR with the cause's own code and sub-cause. -/
theorem inv_enterFault (f : FaultCause) (h : MemoriesWf s) : Inv c (enterFault f s) :=
  inv_of_not_busy (by simp) h (.inl ⟨rfl, f, rfl, rfl⟩)

theorem Res.Ends.inv_of_next {r : Res α} (h : r.Ends (Inv c)) (ht : r.outcome = .next t) : Inv c t := by
  rcases Res.outcome_eq_next ht with ⟨a, rfl⟩ | ⟨f, s, rfl, rfl⟩
  · exact h.of_ok
  · exact inv_enterFault f h.of_raised

/-! ## Updates of the state that keep the invariant -/

/-- `t` differs from `s` in the datapath and in IPOS only. -/
def DatapathMoved (s t : State) : Prop := t = { s with toDatapath := t.toDatapath, ipos := t.ipos }

theorem ReaderInv.congr (h : ReaderInv c s) (hacc : t.acc = s.acc) (hbcnt : t.bcnt = s.bcnt) : ReaderInv c t := by
  obtain ⟨h₁, h₂, h₃, h₄⟩ := h
  rw [← hbcnt] at h₁ h₂ h₄
  rw [← hacc] at h₃ h₄
  exact ⟨h₁, h₂, h₃, h₄⟩

theorem BuiltTable.congr {d d' : Datapath} (h : BuiltTable d) (hlen : d'.len = d.len) (hcnt : d'.cnt = d.cnt)
    (hfirst : d'.first = d.first) (hcode : d'.code = d.code) : BuiltTable d' := by
  obtain ⟨h₁, h₂, h₃, h₄⟩ := h
  rw [← hlen] at h₁ h₂
  rw [← hcnt] at h₂ h₃
  rw [← hfirst] at h₃
  rw [← hlen, ← hfirst, ← hcode] at h₄
  exact ⟨h₁, h₂, h₃, h₄⟩

/-- What an update of the datapath and of IPOS owes to the invariant. -/
theorem Inv.of_datapathMoved (h : Inv c s) (hm : DatapathMoved s t)
    (hpos : t.status = .busy → t.ipos.toNat ≤ t.inLen.toNat)
    (hreader : t.status = .busy → t.phase = .run → ReaderInv c t)
    (htable : t.status = .busy → t.phase = .run → t.degen = false → BuiltTable t.toDatapath) : Inv c t := by
  rw [hm] at hpos ⊢
  exact {
    inputWf := h.inputWf
    outputWf := h.outputWf
    errors := h.errors
    running := fun hb => ⟨(h.running hb).oposLe, hpos hb, (h.running hb).filled⟩
    valid := h.valid
    reader := hm ▸ hreader
    table := hm ▸ htable }

/-- While INIT is pending nothing is claimed of the datapath. -/
theorem Inv.of_pending (h : Inv c s) (hm : DatapathMoved s t) (hpos : t.ipos = s.ipos) (hp : t.phase = .init) :
    Inv c t := by
  refine h.of_datapathMoved hm (fun hb => ?_) (fun _ hrun => ?_) (fun _ hrun => ?_)
  · rw [hm] at hb
    rw [hpos, hm]
    exact (h.running hb).iposLe
  all_goals exact absurd (hp.symm.trans hrun) (by decide)

/-- The invariant says nothing of the four temporaries of a token, R18. -/
theorem Inv.temporaries (h : Inv c s) (sym : Sym) (mlen : BitVec 17) (mdist : BitVec 16) (mrem : BitVec 17) :
    Inv c { s with sym := sym, mlen := mlen, mdist := mdist, mrem := mrem } :=
  h.of_datapathMoved rfl (fun hb => (h.running hb).iposLe) (fun hb hp => (h.reader hb hp).congr rfl rfl)
    (fun hb hp hd => (h.table hb hp hd).congr rfl rfl rfl rfl)

/-- Nor anything of the host's moves and of what its latest read returned. -/
theorem Inv.hostSide (h : Inv c s) (moves : List HostMove) (readData : Word32) :
    Inv c { s with moves := moves, readData := readData } where
  inputWf := h.inputWf
  outputWf := h.outputWf
  errors := h.errors
  running := fun hb => ⟨(h.running hb).oposLe, (h.running hb).iposLe, (h.running hb).filled⟩
  valid := h.valid
  reader := fun hb hp => (h.reader hb hp).congr rfl rfl
  table := h.table

/-- A move of the bit reader keeps the invariant when it stays within IN and keeps R83. -/
theorem Inv.readerMoved {acc : Nat} {bcnt : BitVec 6} {ipos : Word32} (h : Inv c s)
    (hpos : s.status = .busy → ipos.toNat ≤ s.inLen.toNat)
    (hreader : s.status = .busy → s.phase = .run → ReaderInv c (readerMoved acc bcnt ipos s)) :
    Inv c (readerMoved acc bcnt ipos s) :=
  h.of_datapathMoved rfl hpos hreader (fun hb hp hd => (h.table hb hp hd).congr rfl rfl rfl rfl)

theorem Inv.advance {n : Nat} (h : Inv c s) (hn : s.ipos.toNat + n ≤ s.inLen.toNat) : Inv c (advance n s) :=
  Inv.readerMoved h (fun _ => (advance_ipos_toNat hn).trans_le hn)
    (fun hb hp => (h.reader hb hp).congr rfl rfl)

/-- A byte emitted below DSIZE extends the filled part of OUT by itself, R40. -/
theorem Inv.emit {b : Byte} (h : Inv c s) (hroom : s.opos.toNat < s.dsize.toNat) : Inv c (emit b s) := by
  obtain ⟨-, hp⟩ := outWrite_of_room (b := b) hroom
  exact {
    inputWf := h.inputWf
    outputWf := Mem.wf_write _ _ _ h.outputWf s.opos.isLt
    errors := h.errors
    running := fun hb => by
      obtain ⟨-, hipos, hfilled⟩ := h.running hb
      refine ⟨by simp only [emit_opos, emit_dsize, hp]; omega, hipos, fun a => ?_⟩
      simp only [emit_output, emit_opos, hp, Mem.read_write]
      split
      · simp only [Option.isSome_some, true_iff]; omega
      · rw [hfilled a]; omega
    valid := h.valid
    reader := fun hb hp => (h.reader hb hp).congr rfl rfl
    table := h.table }

/-! ## The bit reader -/

/-- What the bit reader asks of a valid configuration: room in ACC for 15 bits and a word (D2), and for PRIME's words. -/
abbrev ReaderFits (c : Config) : Prop :=
  31 ≤ c.accw ∧ 1 ≤ c.primeWords ∧ 16 * c.primeWords ≤ c.accw ∧ 16 * c.primeWords < 2 ^ 6

/-- R83 without its lower bound, which between a CONSUME and its refill, and within PRIME, does not hold yet. -/
structure Buffered (c : Config) (s : State) : Prop where
  atMost : s.bcnt.toNat ≤ c.accw
  fits : s.acc < 2 ^ c.accw
  lowZero : s.acc % 2 ^ (c.accw - s.bcnt.toNat) = 0

theorem readerInv_iff : ReaderInv c s ↔ 16 ≤ s.bcnt.toNat ∧ Buffered c s :=
  ⟨fun ⟨h₁, h₂, h₃, h₄⟩ => ⟨h₁, h₂, h₃, h₄⟩, fun ⟨h₁, h₂, h₃, h₄⟩ => ⟨h₁, h₂, h₃, h₄⟩⟩

theorem buffered_clearAcc (c : Config) (s : State) : Buffered c (clearAcc s) :=
  ⟨Nat.zero_le _, by simp, by simp⟩

/-- Bits dropped from the front leave zeros below those that remain. -/
theorem Buffered.dropBits {n : Nat} (h : Buffered c s) (hn : n ≤ s.bcnt.toNat) : Buffered c (dropBits c n s) := by
  have hb := dropBits_bcnt_toNat c n s
  have hmax := h.atMost
  refine ⟨by omega, Nat.mod_lt _ (Nat.two_pow_pos _), Nat.mod_eq_zero_of_dvd ?_⟩
  rw [dropBits_acc, hb, Nat.dvd_mod_iff (Nat.pow_dvd_pow 2 (Nat.sub_le _ _)), Nat.shiftLeft_eq,
    show c.accw - (s.bcnt.toNat - n) = c.accw - s.bcnt.toNat + n by omega, pow_add]
  exact Nat.mul_dvd_mul_right (Nat.dvd_of_mod_eq_zero h.lowZero) _

theorem wordLoaded_bcnt_toNat (c : Config) (w : Word16) (h : s.bcnt.toNat + 16 < 2 ^ 6) :
    (wordLoaded c w s).bcnt.toNat = s.bcnt.toNat + 16 := by
  rw [wordLoaded_bcnt, BitVec.toNat_add, show (16 : BitVec 6).toNat = 16 from rfl, Nat.mod_eq_of_lt h]

/-- A word placed behind the buffered bits takes sixteen of the zeros below them. -/
theorem Buffered.wordLoaded {w : Word16} (h : Buffered c s) (hroom : s.bcnt.toNat + 16 ≤ c.accw)
    (hcount : s.bcnt.toNat + 16 < 2 ^ 6) : Buffered c (wordLoaded c w s) := by
  have hb := wordLoaded_bcnt_toNat c w hcount
  have hlow : c.accw - (s.bcnt.toNat + 16) = c.accw - 16 - s.bcnt.toNat := by omega
  have hacc : 2 ^ (c.accw - 16 - s.bcnt.toNat) ∣ s.acc :=
    (Nat.pow_dvd_pow 2 (by omega)).trans (Nat.dvd_of_mod_eq_zero h.lowZero)
  have hword : (orderBits c w).toNat <<< (c.accw - 16 - s.bcnt.toNat) < 2 ^ c.accw := by
    calc (orderBits c w).toNat <<< (c.accw - 16 - s.bcnt.toNat)
        < 2 ^ 16 * 2 ^ (c.accw - 16 - s.bcnt.toNat) := by
          rw [Nat.shiftLeft_eq]
          exact Nat.mul_lt_mul_of_pos_right (orderBits c w).isLt (Nat.two_pow_pos _)
      _ ≤ 2 ^ c.accw := by
          rw [← pow_add]
          exact Nat.pow_le_pow_right (by decide) (by omega)
  refine ⟨by omega, Nat.or_lt_two_pow h.fits hword, ?_⟩
  rw [hb, hlow, wordLoaded_acc, placeWord, Nat.or_mod_two_pow, Nat.mod_eq_zero_of_dvd hacc, Nat.shiftLeft_eq,
    Nat.mul_mod_left, Nat.or_zero]

/-- Two bytes further is still within IN where a word is left. -/
theorem ipos_add_two (h : s.ipos.toNat + 2 ≤ s.inLen.toNat) : (s.ipos + 2).toNat ≤ s.inLen.toNat :=
  (advance_ipos_toNat h).trans_le h

/-- CONSUME of the at most fifteen bits of a codeword or a distance keeps the invariant, its refill included. -/
theorem consume_ends {n : Nat} (hc : ReaderFits c) (hn : n ≤ 15) (h : Inv c s) : (consume c n s).Ends (Inv c) := by
  have hdrop (hb : s.status = .busy) (hp : s.phase = .run) : Buffered c (dropBits c n s) :=
    have hr := readerInv_iff.mp (h.reader hb hp)
    hr.2.dropBits (by omega)
  rcases consume_cases c n s with ⟨h₁₆, e⟩ | ⟨-, -, e⟩ | ⟨hlt, hleft, lo, hi, -, -, e⟩ | ⟨-, -, -, e⟩ <;> rw [e]
  · exact .ok <| Inv.readerMoved h (fun hb => (h.running hb).iposLe)
      (fun hb hp => readerInv_iff.mpr ⟨h₁₆, hdrop hb hp⟩)
  · exact .raised h.memoriesWf
  · have hb₁₆ := wordLoaded_bcnt_toNat c (wordOfBytes lo hi) (s := dropBits c n s) (by omega)
    exact .ok <| Inv.readerMoved (s := s) h (fun _ => ipos_add_two hleft)
      (fun hb hp => readerInv_iff.mpr ⟨(Nat.le_add_left 16 _).trans_eq hb₁₆.symm,
        (hdrop hb hp).wordLoaded (by omega) (by omega)⟩)
  · exact .refused

theorem loadWords_buffered {n : Nat} (h : Buffered c s) (hroom : s.bcnt.toNat + 16 * n ≤ c.accw)
    (hcount : s.bcnt.toNat + 16 * n < 2 ^ 6) (ht : loadWords c n s = .ok () t) : Buffered c t := by
  induction n generalizing s with
  | zero => cases ht; exact h
  | succ n ih =>
    rcases loadWord_cases c s with ⟨lo, hi, -, -, e⟩ | ⟨-, e⟩ <;> rw [loadWords, e] at ht
    · have hb := wordLoaded_bcnt_toNat c (wordOfBytes lo hi) (s := s) (by omega)
      exact ih (h.wordLoaded (by omega) (by omega)) (by omega) (by omega) ht
    · cases ht

theorem prime_buffered (hc : ReaderFits c) (ht : prime c s = .ok () t) : Buffered c t := by
  obtain ⟨-, -, hroom, hcount⟩ := hc
  unfold prime at ht
  split at ht
  · exact loadWords_buffered (buffered_clearAcc c s) (by simpa using hroom) (by simpa using hcount) ht
  · cases ht

/-- After PRIME the reader has moved within IN, and R83 holds. -/
theorem prime_ends (hc : ReaderFits c) (h : MemoriesWf s) :
    (prime c s).Ends fun t =>
      ∃ acc bcnt ipos, t = readerMoved acc bcnt ipos s ∧ ipos.toNat ≤ s.inLen.toNat ∧ ReaderInv c t := by
  rcases prime_cases c s with ⟨-, e⟩ | ⟨hleft, acc, e⟩ | ⟨-, e⟩
  · rw [e]; exact .raised h
  · have hbuf := prime_buffered hc e
    obtain ⟨-, hone, -, hcount⟩ := hc
    rw [e]
    refine .ok ⟨_, _, _, rfl, (advance_ipos_toNat hleft).trans_le hleft, readerInv_iff.mpr ⟨?_, hbuf⟩⟩
    rw [readerMoved_bcnt, BitVec.toNat_ofNat, Nat.mod_eq_of_lt hcount]
    omega
  · rw [e]; exact .refused

theorem rdByte_ends (h : Inv c s) : (rdByte s).Ends (Inv c) := by
  rcases rdByte_cases s with ⟨-, e⟩ | ⟨hleft, b, -, e⟩ | ⟨-, -, e⟩ <;> rw [e]
  · exact .raised h.memoriesWf
  · exact .ok (h.advance hleft)
  · exact .refused

theorem rd16_ends (h : Inv c s) : (rd16 s).Ends (Inv c) := by
  rcases rd16_cases s with ⟨-, e⟩ | ⟨hleft, lo, hi, -, -, e⟩ | ⟨-, -, e⟩ <;> rw [e]
  · exact .raised h.memoriesWf
  · exact .ok (h.advance hleft)
  · exact .refused

/-! ## INIT -/

theorem datapathMoved_setLengths (len : Vector Nibble 512) (s : State) : DatapathMoved s (setLengths len s) := by
  simp only [DatapathMoved, setLengths]

theorem datapathMoved_setDegenerate_count (s : State) : DatapathMoved s (setDegenerate (count s)) := by
  simp only [DatapathMoved, setDegenerate, count]

theorem datapathMoved_setCodes_count (s : State) : DatapathMoved s (setCodes (count s)) := by
  simp only [DatapathMoved, setCodes, count]

theorem builtTable_setCodes_count (h : CompleteTable s.len) : BuiltTable (setCodes (count s)).toDatapath where
  complete := by simpa using h
  cnt := by simp
  first := by simp
  code := ⟨s.code, by simp⟩

theorem loadTable_ends (h : Inv c s) (hp : s.phase = .init) :
    (loadTable c s).Ends fun t => Inv c t ∧ t.phase = .init := by
  rcases loadTable_cases c s with ⟨-, e⟩ | ⟨hleft, bytes, -, -, e⟩ | ⟨-, e⟩ <;> rw [e]
  · exact .raised h.memoriesWf
  · have hlen := h.of_pending (datapathMoved_setLengths (vectorOfList 512 0 (unpackLengths c.nibbleEven bytes)) s)
      (by simp) (by simpa using hp)
    exact .ok ⟨hlen.advance (by simpa using hleft), by simpa using hp⟩
  · exact .refused

/-- BUILD leaves the table the invariant asks for, R93. -/
theorem build_ends (h : Inv c s) (hp : s.phase = .init) :
    (build s).Ends fun t => Inv c t ∧ (t.degen = false → BuiltTable t.toDatapath) := by
  rcases build_cases s with ⟨-, e⟩ | ⟨-, e⟩ | ⟨hcomplete, e⟩ <;> rw [e]
  · exact .raised ⟨by simpa using h.inputWf, by simpa using h.outputWf⟩
  · exact .ok ⟨h.of_pending (datapathMoved_setDegenerate_count s) (by simp) (by simpa using hp), fun hd => by simp at hd⟩
  · exact .ok ⟨h.of_pending (datapathMoved_setCodes_count s) (by simp) (by simpa using hp),
      fun _ => builtTable_setCodes_count hcomplete⟩

/-- The token phase may begin where the reader and the table are ready. -/
theorem inv_beginBlock (h : Inv c s) (hreader : ReaderInv c s) (htable : s.degen = false → BuiltTable s.toDatapath) :
    Inv c (beginBlock c s) := by
  unfold beginBlock
  split <;>
    exact h.of_datapathMoved rfl (fun hb => (h.running hb).iposLe) (fun _ _ => hreader.congr rfl rfl)
      (fun _ _ hd => (htable hd).congr rfl rfl rfl rfl)

/-- INIT establishes what the token phase asks for, R107. -/
theorem init_ends (hc : ReaderFits c) (h : Inv c s) (hp : s.phase = .init) : (init c s).Ends (Inv c) := by
  refine (loadTable_ends h hp).bind fun _ s₁ ⟨h₁, hp₁⟩ => (build_ends h₁ hp₁).bind fun _ s₂ ⟨h₂, htable⟩ =>
    (prime_ends hc h₂.memoriesWf).bind ?_
  rintro _ _ ⟨acc, bcnt, ipos, rfl, hpos, hreader⟩
  exact .ok <| inv_beginBlock (Inv.readerMoved h₂ (fun _ => hpos) fun _ _ => hreader) hreader
    fun hd => (htable hd).congr rfl rfl rfl rfl

/-! ## Tokens -/

theorem outWrite_ends {b : Byte} (h : Inv c s) : (outWrite b s).Ends (Inv c) := by
  by_cases hroom : s.opos.toNat < s.dsize.toNat
  · rw [(outWrite_of_room hroom).1]
    exact .ok (h.emit hroom)
  · rw [outWrite, if_neg hroom]
    exact .faulted

theorem outRead_ends (a : Nat) (h : Inv c s) : (outRead a s).Ends (Inv c) := by
  unfold outRead
  split
  · exact .ok h
  · exact .faulted

theorem copyLoop_ends (n : Nat) (h : Inv c s) : (copyLoop n s).Ends (Inv c) := by
  induction n generalizing s with
  | zero => exact .ok h
  | succ n ih =>
    exact (outRead_ends _ h).bind fun _ _ h₁ => (outWrite_ends h₁).bind fun _ s₂ h₂ =>
      ih (h₂.temporaries s₂.sym s₂.mlen s₂.mdist (s₂.mrem - 1))

theorem checkAndCopy_ends (dbits : Nibble) (extra : BitVec 15) (h : Inv c s) :
    (checkAndCopy c dbits extra s).Ends (Inv c) := by
  have hd : Inv c (setDistance (distance c dbits extra) s) := h.temporaries s.sym s.mlen _ s.mrem
  unfold checkAndCopy
  split
  · exact .raised hd.memoriesWf
  · exact copyLoop_ends _ (hd.temporaries s.sym s.mlen _ _)

/-- The shared end of the three match forms, the length written first. -/
theorem finishMatch_ends (hc : ReaderFits c) (dbits : Nibble) (extra : BitVec 15) (len : Nat) (h : Inv c s) :
    (finishMatch c dbits extra (setLength len s)).Ends (Inv c) :=
  (consume_ends hc (Nat.le_of_lt_succ dbits.isLt) (h.temporaries s.sym _ s.mdist s.mrem)).bind
    fun _ _ => checkAndCopy_ends dbits extra

theorem inv_launch (h : MemoriesWf s) (hin : inputFilled s = true) : Inv c (launch s) where
  inputWf := h.1
  outputWf := rfl
  errors := .inr ⟨by simp, rfl, rfl⟩
  running := fun _ => ⟨Nat.zero_le _, Nat.zero_le _, fun a => by simp⟩
  valid := fun _ => inputValid_of_filled hin
  reader := fun _ hp => by cases hp
  table := fun _ hp => by cases hp

/-- Every instruction keeps the invariant, from any state that meets it. -/
theorem execIn_keeps_inv (hc : ReaderFits c) (i : Instr) (h : Inv c s) (ht : execIn c i s = .next t) : Inv c t := by
  cases i with
  | lit b => exact (outWrite_ends h).inv_of_next ht
  | matchM dbits lnib extra => exact (finishMatch_ends hc dbits extra _ h).inv_of_next ht
  | matchX8 dbits b extra =>
    exact ((rdByte_ends h).bind fun _ _ h₁ => finishMatch_ends hc dbits extra _ h₁).inv_of_next ht
  | matchX16 dbits v extra =>
    refine ((rdByte_ends h).bind fun _ _ h₁ => (rd16_ends h₁).bind fun _ _ h₂ => ?_).inv_of_next ht
    split
    · exact .raised h₂.memoriesWf
    · exact finishMatch_ends hc dbits extra _ h₂
  | start value =>
    rcases execStartIn_cases c value s with ⟨-, e⟩ | ⟨-, -, ⟨-, e⟩ | ⟨-, -, e⟩ | ⟨-, hin, e⟩⟩ <;>
      cases e.symm.trans ht
    · exact h
    · exact inv_launch h.memoriesWf hin

theorem lookup_length_le {d : Datapath} {p : BitVec 15} {sym : Sym} {l : Nat} (h : lookup d p = some (sym, l)) :
    l ≤ 15 := by
  obtain ⟨k, hk, e⟩ := List.exists_of_findSome?_eq_some h
  have hl : k = l := by
    simp only [lookupAt] at e
    split at e
    · obtain ⟨_, -, e'⟩ := Option.map_eq_some_iff.mp e
      exact (Prod.mk.inj e').2
    · cases e
  rw [List.mem_range'_1] at hk
  omega

/-- DECODESYM keeps the invariant: a codeword has at most fifteen bits. -/
theorem decodeSym_ends (hc : ReaderFits c) (h : Inv c s) : (decodeSym c s).Ends (Inv c) := by
  rcases decodeSym_cases c s with ⟨-, e⟩ | ⟨-, -, e⟩ | ⟨-, sym, l, hl, hcases⟩
  · rw [e]; exact .ok (h.temporaries _ s.mlen s.mdist s.mrem)
  · rw [e]; exact .faulted
  · have hconsume := consume_ends hc (lookup_length_le hl) h
    rcases hcases with ⟨t, e₁, e⟩ | ⟨e₁, e⟩ | ⟨-, e⟩ <;> rw [e]
    · rw [e₁] at hconsume
      exact .ok (hconsume.of_ok.temporaries _ t.mlen t.mdist t.mrem)
    · exact .raised h.memoriesWf
    · exact .refused

theorem readExtension_ends (sym : Sym) (h : Inv c s) : (readExtension c sym s).Ends (Inv c) := by
  unfold readExtension
  split
  · exact .ok h
  · split
    · exact .ok h
    · refine (rdByte_ends h).bind fun b s₁ h₁ => ?_
      split
      · exact .ok h₁
      · exact (rd16_ends h₁).bind fun _ _ h₂ => .ok h₂

theorem tokenStep_keeps_inv (hc : ReaderFits c) (h : Inv c s) (ht : tokenStep c (execIn c) s = .next t) : Inv c t := by
  have hsym := decodeSym_ends hc h
  rcases tokenStep_next ht with ⟨sym, s₁, bytes, s₂, i, e, -, -, hex⟩ | ⟨f, s₁, e, rfl⟩ | ⟨sym, s₁, f, s₂, e, e', rfl⟩ <;>
    rw [e] at hsym
  · exact execIn_keeps_inv hc i hsym.of_ok hex
  · exact inv_enterFault f hsym.of_raised
  · have hext := readExtension_ends sym hsym.of_ok
    rw [e'] at hext
    exact inv_enterFault f hext.of_raised

/-! ## The steps -/

theorem inv_finish (hb : s.status = .busy) (h : Inv c s) : Inv c (finish s) := by
  refine inv_of_not_busy (by simp) h.memoriesWf ?_
  rcases h.errors with ⟨he, -⟩ | ⟨-, hregs⟩
  · rw [hb] at he; cases he
  · exact .inr ⟨by simp, hregs⟩

theorem inv_switchBlock (h : Inv c s) : Inv c (switchBlock s) :=
  h.of_pending rfl rfl rfl

/-- Each of the engine's five steps keeps the invariant. -/
theorem engineStep_keeps_inv (hc : ReaderFits c) (h : Inv c s) (ht : engineStep c (execIn c) s = .next t) : Inv c t := by
  rcases engineStep_cases c (execIn c) s with
    ⟨-, e⟩ | ⟨-, hp, e⟩ | ⟨hb, -, -, e⟩ | ⟨-, -, -, -, e⟩ | ⟨-, -, -, -, e⟩ <;> rw [e] at ht
  · cases ht; exact h
  · exact (init_ends hc h hp).inv_of_next ht
  · cases ht; exact inv_finish hb h
  · cases ht; exact inv_switchBlock h
  · exact tokenStep_keeps_inv hc h ht

theorem writeReg_keeps_inv (hc : ReaderFits c) (n : BitVec 3) (value : Word32) (h : Inv c s)
    (ht : writeReg (execIn c) n value s = .next t) : Inv c t := by
  unfold writeReg at ht
  split at ht
  · split at ht
    · exact execIn_keeps_inv hc _ h ht
    · cases ht; exact h
  · split at ht <;> cases ht
    · exact h
    · exact inv_of_not_busy ‹_› h.memoriesWf h.errors
  · split at ht <;> cases ht
    · exact h
    · exact inv_of_not_busy ‹_› h.memoriesWf h.errors
  · cases ht; exact h

theorem hostRead_keeps_inv {b : Option Byte} {why : Refusal} (h : Inv c s) (ht : hostRead b why s = .next t) :
    Inv c t := by
  cases b <;> cases ht
  exact h.hostSide s.moves _

theorem inv_resetEvent (c : Config) (s : State) : Inv c (resetEvent s) :=
  inv_of_not_busy (by simp [State.reset]) reset_memories_wf (.inr ⟨by simp [State.reset], rfl, rfl⟩)

/-- Each of the host's moves keeps the invariant: while BUSY only `pass` and reset change what it speaks of. -/
theorem hostStep_keeps_inv (hc : ReaderFits c) (m : HostMove) (h : Inv c s)
    (ht : hostStep c (execIn c) m s = .next t) : Inv c t := by
  cases m with
  | writeReg n value => exact writeReg_keeps_inv hc n value h ht
  | readReg n => cases ht; exact h.hostSide s.moves _
  | writeIn addr b =>
    simp only [hostStep] at ht
    split at ht <;> cases ht
    exact inv_of_not_busy ‹_› ⟨Mem.wf_write _ _ _ h.inputWf addr.isLt, h.outputWf⟩ h.errors
  | readIn addr =>
    simp only [hostStep] at ht
    split at ht
    · cases ht
    · exact hostRead_keeps_inv h ht
  | readOut addr =>
    simp only [hostStep] at ht
    split at ht
    · exact hostRead_keeps_inv h ht
    · cases ht
  | reset => cases ht; exact inv_resetEvent c s
  | pass => exact engineStep_keeps_inv hc h ht

theorem stepIn_keeps_inv (hc : ReaderFits c) (h : Inv c s) (ht : stepIn c s = .next t) : Inv c t := by
  cases hm : s.moves with
  | nil => exact engineStep_keeps_inv hc h (stepIn_of_engine hm ▸ ht)
  | cons m rest => exact hostStep_keeps_inv hc m (h.hostSide rest s.readData) (stepIn_of_move hm ▸ ht)

/-- Settles O52: each operation that a step is made of ends within the invariant, or raises with canonical memories. -/
theorem stepKeepsTheInvariant : Obligations.StepKeepsTheInvariant := by
  unfold Obligations.StepKeepsTheInvariant
  refine ⟨fun s t h ht => stepIn_keeps_inv (by decide) h ht, fun c s t hc h ht => ?_⟩
  obtain ⟨haccw, hprime, -⟩ := hc
  exact stepIn_keeps_inv ⟨haccw, hprime⟩ h ht

end Sys2Proof.Machine
end

section
/-! PROOF. In an engine step the two positions move forward and stay within their sizes (10_state.md R16, R17;
42_token_engine.md R120). Each operation has one lemma, about its value and about its raise alike, since a fault keeps
the positions of the `raise` (60_exceptions.md R138); the steps are put together from these. -/

namespace Sys2Proof.Machine

variable {c : Config} {s t u : State} {α β : Type}

/-! ## The state an operation leaves -/

/-- A value and a raise leave a state of `P`; a stop of the model leaves no state. -/
inductive Res.EndsIn (P : State → Prop) : Res α → Prop
  | ok {a : α} {t : State} : P t → Res.EndsIn P (.ok a t)
  | raised {f : FaultCause} {t : State} : P t → Res.EndsIn P (.raised f t)
  | faulted {r : Fault} : Res.EndsIn P (.faulted r)
  | refused {r : Refusal} : Res.EndsIn P (.refused r)

theorem Res.EndsIn.of_ok {P : State → Prop} {a : α} (h : (Res.ok a t).EndsIn P) : P t := by
  cases h with
  | ok h => exact h

theorem Res.EndsIn.of_raised {P : State → Prop} {f : FaultCause} (h : (Res.raised f t : Res α).EndsIn P) : P t := by
  cases h with
  | raised h => exact h

theorem Res.EndsIn.bind {P : State → Prop} {r : Res α} {k : α → State → Res β} (h : r.EndsIn P)
    (hk : ∀ a s, P s → (k a s).EndsIn P) : (r.bind k).EndsIn P := by
  cases h with
  | ok h => exact hk _ _ h
  | raised h => exact .raised h
  | faulted => exact .faulted
  | refused => exact .refused

/-! ## Positions that move forward -/

/-- From `s` to `t` neither position has decreased, and in `t` each is within its size. -/
structure Forward (s t : State) : Prop where
  iposGe : s.ipos.toNat ≤ t.ipos.toNat
  iposLe : t.ipos.toNat ≤ t.inLen.toNat
  oposGe : s.opos.toNat ≤ t.opos.toNat
  oposLe : t.opos.toNat ≤ t.dsize.toNat

/-- An update that writes neither a position nor a size. -/
theorem Forward.of_eq (h : Forward s t) (hipos : u.ipos = t.ipos := by simp) (hinLen : u.inLen = t.inLen := by simp)
    (hopos : u.opos = t.opos := by simp) (hdsize : u.dsize = t.dsize := by simp) : Forward s u := by
  obtain ⟨h₁, h₂, h₃, h₄⟩ := h
  rw [← hipos] at h₁ h₂
  rw [← hinLen] at h₂
  rw [← hopos] at h₃ h₄
  rw [← hdsize] at h₄
  exact ⟨h₁, h₂, h₃, h₄⟩

theorem Forward.advance {n : Nat} (h : Forward s t) (hn : t.ipos.toNat + n ≤ t.inLen.toNat) :
    Forward s (advance n t) := by
  have hpos := advance_ipos_toNat hn
  obtain ⟨hge, -, hoposGe, hoposLe⟩ := h
  exact ⟨by omega, by rwa [hpos], hoposGe, hoposLe⟩

theorem Forward.emit {b : Byte} (h : Forward s t) (hroom : t.opos.toNat < t.dsize.toNat) : Forward s (emit b t) := by
  obtain ⟨-, hpos⟩ := outWrite_of_room (b := b) hroom
  obtain ⟨hge, hle, hopos, -⟩ := h
  exact ⟨hge, hle, by rw [emit_opos, hpos]; omega, by rw [emit_opos, emit_dsize, hpos]; omega⟩

/-- Fault entry keeps the positions of the `raise`, R138. -/
theorem Forward.of_next {r : Res α} (h : r.EndsIn (Forward s)) (ht : r.outcome = .next t) : Forward s t := by
  rcases Res.outcome_eq_next ht with ⟨a, rfl⟩ | ⟨f, u, rfl, rfl⟩
  · exact h.of_ok
  · exact h.of_raised.of_eq

/-! ## The bit reader -/

theorem consume_forward (n : Nat) (h : Forward s t) : (consume c n t).EndsIn (Forward s) := by
  rcases consume_cases c n t with ⟨-, e⟩ | ⟨-, -, e⟩ | ⟨-, hleft, lo, hi, -, -, e⟩ | ⟨-, -, -, e⟩ <;> rw [e]
  · exact .ok h.of_eq
  · exact .raised h.of_eq
  · exact .ok (h.advance hleft).of_eq
  · exact .refused

/-- PRIME moves within IN, also where it raises: it then stops before the first word that is not whole, R77. -/
theorem prime_forward (h : Forward s t) : (prime c t).EndsIn (Forward s) := by
  rcases prime_cases c t with ⟨-, e⟩ | ⟨hleft, acc, e⟩ | ⟨-, e⟩ <;> rw [e]
  · have hle := h.iposLe
    exact .raised (h.advance (by omega))
  · exact .ok (h.advance hleft).of_eq
  · exact .refused

theorem rdByte_forward (h : Forward s t) : (rdByte t).EndsIn (Forward s) := by
  rcases rdByte_cases t with ⟨-, e⟩ | ⟨hleft, b, -, e⟩ | ⟨-, -, e⟩ <;> rw [e]
  · exact .raised h
  · exact .ok (h.advance hleft)
  · exact .refused

theorem rd16_forward (h : Forward s t) : (rd16 t).EndsIn (Forward s) := by
  rcases rd16_cases t with ⟨-, e⟩ | ⟨hleft, lo, hi, -, -, e⟩ | ⟨-, -, e⟩ <;> rw [e]
  · exact .raised h
  · exact .ok (h.advance hleft)
  · exact .refused

/-! ## INIT -/

theorem loadTable_forward (h : Forward s t) : (loadTable c t).EndsIn (Forward s) := by
  rcases loadTable_cases c t with ⟨-, e⟩ | ⟨hleft, bytes, -, -, e⟩ | ⟨-, e⟩ <;> rw [e]
  · exact .raised h
  · exact .ok (h.advance hleft).of_eq
  · exact .refused

theorem build_forward (h : Forward s t) : (build t).EndsIn (Forward s) := by
  rcases build_cases t with ⟨-, e⟩ | ⟨-, e⟩ | ⟨-, e⟩ <;> rw [e]
  · exact .raised h.of_eq
  · exact .ok h.of_eq
  · exact .ok h.of_eq

theorem beginBlock_forward (h : Forward s t) : Forward s (beginBlock c t) := by
  unfold beginBlock
  split <;> exact h.of_eq

theorem init_forward (h : Forward s t) : (init c t).EndsIn (Forward s) :=
  (loadTable_forward h).bind fun _ _ h₁ => (build_forward h₁).bind fun _ _ h₂ => (prime_forward h₂).bind
    fun _ _ h₃ => .ok (beginBlock_forward h₃)

/-! ## Tokens -/

theorem outWrite_forward {b : Byte} (h : Forward s t) : (outWrite b t).EndsIn (Forward s) := by
  by_cases hroom : t.opos.toNat < t.dsize.toNat
  · rw [(outWrite_of_room hroom).1]
    exact .ok (h.emit hroom)
  · rw [outWrite, if_neg hroom]
    exact .faulted

theorem outRead_forward (a : Nat) (h : Forward s t) : (outRead a t).EndsIn (Forward s) := by
  unfold outRead
  split
  · exact .ok h
  · exact .faulted

theorem copyLoop_forward (n : Nat) (h : Forward s t) : (copyLoop n t).EndsIn (Forward s) := by
  induction n generalizing t with
  | zero => exact .ok h
  | succ n ih =>
    exact (outRead_forward _ h).bind fun _ _ h₁ => (outWrite_forward h₁).bind fun _ _ h₂ => ih h₂.of_eq

theorem checkAndCopy_forward (dbits : Nibble) (extra : BitVec 15) (h : Forward s t) :
    (checkAndCopy c dbits extra t).EndsIn (Forward s) := by
  unfold checkAndCopy
  split
  · exact .raised h.of_eq
  · exact copyLoop_forward _ h.of_eq

/-- The shared end of the three match forms, the length written first. -/
theorem finishMatch_forward (dbits : Nibble) (extra : BitVec 15) (len : Nat) (h : Forward s t) :
    (finishMatch c dbits extra (setLength len t)).EndsIn (Forward s) :=
  (consume_forward dbits.toNat h.of_eq).bind fun _ _ => checkAndCopy_forward dbits extra

/-- The four token forms move the positions forward. START, which writes 0 to both, is no token. -/
theorem execIn_forward {i : Instr} (hi : ∀ value, i ≠ .start value) (h : Forward s t)
    (hu : execIn c i t = .next u) : Forward s u := by
  cases i with
  | lit b => exact .of_next (outWrite_forward h) hu
  | matchM dbits lnib extra => exact .of_next (finishMatch_forward dbits extra _ h) hu
  | matchX8 dbits b extra =>
    exact .of_next ((rdByte_forward h).bind fun _ _ h₁ => finishMatch_forward dbits extra _ h₁) hu
  | matchX16 dbits v extra =>
    refine .of_next ((rdByte_forward h).bind fun _ _ h₁ => (rd16_forward h₁).bind fun _ _ h₂ => ?_) hu
    split
    · exact .raised h₂
    · exact finishMatch_forward dbits extra _ h₂
  | start value => exact absurd rfl (hi value)

theorem decodeSym_forward (h : Forward s t) : (decodeSym c t).EndsIn (Forward s) := by
  rcases decodeSym_cases c t with ⟨-, e⟩ | ⟨-, -, e⟩ | ⟨-, sym, l, -, hcases⟩
  · rw [e]; exact .ok h.of_eq
  · rw [e]; exact .faulted
  · have hconsume := consume_forward (c := c) l h
    rcases hcases with ⟨t', e₁, e⟩ | ⟨e₁, e⟩ | ⟨-, e⟩ <;> rw [e]
    · rw [e₁] at hconsume
      exact .ok hconsume.of_ok.of_eq
    · exact .raised h.of_eq
    · exact .refused

theorem readExtension_forward (sym : Sym) (h : Forward s t) : (readExtension c sym t).EndsIn (Forward s) := by
  unfold readExtension
  split
  · exact .ok h
  · split
    · exact .ok h
    · refine (rdByte_forward h).bind fun b _ h₁ => ?_
      split
      · exact .ok h₁
      · exact (rd16_forward h₁).bind fun _ _ h₂ => .ok h₂

/-- A symbol, whatever follows it, spells one of the four token forms, R72. -/
theorem decode_token_ne_start {sym : Sym} {bytes : List Byte} {window : BitVec 15} {i : Instr}
    (h : decode c (.token sym bytes window) = .ok i) (value : Word32) : i ≠ .start value := by
  rintro rfl
  simp only [decode, decodeToken] at h
  split at h
  · cases h
  · split at h
    · cases h
    · split at h
      · cases h
      · split at h
        · cases h
        · split at h <;> cases h

theorem tokenStep_forward (h : Forward s t) (hu : tokenStep c (execIn c) t = .next u) : Forward s u := by
  have hsym := decodeSym_forward (c := c) h
  rcases tokenStep_next hu with ⟨sym, s₁, bytes, s₂, i, e, -, hi, hex⟩ | ⟨f, s₁, e, rfl⟩ | ⟨sym, s₁, f, s₂, e, e', rfl⟩ <;>
    rw [e] at hsym
  · exact execIn_forward (decode_token_ne_start hi) hsym.of_ok hex
  · exact hsym.of_raised.of_eq
  · have hext := readExtension_forward (c := c) sym hsym.of_ok
    rw [e'] at hext
    exact hext.of_raised.of_eq

/-- Each of the engine's five steps moves the positions forward. -/
theorem engineStep_forward (h : Forward s t) (hu : engineStep c (execIn c) t = .next u) : Forward s u := by
  rcases engineStep_cases c (execIn c) t with
    ⟨-, e⟩ | ⟨-, -, e⟩ | ⟨-, -, -, e⟩ | ⟨-, -, -, -, e⟩ | ⟨-, -, -, -, e⟩ <;> rw [e] at hu
  · cases hu; exact h
  · exact .of_next (init_forward h) hu
  · cases hu; exact h.of_eq
  · cases hu; exact h.of_eq
  · exact tokenStep_forward h hu

/-- Settles O48: no operation that an engine step is made of moves a position back or past its size. -/
theorem positionsMoveForward : Obligations.PositionsMoveForward := by
  unfold Obligations.PositionsMoveForward
  intro c s t hm _ hipos hopos ht
  rw [stepIn_of_engine hm] at ht
  obtain ⟨hiposGe, hiposLe, hoposGe, hoposLe⟩ := engineStep_forward ⟨le_rfl, hipos, le_rfl, hopos⟩ ht
  exact ⟨hiposGe, hiposLe, hoposGe, hoposLe⟩

end Sys2Proof.Machine
end

section
/-! PROOF. The interface registers: reset, the host's reads and writes, and the command a write to CTRL gives
(10_state.md R27 to R36; 42_token_engine.md R106). -/

namespace Sys2Proof.Machine

/-! ## START -/

/-- START has no effect while BUSY, nor has a value whose bit 0 is 0, R28. -/
theorem exec_start_ignored {value : Word32} {s : State} (h : value.getLsbD 0 = false ∨ s.status = .busy) :
    exec (.start value) s = .next s := by
  rw [exec_eq_execIn]
  rcases execStartIn_cases Config.std value s with ⟨-, e⟩ | ⟨hbit, hbusy, -⟩
  · exact e
  · rcases h with h | h
    · rw [hbit] at h; cases h
    · exact absurd h hbusy

/-- START looks at bit 0 of the value and at no other, R28. -/
theorem exec_start_congr {value value' : Word32} (h : value.getLsbD 0 = value'.getLsbD 0) (s : State) :
    exec (.start value) s = exec (.start value') s := by
  rw [exec_eq_execIn, exec_eq_execIn]
  simp only [execIn, execStartIn, h]

theorem decodeCommand_of_bit {value : Word32} (h : value.getLsbD 0 = true) :
    decodeCommand value = .ok (.start value) := by
  rw [decodeCommand, if_pos h]

theorem decodeCommand_of_bit_clear {value : Word32} (h : value.getLsbD 0 = false) :
    decodeCommand value = .error .startBitClear := by
  rw [decodeCommand, h]
  rfl

/-! ## The register file -/

/-- The eight register numbers of R27: CTRL, DSIZE, IN_LEN, and the five that are read-only. -/
theorem register_cases (n : BitVec 3) : n = 0 ∨ n = 4 ∨ n = 5 ∨ n = 1 ∨ n = 2 ∨ n = 3 ∨ n = 6 ∨ n = 7 := by
  revert n
  decide

/-- A state whose registers are all 0 reads 0 at every number. -/
theorem regValue_eq_zero {s : State} (hstatus : s.status = .idle) (herrcode : s.errcode = 0) (herrsub : s.errsub = 0)
    (hdsize : s.dsize = 0) (hinLen : s.inLen = 0) (hopos : s.opos = 0) (hipos : s.ipos = 0) (n : BitVec 3) :
    regValue n s = 0 := by
  rcases register_cases n with rfl | rfl | rfl | rfl | rfl | rfl | rfl | rfl <;>
    simp [regValue, RunState.code, *]

section

variable (ex : Instr → State → Host.Outcome State Fault Refusal) (value : Word32) (s : State)

theorem writeReg_ctrl (h : value.getLsbD 0 = true) : writeReg ex 0 value s = ex (.start value) s := by
  simp [writeReg, decodeCommand_of_bit h]

theorem writeReg_ctrl_bit_clear (h : value.getLsbD 0 = false) : writeReg ex 0 value s = .next s := by
  simp [writeReg, decodeCommand_of_bit_clear h]

theorem writeReg_dsize :
    writeReg ex 4 value s = if s.status = .busy then .next s else .next { s with dsize := value } := rfl

theorem writeReg_inLen :
    writeReg ex 5 value s = if s.status = .busy then .next s else .next { s with inLen := value } := rfl

/-- A write of one of the read-only registers changes nothing (log 16). -/
theorem writeReg_readOnly {n : BitVec 3} (h : n = 1 ∨ n = 2 ∨ n = 3 ∨ n = 6 ∨ n = 7) :
    writeReg ex n value s = .next s := by
  rcases h with rfl | rfl | rfl | rfl | rfl <;> rfl

end

/-- While BUSY a write of any register changes nothing, R28 and R35. -/
theorem writeReg_of_busy (n : BitVec 3) (value : Word32) {s : State} (h : s.status = .busy) :
    writeReg exec n value s = .next s := by
  rcases register_cases n with rfl | rfl | rfl | hreadOnly
  · cases hbit : value.getLsbD 0
    · exact writeReg_ctrl_bit_clear exec value s hbit
    · rw [writeReg_ctrl exec value s hbit, exec_start_ignored (.inr h)]
  · rw [writeReg_dsize, if_pos h]
  · rw [writeReg_inLen, if_pos h]
  · exact writeReg_readOnly exec value s hreadOnly

/-! ## The step of a host's move -/

theorem step_of_move {s : State} {m : HostMove} {rest : List HostMove} (h : s.moves = m :: rest) :
    step s = hostStep Config.std exec m { s with moves := rest } := by
  unfold step machineStep
  rw [h]

theorem step_of_writeReg {s : State} {n : BitVec 3} {value : Word32} {rest : List HostMove}
    (h : s.moves = .writeReg n value :: rest) : step s = writeReg exec n value { s with moves := rest } :=
  step_of_move h

/-! ## The obligations -/

/-- Settles O12, by what START does with a value it ignores, and by its look at bit 0 alone. -/
theorem startIgnored : Obligations.StartIgnored := by
  unfold Obligations.StartIgnored
  exact ⟨fun _ _ h => exec_start_ignored (.inr h), fun _ _ h => exec_start_ignored (.inl h),
    fun _ _ s h => exec_start_congr h s⟩

/-- Settles O19: at reset STATE is IDLE and the fields behind the other registers are 0. -/
theorem resetRegisters : Obligations.ResetRegisters := by
  unfold Obligations.ResetRegisters
  exact ⟨rfl, regValue_eq_zero rfl rfl rfl rfl rfl rfl rfl, Mem.read_nil⟩

/-- Settles O21, number by number; STATE is read by its code of R29. -/
theorem registerReads : Obligations.RegisterReads := by
  unfold Obligations.RegisterReads
  refine ⟨fun s => ⟨rfl, ?_, ?_, ?_, rfl, rfl, rfl, rfl⟩, fun s n rest h => step_of_move h⟩
  · simp only [regValue]
    cases s.status <;> rfl
  · exact BitVec.toNat_setWidth_of_le (by decide)
  · exact BitVec.toNat_setWidth_of_le (by decide)

/-- Settles O22, by the register's own write rule. -/
theorem sizeWritesTakeEffect : Obligations.SizeWritesTakeEffect := by
  unfold Obligations.SizeWritesTakeEffect
  intro s value rest hbusy
  refine ⟨fun h => ?_, fun h => ?_⟩
  · rw [step_of_writeReg h, writeReg_dsize, if_neg hbusy]
  · rw [step_of_writeReg h, writeReg_inLen, if_neg hbusy]

/-- Settles O23, by what a write does while BUSY. -/
theorem writesIgnoredWhileBusy : Obligations.WritesIgnoredWhileBusy := by
  unfold Obligations.WritesIgnoredWhileBusy
  intro s n value rest hbusy h
  exact (step_of_writeReg h).trans (writeReg_of_busy n value hbusy)

/-- Settles O24, by what a write of a read-only register does. -/
theorem readOnlyRegistersIgnoreWrites : Obligations.ReadOnlyRegistersIgnoreWrites := by
  unfold Obligations.ReadOnlyRegistersIgnoreWrites
  intro s n value rest hn h
  rw [step_of_writeReg h, writeReg_readOnly exec value _ hn]

/-- Settles O45, by the command a write to CTRL decodes to. -/
theorem stepRunsTheCommand : Obligations.StepRunsTheCommand := by
  unfold Obligations.StepRunsTheCommand
  intro s value rest h hbit
  rw [step_of_writeReg h, writeReg_ctrl exec value _ hbit]

/-- Settles O51: the reset state is the one a reset leaves from it, and a reset makes the invariant hold. -/
theorem resetMeetsTheInvariant : Obligations.ResetMeetsTheInvariant := by
  unfold Obligations.ResetMeetsTheInvariant
  exact fun c => inv_resetEvent c State.reset

end Sys2Proof.Machine
end

section
/-! PROOF. What an engine step does to the two memories (20_memory.md R38, R40, R50, R53). An engine step is made of
updates that leave IN, OUT, OPOS and the two sizes as they are, and of bytes emitted below DSIZE. So a predicate that both
kinds of update keep is kept by every engine step: one lemma per operation says this for all such predicates, and the two
statements about engine steps each take one such predicate. The accesses of the host follow. -/

namespace Sys2Proof.Machine

variable {c : Config} {s t u : State}

/-! ## Predicates about the memories -/

/-- `t` has the memories of `s`, its OPOS and its two sizes. The proofs given by default are by the fields of the update
that leads from `s` to `t`. -/
structure SameMemories (s t : State) : Prop where
  input : t.input = s.input := by simp
  output : t.output = s.output := by simp
  opos : t.opos = s.opos := by simp
  dsize : t.dsize = s.dsize := by simp
  inLen : t.inLen = s.inLen := by simp

/-- `P` looks at nothing but the memories, OPOS and the two sizes, and a byte emitted below DSIZE keeps it. -/
structure KeptByEmission (P : State → Prop) : Prop where
  same : ∀ {s t : State}, P s → SameMemories s t → P t
  emit : ∀ {s : State} (b : Byte), P s → s.opos.toNat < s.dsize.toNat → P (emit b s)

/-! ## Each operation of the engine keeps such a predicate -/

/-- A read of OUT changes nothing. -/
theorem outRead_endsIn {P : State → Prop} (a : Nat) (h : P s) : (outRead a s).EndsIn P := by
  unfold outRead
  split
  · exact .ok h
  · exact .faulted

section

variable {P : State → Prop} (hP : KeptByEmission P)
include hP

/-- Fault entry leaves the memories, the positions and the sizes, R137 and R139. -/
theorem KeptByEmission.of_next {α : Type} {r : Res α} (h : r.EndsIn P) (ht : r.outcome = .next t) : P t := by
  rcases Res.outcome_eq_next ht with ⟨a, rfl⟩ | ⟨f, u, rfl, rfl⟩
  · exact h.of_ok
  · exact hP.same h.of_raised {}

theorem KeptByEmission.consume (n : Nat) (h : P s) : (consume c n s).EndsIn P := by
  rcases consume_cases c n s with ⟨-, e⟩ | ⟨-, -, e⟩ | ⟨-, -, lo, hi, -, -, e⟩ | ⟨-, -, -, e⟩ <;> rw [e]
  · exact .ok (hP.same h {})
  · exact .raised (hP.same h {})
  · exact .ok (hP.same h {})
  · exact .refused

theorem KeptByEmission.prime (h : P s) : (prime c s).EndsIn P := by
  rcases prime_cases c s with ⟨-, e⟩ | ⟨-, acc, e⟩ | ⟨-, e⟩ <;> rw [e]
  · exact .raised (hP.same h {})
  · exact .ok (hP.same h {})
  · exact .refused

theorem KeptByEmission.rdByte (h : P s) : (rdByte s).EndsIn P := by
  rcases rdByte_cases s with ⟨-, e⟩ | ⟨-, b, -, e⟩ | ⟨-, -, e⟩ <;> rw [e]
  · exact .raised h
  · exact .ok (hP.same h {})
  · exact .refused

theorem KeptByEmission.rd16 (h : P s) : (rd16 s).EndsIn P := by
  rcases rd16_cases s with ⟨-, e⟩ | ⟨-, lo, hi, -, -, e⟩ | ⟨-, -, e⟩ <;> rw [e]
  · exact .raised h
  · exact .ok (hP.same h {})
  · exact .refused

theorem KeptByEmission.loadTable (h : P s) : (loadTable c s).EndsIn P := by
  rcases loadTable_cases c s with ⟨-, e⟩ | ⟨-, bytes, -, -, e⟩ | ⟨-, e⟩ <;> rw [e]
  · exact .raised h
  · exact .ok (hP.same h {})
  · exact .refused

theorem KeptByEmission.build (h : P s) : (build s).EndsIn P := by
  rcases build_cases s with ⟨-, e⟩ | ⟨-, e⟩ | ⟨-, e⟩ <;> rw [e]
  · exact .raised (hP.same h {})
  · exact .ok (hP.same h {})
  · exact .ok (hP.same h {})

theorem KeptByEmission.beginBlock (h : P s) : P (beginBlock c s) := by
  unfold Machine.beginBlock
  split <;> exact hP.same h {}

theorem KeptByEmission.init (h : P s) : (init c s).EndsIn P :=
  (hP.loadTable h).bind fun _ _ h₁ => (hP.build h₁).bind fun _ _ h₂ => (hP.prime h₂).bind
    fun _ _ h₃ => .ok (hP.beginBlock h₃)

theorem KeptByEmission.outWrite {b : Byte} (h : P s) : (outWrite b s).EndsIn P := by
  unfold Machine.outWrite
  split
  case isTrue hroom => exact .ok (hP.emit b h hroom)
  case isFalse => exact .faulted

theorem KeptByEmission.copyLoop (n : Nat) (h : P s) : (copyLoop n s).EndsIn P := by
  induction n generalizing s with
  | zero => exact .ok h
  | succ n ih =>
    exact (outRead_endsIn _ h).bind fun _ _ h₁ => (hP.outWrite h₁).bind fun _ _ h₂ => ih (hP.same h₂ {})

theorem KeptByEmission.checkAndCopy (dbits : Nibble) (extra : BitVec 15) (h : P s) :
    (checkAndCopy c dbits extra s).EndsIn P := by
  unfold Machine.checkAndCopy
  split
  · exact .raised (hP.same h {})
  · exact hP.copyLoop _ (hP.same h {})

/-- The shared end of the three match forms, the length written first. -/
theorem KeptByEmission.finishMatch (dbits : Nibble) (extra : BitVec 15) (len : Nat) (h : P s) :
    (finishMatch c dbits extra (setLength len s)).EndsIn P :=
  (hP.consume dbits.toNat (hP.same h {})).bind fun _ _ => hP.checkAndCopy dbits extra

/-- The four token forms. START, which empties OUT, is no token. -/
theorem KeptByEmission.execIn {i : Instr} (hi : ∀ value, i ≠ .start value) (h : P s)
    (ht : execIn c i s = .next t) : P t := by
  cases i with
  | lit b => exact hP.of_next (hP.outWrite h) ht
  | matchM dbits lnib extra => exact hP.of_next (hP.finishMatch dbits extra _ h) ht
  | matchX8 dbits b extra =>
    exact hP.of_next ((hP.rdByte h).bind fun _ _ h₁ => hP.finishMatch dbits extra _ h₁) ht
  | matchX16 dbits v extra =>
    refine hP.of_next ((hP.rdByte h).bind fun _ _ h₁ => (hP.rd16 h₁).bind fun _ _ h₂ => ?_) ht
    split
    · exact .raised h₂
    · exact hP.finishMatch dbits extra _ h₂
  | start value => exact absurd rfl (hi value)

theorem KeptByEmission.decodeSym (h : P s) : (decodeSym c s).EndsIn P := by
  rcases decodeSym_cases c s with ⟨-, e⟩ | ⟨-, -, e⟩ | ⟨-, sym, l, -, ⟨t, et, e⟩ | ⟨-, e⟩ | ⟨-, e⟩⟩ <;> rw [e]
  · exact .ok (hP.same h {})
  · exact .faulted
  · have ht : P t := by
      have hconsume := hP.consume (c := c) l h
      rw [et] at hconsume
      exact hconsume.of_ok
    exact .ok (hP.same ht {})
  · exact .raised (hP.same h {})
  · exact .refused

theorem KeptByEmission.readExtension (sym : Sym) (h : P s) : (readExtension c sym s).EndsIn P := by
  unfold Machine.readExtension
  split
  · exact .ok h
  · split
    · exact .ok h
    · refine (hP.rdByte h).bind fun b _ h₁ => ?_
      split
      · exact .ok h₁
      · exact (hP.rd16 h₁).bind fun _ _ h₂ => .ok h₂

theorem KeptByEmission.tokenStep (h : P s) (ht : tokenStep c (Machine.execIn c) s = .next t) : P t := by
  have hsym := hP.decodeSym (c := c) h
  rcases tokenStep_next ht with ⟨sym, s₁, bytes, s₂, i, e, -, hi, hex⟩ | ⟨f, s₁, e, rfl⟩ | ⟨sym, s₁, f, s₂, e, e', rfl⟩ <;>
    rw [e] at hsym
  · exact hP.execIn (decode_token_ne_start hi) hsym.of_ok hex
  · exact hP.same hsym.of_raised {}
  · have hext := hP.readExtension (c := c) sym hsym.of_ok
    rw [e'] at hext
    exact hP.same hext.of_raised {}

theorem KeptByEmission.engineStep (h : P s) (ht : engineStep c (Machine.execIn c) s = .next t) : P t := by
  rcases engineStep_cases c (Machine.execIn c) s with
    ⟨-, e⟩ | ⟨-, -, e⟩ | ⟨-, -, -, e⟩ | ⟨-, -, -, -, e⟩ | ⟨-, -, -, -, e⟩ <;> rw [e] at ht
  · cases ht; exact h
  · exact hP.of_next (hP.init h) ht
  · cases ht; exact hP.same h {}
  · cases ht; exact hP.same h {}
  · exact hP.tokenStep h ht

/-- A step with no move of the host pending keeps `P`. -/
theorem KeptByEmission.stepIn (h : P s) (hm : s.moves = []) (ht : stepIn c s = .next t) : P t := by
  rw [stepIn_of_engine hm] at ht
  exact hP.engineStep h ht

end

/-! ## The engine and the memories -/

/-- `t` has the input of `s` and its two sizes. -/
def SameInput (s t : State) : Prop := t.input = s.input ∧ t.dsize = s.dsize ∧ t.inLen = s.inLen

theorem sameInput_keptByEmission (s : State) : KeptByEmission (SameInput s) where
  same := fun ⟨hinput, hdsize, hinLen⟩ hsame =>
    ⟨hsame.input.trans hinput, hsame.dsize.trans hdsize, hsame.inLen.trans hinLen⟩
  emit := fun _ h _ => h

/-- From `s` to `t` OPOS has not decreased, and OUT differs at most from the old OPOS up to the new one. -/
structure OutputGrown (s t : State) : Prop where
  oposGe : s.opos.toNat ≤ t.opos.toNat
  outside : ∀ a : Nat, a < s.opos.toNat ∨ t.opos.toNat ≤ a → t.output.read a = s.output.read a

theorem outputGrown_keptByEmission (s : State) : KeptByEmission (OutputGrown s) where
  same := by
    rintro t u ⟨hge, hout⟩ hsame
    exact ⟨by rwa [hsame.opos], by rwa [hsame.opos, hsame.output]⟩
  emit := by
    rintro t b ⟨hge, hout⟩ hroom
    obtain ⟨-, hpos⟩ := outWrite_of_room (b := b) hroom
    refine ⟨by rw [emit_opos, hpos]; omega, fun a ha => ?_⟩
    rw [emit_opos, hpos] at ha
    rw [emit_output, Mem.read_write_other _ b (by omega)]
    exact hout a (by omega)

/-- Settles O47: no update an engine step is made of writes IN, DSIZE or IN_LEN. -/
theorem engineLeavesTheInput : Obligations.EngineLeavesTheInput := by
  unfold Obligations.EngineLeavesTheInput
  intro c s t hm ht
  exact (sameInput_keptByEmission s).stepIn ⟨rfl, rfl, rfl⟩ hm ht

/-- Settles O49: the only writes of OUT are bytes emitted at OPOS, which each moves past its byte. -/
theorem outputGrowsInOrder : Obligations.OutputGrowsInOrder := by
  unfold Obligations.OutputGrowsInOrder
  intro c s t hm _ _ ht
  exact ((outputGrown_keptByEmission s).stepIn ⟨le_rfl, fun _ _ => rfl⟩ hm ht).outside

/-! ## The host and the memories -/

section

variable {ex : Instr → State → Host.Outcome State Fault Refusal} {addr : Word32}

theorem hostStep_writeIn_of_busy (b : Byte) (h : s.status = .busy) :
    hostStep c ex (.writeIn addr b) s = .refused .hostAccess := if_pos h

theorem hostStep_writeIn (b : Byte) (h : s.status ≠ .busy) :
    hostStep c ex (.writeIn addr b) s = .next { s with input := s.input.write addr.toNat b } := if_neg h

theorem hostStep_readIn_forbidden (h : s.status = .busy ∨ s.inLen.toNat ≤ addr.toNat) :
    hostStep c ex (.readIn addr) s = .refused .hostAccess := if_pos h

theorem hostStep_readIn {b : Byte} (hbusy : s.status ≠ .busy) (haddr : addr.toNat < s.inLen.toNat)
    (hb : s.input.read addr.toNat = some b) :
    hostStep c ex (.readIn addr) s = .next { s with readData := b.setWidth 32 } := by
  simp only [hostStep]
  rw [if_neg (not_or.mpr ⟨hbusy, haddr.not_ge⟩), hb, hostRead]

theorem hostStep_readOut_forbidden (h : s.status ≠ .done ∨ s.dsize.toNat ≤ addr.toNat) :
    hostStep c ex (.readOut addr) s = .refused .hostAccess :=
  if_neg fun ⟨hdone, haddr⟩ => h.elim (· hdone) haddr.not_ge

theorem hostStep_readOut {b : Byte} (hdone : s.status = .done) (haddr : addr.toNat < s.dsize.toNat)
    (hb : s.output.read addr.toNat = some b) :
    hostStep c ex (.readOut addr) s = .next { s with readData := b.setWidth 32 } := by
  simp only [hostStep]
  rw [if_pos ⟨hdone, haddr⟩, hb, hostRead]

end

/-- Settles O25, by the accesses of each kind that the host does not have. -/
theorem forbiddenAccessRefused : Obligations.ForbiddenAccessRefused := by
  unfold Obligations.ForbiddenAccessRefused
  intro s addr b rest
  refine ⟨?_, ?_, ?_, ?_⟩
  · rintro hbusy (hm | hm)
    · exact (step_of_move hm).trans (hostStep_writeIn_of_busy b hbusy)
    · exact (step_of_move hm).trans (hostStep_readIn_forbidden (.inl hbusy))
  · exact fun hdone hm => (step_of_move hm).trans (hostStep_readOut_forbidden (.inl hdone))
  · exact fun haddr hm => (step_of_move hm).trans (hostStep_readIn_forbidden (.inr haddr))
  · exact fun haddr hm => (step_of_move hm).trans (hostStep_readOut_forbidden (.inr haddr))

/-- Settles O26, by the accesses that the host has: a write of IN is a write of its memory, a read gives the byte held. -/
theorem allowedAccessWorks : Obligations.AllowedAccessWorks := by
  unfold Obligations.AllowedAccessWorks
  refine ⟨fun s addr b rest hbusy hm => ?_, fun s addr b rest hbusy haddr hb hm => ?_,
    fun s addr b rest hdone haddr hb hm => ?_⟩
  · exact ⟨_, (step_of_move hm).trans (hostStep_writeIn b hbusy), Mem.read_write_same _ _ b,
      fun a ha => Mem.read_write_other _ b ha, rfl⟩
  · exact (step_of_move hm).trans (hostStep_readIn hbusy haddr hb)
  · exact (step_of_move hm).trans (hostStep_readOut hdone haddr hb)

end Sys2Proof.Machine
end

section
/-! PROOF. The decoder and the encoder (30_encoding.md R61 to R67, R72, R73): the fields of a symbol, the bits a window
begins with, what the decoder makes of each form, and the spelling of a length and a distance. -/

namespace Sys2Proof

variable {c : Config} {dbits lnib : Nibble} {extra window padding : BitVec 15} {bytes : List Byte}

/-! ## The fields of a symbol, R61 -/

@[simp] theorem symIsMatch_append (m : BitVec 1) (low : Byte) : symIsMatch (m ++ low) = m.getLsbD 0 := by
  simp only [symIsMatch, BitVec.getLsbD_append]
  rfl

@[simp] theorem symLow_append (m : BitVec 1) (low : Byte) : symLow (m ++ low) = low :=
  BitVec.setWidth_append_eq_right

@[simp] theorem symIsMatch_matchSym (dbits lnib : Nibble) : symIsMatch (matchSym dbits lnib) = true :=
  symIsMatch_append 1#1 (dbits ++ lnib)

@[simp] theorem symLow_matchSym (dbits lnib : Nibble) : symLow (matchSym dbits lnib) = dbits ++ lnib :=
  symLow_append 1#1 (dbits ++ lnib)

@[simp] theorem slotDbits_append (dbits lnib : Nibble) : Config.std.slotDbits (dbits ++ lnib) = dbits :=
  BitVec.extractLsb'_append_eq_left

@[simp] theorem lenSentinel_std : Config.std.lenSentinel = 15 := rfl

@[simp] theorem slotLnib_append (dbits lnib : Nibble) : Config.std.slotLnib (dbits ++ lnib) = lnib :=
  BitVec.extractLsb'_append_eq_right

/-- A value of `m + n` bits is its upper `m` bits before its lower `n`. -/
theorem exists_append {m n : Nat} (x : BitVec (m + n)) : ∃ (hi : BitVec m) (lo : BitVec n), x = hi ++ lo :=
  ⟨x.extractLsb' n m, x.extractLsb' 0 n, by
    rw [BitVec.extractLsb'_append_extractLsb'_eq_extractLsb' (Nat.zero_add n).symm, BitVec.extractLsb'_eq_self]⟩

/-- A symbol is a literal's or a match's, R61. -/
theorem sym_cases (sym : Sym) : (∃ b : Byte, sym = 0#1 ++ b) ∨ ∃ dbits lnib : Nibble, sym = matchSym dbits lnib := by
  obtain ⟨m, low, rfl⟩ := exists_append (m := 1) (n := 8) sym
  rcases BitVec.eq_zero_or_eq_one m with rfl | rfl
  · exact .inl ⟨low, rfl⟩
  · obtain ⟨dbits, lnib, rfl⟩ := exists_append (m := 4) (n := 4) low
    exact .inr ⟨dbits, lnib, rfl⟩

/-- The two bytes of a word, and the word they spell. -/
theorem wordOfBytes_bytes (v : Word16) : wordOfBytes (v.setWidth 8) ((v >>> 8).setWidth 8) = v := by
  obtain ⟨hi, lo, rfl⟩ := exists_append (m := 8) (n := 8) v
  rw [show hi ++ lo = wordOfBytes lo hi from rfl, Machine.wordOfBytes_low, Machine.wordOfBytes_high]

/-! ## The bits of a window, R67 -/

theorem windowBits_toNat (window : BitVec 15) (n : Nat) : (windowBits window n).toNat = window.toNat / 2 ^ (15 - n) := by
  rw [windowBits, BitVec.toNat_ushiftRight, Nat.shiftRight_eq_div_pow]

theorem windowBits_lt (window : BitVec 15) {n : Nat} (hn : n ≤ 15) : (windowBits window n).toNat < 2 ^ n := by
  rw [windowBits_toNat, Nat.div_lt_iff_lt_mul (Nat.two_pow_pos _), ← pow_add, Nat.add_sub_cancel' hn]
  exact window.isLt

/-- A window that begins with `n` bits, whatever follows them. -/
theorem windowBits_shiftLeft_or {n : Nat} (hn : n ≤ 15) (hextra : extra.toNat < 2 ^ n)
    (hpadding : padding.toNat < 2 ^ (15 - n)) : windowBits (extra <<< (15 - n) ||| padding) n = extra := by
  have hfit : extra.toNat <<< (15 - n) < 2 ^ 15 := by
    calc extra.toNat <<< (15 - n) = extra.toNat * 2 ^ (15 - n) := Nat.shiftLeft_eq _ _
      _ < 2 ^ n * 2 ^ (15 - n) := Nat.mul_lt_mul_of_pos_right hextra (Nat.two_pow_pos _)
      _ = 2 ^ 15 := by rw [← pow_add, Nat.add_sub_cancel' hn]
  apply BitVec.eq_of_toNat_eq
  rw [windowBits, BitVec.toNat_ushiftRight, BitVec.toNat_or, BitVec.toNat_shiftLeft, Nat.mod_eq_of_lt hfit,
    Nat.shiftRight_or_distrib, Nat.shiftLeft_shiftRight, Nat.shiftRight_eq_div_pow, Nat.div_eq_of_lt hpadding, Nat.or_zero]

theorem windowBits_zero (window : BitVec 15) : windowBits window 0 = 0 :=
  BitVec.eq_of_toNat_eq (Nat.lt_one_iff.mp (windowBits_lt window (Nat.zero_le 15)))

theorem nibble_le (n : Nibble) : n.toNat ≤ 15 := Nat.le_of_lt_succ n.isLt

/-! ## The constraints of the forms, R63 to R65 -/

theorem wellFormed_matchM :
    (Instr.matchM dbits lnib extra).wellFormed = true ↔ lnib ≠ 15 ∧ extra.toNat < 2 ^ dbits.toNat := by
  simp [Instr.wellFormed, Instr.wellFormedIn, extraFits, Config.std]

theorem wellFormed_matchX8 {b : Byte} :
    (Instr.matchX8 dbits b extra).wellFormed = true ↔ b ≠ 255 ∧ extra.toNat < 2 ^ dbits.toNat := by
  simp [Instr.wellFormed, Instr.wellFormedIn, extraFits]

theorem wellFormed_matchX16 {v : Word16} :
    (Instr.matchX16 dbits v extra).wellFormed = true ↔ 15 ≤ v.toNat ∧ extra.toNat < 2 ^ dbits.toNat := by
  simp [Instr.wellFormed, Instr.wellFormedIn, extraFits]

/-! ## The decoder, R72 -/

theorem decodeToken_lit (b : Byte) (bytes : List Byte) (window : BitVec 15) :
    decodeToken c (0#1 ++ b) bytes window = .ok (.lit b, bytes) := by
  rw [decodeToken, if_pos (show symIsMatch (0#1 ++ b) = false from symIsMatch_append 0#1 b), symLow_append]

/-- A saturated length nibble asks for an extension byte, any other for none. -/
theorem decodeToken_matchM (bytes : List Byte) (window : BitVec 15) (h : lnib ≠ 15) :
    decodeToken Config.std (matchSym dbits lnib) bytes window =
      .ok (.matchM dbits lnib (windowBits window dbits.toNat), bytes) := by
  rw [decodeToken, if_neg (by simp)]
  simp only [symLow_matchSym, slotLnib_append, slotDbits_append, lenSentinel_std]
  rw [if_pos h]

theorem decodeToken_matchX8 {b : Byte} (bytes : List Byte) (window : BitVec 15) (h : b ≠ 255) :
    decodeToken Config.std (matchSym dbits 15) (b :: bytes) window =
      .ok (.matchX8 dbits b (windowBits window dbits.toNat), bytes) := by
  rw [decodeToken, if_neg (by simp)]
  simp only [symLow_matchSym, slotLnib_append, slotDbits_append, lenSentinel_std]
  rw [if_neg (not_not_intro rfl), if_pos h]

theorem decodeToken_matchX16 (lo hi : Byte) (bytes : List Byte) (window : BitVec 15) :
    decodeToken Config.std (matchSym dbits 15) (255 :: lo :: hi :: bytes) window =
      .ok (.matchX16 dbits (wordOfBytes lo hi) (windowBits window dbits.toNat), bytes) := by
  rw [decodeToken, if_neg (by simp)]
  simp only [symLow_matchSym, slotLnib_append, slotDbits_append, lenSentinel_std]
  rw [if_neg (not_not_intro rfl), if_neg (not_not_intro rfl)]

/-- A well-formed token is read off its symbol, its extension bytes and a window that begins with its distance bits. -/
theorem decodeToken_of_windowBits {i : Instr} (rest : List Byte) (hwf : i.wellFormed = true)
    (hi : ∀ value, i ≠ .start value) (hwindow : windowBits window (tokenExtra i).1 = (tokenExtra i).2) :
    decodeToken Config.std (tokenSym i) (tokenBytes i ++ rest) window = .ok (i, rest) := by
  cases i with
  | lit b => exact decodeToken_lit b rest window
  | matchM dbits lnib extra =>
    obtain ⟨hlnib, -⟩ := wellFormed_matchM.mp hwf
    have hwindow : windowBits window dbits.toNat = extra := hwindow
    exact (decodeToken_matchM rest window hlnib).trans (by rw [hwindow])
  | matchX8 dbits b extra =>
    obtain ⟨hb, -⟩ := wellFormed_matchX8.mp hwf
    have hwindow : windowBits window dbits.toNat = extra := hwindow
    exact (decodeToken_matchX8 rest window hb).trans (by rw [hwindow])
  | matchX16 dbits v extra =>
    have hwindow : windowBits window dbits.toNat = extra := hwindow
    exact (decodeToken_matchX16 _ _ rest window).trans (by rw [hwindow, wordOfBytes_bytes])
  | start value => exact absurd rfl (hi value)

/-- The extra distance bits of a well-formed token fit the fifteen bits of a window, R67. -/
theorem tokenExtra_fits {i : Instr} (hwf : i.wellFormed = true) :
    (tokenExtra i).1 ≤ 15 ∧ (tokenExtra i).2.toNat < 2 ^ (tokenExtra i).1 := by
  cases i with
  | lit b => exact ⟨Nat.zero_le _, Nat.one_pos⟩
  | matchM dbits lnib extra => exact ⟨nibble_le dbits, (wellFormed_matchM.mp hwf).2⟩
  | matchX8 dbits b extra => exact ⟨nibble_le dbits, (wellFormed_matchX8.mp hwf).2⟩
  | matchX16 dbits v extra => exact ⟨nibble_le dbits, (wellFormed_matchX16.mp hwf).2⟩
  | start value => exact ⟨Nat.zero_le _, Nat.one_pos⟩

theorem decodeToken_encode {i : Instr} (rest : List Byte) (hwf : i.wellFormed = true) (hi : ∀ value, i ≠ .start value)
    (hpadding : padding.toNat < 2 ^ (15 - (tokenExtra i).1)) :
    decodeToken Config.std (tokenSym i) (tokenBytes i ++ rest) (tokenWindow i ||| padding) = .ok (i, rest) :=
  have ⟨hbits, hextra⟩ := tokenExtra_fits hwf
  decodeToken_of_windowBits rest hwf hi (windowBits_shiftLeft_or hbits hextra hpadding)

theorem encode_token {i : Instr} (hi : ∀ value, i ≠ .start value) :
    encode i = .token (tokenSym i) (tokenBytes i) (tokenWindow i) := by
  cases i with
  | start value => exact absurd rfl (hi value)
  | _ => rfl

/-- Settles O56: a token's words are a symbol, its bytes and a window with no other bits; a command is its own word. -/
theorem decodeEncode : Obligations.DecodeEncode := by
  unfold Obligations.DecodeEncode
  refine ⟨fun i hwf => ?_, fun i rest padding hwf hi hpadding => decodeToken_encode rest hwf hi hpadding⟩
  by_cases hstart : ∃ value, i = .start value
  · obtain ⟨value, rfl⟩ := hstart
    exact Machine.decodeCommand_of_bit hwf
  · have hi : ∀ value, i ≠ .start value := fun value h => hstart ⟨value, h⟩
    have htoken := decodeToken_encode (padding := 0#15) [] hwf hi (Nat.two_pow_pos _)
    rw [List.append_nil, BitVec.or_zero] at htoken
    rw [encode_token hi, decode, htoken]
    rfl

/-- Settles O57, by the two kinds of symbol, and for a match by its length nibble and its first extension byte. -/
theorem encodeDecode : Obligations.EncodeDecode := by
  unfold Obligations.EncodeDecode
  intro sym b₀ b₁ b₂ rest window
  rcases sym_cases sym with ⟨b, rfl⟩ | ⟨dbits, lnib, rfl⟩
  · exact ⟨_, _, decodeToken_lit b _ window, rfl, rfl, (windowBits_zero window).symm, .inl rfl⟩
  · have hextra := windowBits_lt window (nibble_le dbits)
    by_cases hlnib : lnib = 15
    · subst hlnib
      by_cases hb : b₀ = 255
      · subst hb
        refine ⟨_, _, decodeToken_matchX16 b₁ b₂ rest window, rfl, ?_, rfl, ?_⟩
        · simp [tokenBytes, Machine.wordOfBytes_low, Machine.wordOfBytes_high]
        · rcases Nat.lt_or_ge (wordOfBytes b₁ b₂).toNat 15 with hv | hv
          · exact .inr ⟨_, _, _, rfl, hv⟩
          · exact .inl (wellFormed_matchX16.mpr ⟨hv, hextra⟩)
      · exact ⟨_, _, decodeToken_matchX8 _ window hb, rfl, rfl, rfl, .inl (wellFormed_matchX8.mpr ⟨hb, hextra⟩)⟩
    · exact ⟨_, _, decodeToken_matchM _ window hlnib, rfl, rfl, rfl, .inl (wellFormed_matchM.mpr ⟨hlnib, hextra⟩)⟩

/-- Settles O58: the five words are read off the decoder. -/
theorem wordsDecode : Obligations.WordsDecode := by
  unfold Obligations.WordsDecode
  decide

/-! ## Spelling a match, R67 and R73 -/

open Machine

theorem shortLength_std (lnib : Nibble) : shortLength Config.std lnib = lnib.toNat + 3 := rfl

theorem extLength8_std (b : Byte) : extLength8 Config.std b = b.toNat + 15 + 3 := rfl

theorem extLength16_std (v : Word16) : extLength16 Config.std v = v.toNat + 3 := rfl

theorem distance_std (dbits : Nibble) (extra : BitVec 15) :
    distance Config.std dbits extra = 2 ^ dbits.toNat + extra.toNat :=
  congrArg (· + extra.toNat) (Nat.one_shiftLeft dbits.toNat)

/-- The extra distance bits of a distance are those below its leading one, so `dbits` is that one's place. -/
theorem log2_distance (hextra : extra.toNat < 2 ^ dbits.toNat) : (distance Config.std dbits extra).log2 = dbits.toNat := by
  have hpos := Nat.two_pow_pos dbits.toNat
  rw [distance_std, Nat.log2_eq_iff (by omega), pow_succ]
  omega

theorem distance_injective {dbits' : Nibble} {extra' : BitVec 15} (hextra : extra.toNat < 2 ^ dbits.toNat)
    (hextra' : extra'.toNat < 2 ^ dbits'.toNat)
    (h : distance Config.std dbits extra = distance Config.std dbits' extra') : dbits = dbits' ∧ extra = extra' := by
  obtain rfl : dbits = dbits' :=
    BitVec.eq_of_toNat_eq ((log2_distance hextra).symm.trans ((congrArg Nat.log2 h).trans (log2_distance hextra')))
  rw [distance_std, distance_std] at h
  exact ⟨rfl, BitVec.eq_of_toNat_eq (Nat.add_left_cancel h)⟩

/-- The operands that `spellMatch` takes for a distance fit, and spell it. -/
theorem spelled_distance {dist : Nat} (hpos : 1 ≤ dist) (hmax : dist ≤ 65535) :
    (BitVec.ofNat 15 (dist - 2 ^ dist.log2)).toNat < 2 ^ (BitVec.ofNat 4 dist.log2).toNat ∧
      2 ^ (BitVec.ofNat 4 dist.log2).toNat + (BitVec.ofNat 15 (dist - 2 ^ dist.log2)).toNat = dist := by
  have hlog : dist.log2 < 16 := (Nat.log2_lt (by omega)).mpr (by omega)
  have hlow : 2 ^ dist.log2 ≤ dist := Nat.log2_self_le (by omega)
  have hhigh : dist < 2 ^ dist.log2 * 2 := Nat.lt_log2_self
  have hle : 2 ^ dist.log2 ≤ 2 ^ 15 := Nat.pow_le_pow_right (by decide) (by omega)
  rw [BitVec.toNat_ofNat, BitVec.toNat_ofNat, Nat.mod_eq_of_lt hlog, Nat.mod_eq_of_lt (by omega)]
  omega

/-- The shortest form that fits the length, R66 and R73. -/
theorem spellMatch_spells {length dist : Nat} (hmin : 3 ≤ length) (hmax : length ≤ 65538) (hpos : 1 ≤ dist)
    (hdist : dist ≤ 65535) :
    ∃ i, spellMatch length dist = some i ∧ i.wellFormed = true ∧ isMatchForm i = true ∧ matchLength i = length ∧
      2 ^ (tokenExtra i).1 + (tokenExtra i).2.toNat = dist := by
  obtain ⟨hfits, hspells⟩ := spelled_distance hpos hdist
  have hrange : ¬(dist = 0 ∨ 65535 < dist ∨ length < 3 ∨ 65538 < length) := by omega
  rw [spellMatch, if_neg hrange]
  by_cases h₁ : length < 18
  · refine ⟨_, if_pos h₁, wellFormed_matchM.mpr ⟨?_, hfits⟩, rfl, ?_, hspells⟩
    · bv_omega
    · rw [matchLength, shortLength_std, BitVec.toNat_ofNat]
      omega
  · by_cases h₂ : length < 273
    · refine ⟨_, (if_neg h₁).trans (if_pos h₂), wellFormed_matchX8.mpr ⟨?_, hfits⟩, rfl, ?_, hspells⟩
      · bv_omega
      · rw [matchLength, extLength8_std, BitVec.toNat_ofNat]
        omega
    · refine ⟨_, (if_neg h₁).trans (if_neg h₂), wellFormed_matchX16.mpr ⟨?_, hfits⟩, rfl, ?_, hspells⟩
      · bv_omega
      · rw [matchLength, extLength16_std, BitVec.toNat_ofNat]
        omega

/-- Settles O59, by the form that fits the length and the place of the distance's leading one. -/
theorem everyMatchCanBeSpelled : Obligations.EveryMatchCanBeSpelled := by
  unfold Obligations.EveryMatchCanBeSpelled
  exact ⟨fun _ _ => spellMatch_spells, fun _ _ _ _ => distance_injective⟩

end Sys2Proof
end

section
/-! PROOF. The canonical code of a complete table (41_table_builder.md R92 to R102): the Kraft sum bounds the codes, and the
search by length of LOOKUP finds the symbol whose codeword begins the pattern. -/

namespace Sys2Proof.Machine

variable {len : Vector Nibble 512} {d : Datapath} {sym l : Nat}

/-! ## Reading the tables -/

@[simp] theorem getElem_tabulate {α : Type} {n : Nat} (f : Nat → α) {k : Nat} (h : k < n) :
    (tabulate n f)[k] = f k := by
  simp [tabulate]

theorem getD_toList_tabulate {α : Type} {n : Nat} (f : Nat → α) (x : α) {k : Nat} (h : k < n) :
    (tabulate n f).toList.getD k x = f k := by
  simp [tabulate, List.getD_eq_getElem?_getD, h]

theorem countLength_le (len : Vector Nibble 512) (l : Nat) : countLength len l ≤ 512 :=
  List.countP_le_length.trans_eq len.length_toList

@[simp] theorem cntAt_zero (cnt : Vector (BitVec 10) 15) : cntAt cnt 0 = 0 := by simp [cntAt]

theorem cntAt_countTable (h₁ : 1 ≤ l) (h₁₅ : l ≤ 15) : cntAt (countTable len) l = countLength len l := by
  have hle := countLength_le len l
  rw [cntAt, dif_pos (by omega), if_neg (by omega), countTable, getElem_tabulate, BitVec.toNat_ofNat,
    Nat.sub_add_cancel h₁, Nat.mod_eq_of_lt (by omega)]

theorem cntAt_countTable_le (len : Vector Nibble 512) (l : Nat) : cntAt (countTable len) l ≤ 512 := by
  by_cases h : 1 ≤ l ∧ l ≤ 15
  · exact (cntAt_countTable h.1 h.2).trans_le (countLength_le len l)
  · have h₀ : cntAt (countTable len) l = 0 := by
      unfold cntAt
      split
      · exact if_pos (by omega)
      · rfl
    omega

theorem lenAt_le (len : Vector Nibble 512) (sym : Nat) : lenAt len sym ≤ 15 := by
  unfold lenAt
  split
  · exact nibble_le _
  · exact Nat.zero_le _

/-! ## The Kraft sum, R97 and R100 -/

/-- The part of the Kraft sum due to the lengths below `l`. -/
def kraftBelow (cnt : Vector (BitVec 10) 15) (l : Nat) : Nat := ∑ k ∈ Finset.range l, cntAt cnt k * 2 ^ (15 - k)

theorem kraftBelow_succ (cnt : Vector (BitVec 10) 15) (l : Nat) :
    kraftBelow cnt (l + 1) = kraftBelow cnt l + cntAt cnt l * 2 ^ (15 - l) :=
  Finset.sum_range_succ _ _

theorem kraftBelow_mono (cnt : Vector (BitVec 10) 15) {k l : Nat} (h : k ≤ l) : kraftBelow cnt k ≤ kraftBelow cnt l :=
  Finset.sum_le_sum_of_subset (Finset.range_subset_range.mpr h)

/-- FIRST counts, in codes of length `l`, what the shorter codewords take of the patterns (R96). -/
theorem firstCode_mul (cnt : Vector (BitVec 10) 15) (h : l ≤ 15) : firstCode cnt l * 2 ^ (15 - l) = kraftBelow cnt l := by
  induction l with
  | zero => simp [firstCode, kraftBelow]
  | succ l ih =>
    have hpow : 2 ^ (15 - l) = 2 * 2 ^ (15 - (l + 1)) := by rw [← pow_succ']; congr 1; omega
    have ih := ih (by omega)
    rw [kraftBelow_succ, ← ih, firstCode, Nat.shiftLeft_eq, hpow]
    ring

/-- KRAFT is the whole sum, which fits its 24 bits. -/
theorem kraftSum_toNat (len : Vector Nibble 512) :
    (kraftSum (countTable len)).toNat = kraftBelow (countTable len) 16 := by
  have hsum : ((List.range' 1 15).map fun l => cntAt (countTable len) l * 2 ^ (15 - l)).sum =
      kraftBelow (countTable len) 16 := by
    simp [kraftBelow, List.range', Finset.sum_range_succ, Nat.add_assoc]
  have hlt : kraftBelow (countTable len) 16 < 2 ^ 24 := by
    calc kraftBelow (countTable len) 16
        ≤ ∑ k ∈ Finset.range 16, (if k = 0 then 0 else 512) * 2 ^ (15 - k) :=
          Finset.sum_le_sum fun k _ => Nat.mul_le_mul_right _ (by
            split
            · rename_i h₀
              rw [h₀, cntAt_zero]
            · exact cntAt_countTable_le len k)
      _ < 2 ^ 24 := by decide
  rw [kraftSum, hsum, BitVec.toNat_ofNat, Nat.mod_eq_of_lt hlt]

/-- CLASSIFY's last case asks for the whole Kraft sum, R93. -/
theorem kraft_of_classify {nnz : BitVec 10} {kraft : BitVec 24} (h : classify nnz kraft = .complete) : kraft = 32768 := by
  unfold classify at h
  split at h
  · cases h
  · split at h
    · cases h
    · split at h
      · cases h
      · rename_i hk
        exact not_not.mp hk

theorem CompleteTable.kraft (h : CompleteTable len) : kraftBelow (countTable len) 16 = 2 ^ 15 :=
  (kraftSum_toNat len).symm.trans (congrArg BitVec.toNat (kraft_of_classify h))

/-- R100: the codewords of length `l` end within the patterns of `l` bits. -/
theorem CompleteTable.firstCode_add_cnt_le (h : CompleteTable len) (h₁₅ : l ≤ 15) :
    firstCode (countTable len) l + cntAt (countTable len) l ≤ 2 ^ l := by
  have hbelow : (firstCode (countTable len) l + cntAt (countTable len) l) * 2 ^ (15 - l) ≤ 2 ^ l * 2 ^ (15 - l) := by
    calc (firstCode (countTable len) l + cntAt (countTable len) l) * 2 ^ (15 - l)
        = kraftBelow (countTable len) (l + 1) := by rw [Nat.add_mul, firstCode_mul _ h₁₅, kraftBelow_succ]
      _ ≤ kraftBelow (countTable len) 16 := kraftBelow_mono _ (by omega)
      _ = 2 ^ l * 2 ^ (15 - l) := by rw [h.kraft, ← pow_add, Nat.add_sub_cancel' h₁₅]
  exact Nat.le_of_mul_le_mul_right hbelow (Nat.two_pow_pos _)

/-! ## The codes, R98 -/

theorem firstAt_firstTable (cnt : Vector (BitVec 10) 15) (h₁ : 1 ≤ l) (h₁₅ : l ≤ 15)
    (hlt : firstCode cnt l < 2 ^ 16) :
    firstAt (firstTable cnt) l = firstCode cnt l := by
  rw [firstAt, dif_pos (by omega), firstTable, getElem_tabulate, BitVec.toNat_ofNat, Nat.sub_add_cancel h₁,
    Nat.mod_eq_of_lt hlt]

/-- FIRST of a built table, which its entries hold without truncation. -/
theorem BuiltTable.firstAt_eq (h : BuiltTable d) (h₁ : 1 ≤ l) (h₁₅ : l ≤ 15) :
    firstAt d.first l = firstCode d.cnt l := by
  have hle := h.complete.firstCode_add_cnt_le h₁₅
  have hpow : 2 ^ l ≤ 2 ^ 15 := Nat.pow_le_pow_right (by decide) h₁₅
  rw [h.first, h.cnt]
  exact firstAt_firstTable _ h₁ h₁₅ (by omega)

/-- A symbol comes after fewer symbols of its length than there are. -/
theorem rankBelow_lt_countLength (hsym : sym < 512) :
    rankBelow len sym (lenAt len sym) < countLength len (lenAt len sym) := by
  have hsym' : sym < len.toList.length := by rw [Vector.length_toList]; exact hsym
  have hsplit : countLength len (lenAt len sym) = rankBelow len sym (lenAt len sym) +
      (len.toList.drop sym).countP fun x => x.toNat == lenAt len sym := by
    rw [countLength, rankBelow, ← List.countP_append, List.take_append_drop]
  have hpos : 0 < (len.toList.drop sym).countP fun x => x.toNat == lenAt len sym :=
    List.countP_pos_iff.mpr ⟨len[sym], by
      rw [List.drop_eq_getElem_cons hsym']
      simp, by simp [lenAt, hsym]⟩
  omega

/-- The rank of a coded symbol among those of its length, R98. -/
theorem rankBelow_lt (hsym : sym < 512) (hl : lenAt len sym ≠ 0) :
    rankBelow len sym (lenAt len sym) < cntAt (countTable len) (lenAt len sym) := by
  rw [cntAt_countTable (by omega) (lenAt_le len sym)]
  exact rankBelow_lt_countLength hsym

/-- The code of a symbol, and that it fits its length: R98 and R100. -/
theorem BuiltTable.code_eq (h : BuiltTable d) (hsym : sym < 512) (hl : lenAt d.len sym ≠ 0) :
    (d.code.toList.getD sym 0).toNat = firstCode d.cnt (lenAt d.len sym) + rankBelow d.len sym (lenAt d.len sym) ∧
      (d.code.toList.getD sym 0).toNat < 2 ^ lenAt d.len sym := by
  obtain ⟨old, hcode⟩ := h.code
  have h₁₅ := lenAt_le d.len sym
  have hle := h.complete.firstCode_add_cnt_le h₁₅
  have hrank := rankBelow_lt hsym hl
  have hpow : 2 ^ lenAt d.len sym ≤ 2 ^ 15 := Nat.pow_le_pow_right (by decide) h₁₅
  rw [hcode, assignCodes, getD_toList_tabulate _ _ hsym, if_neg hl, h.firstAt_eq (by omega) h₁₅, BitVec.toNat_ofNat,
    h.cnt, Nat.mod_eq_of_lt (by omega)]
  omega

/-! ## LOOKUP, R101 -/

/-- The search for the symbol of a rank among those of a length. -/
theorem nthOfLength_countP (xs : List Nibble) (i : Nat) {j : Nat} (hj : j < xs.length) :
    nthOfLength xs xs[j].toNat ((xs.take j).countP fun x => x.toNat == xs[j].toNat) i = some (i + j) := by
  induction xs generalizing i j with
  | nil => cases hj
  | cons x xs ih =>
    cases j with
    | zero => simp [nthOfLength]
    | succ j =>
      have hj : j < xs.length := Nat.lt_of_succ_lt_succ hj
      have ih := ih (i + 1) hj
      rw [Nat.add_right_comm, Nat.add_assoc] at ih
      by_cases hx : x.toNat = xs[j].toNat
      · simpa [nthOfLength, hx] using ih
      · simpa [nthOfLength, hx] using ih

/-- A pattern from the first code of length `l` on lies beyond every shorter codeword. -/
theorem firstCode_add_cnt_le_shiftRight {cnt : Vector (BitVec 10) 15} {p k : Nat} (h₁₅ : l ≤ 15) (hk : k < l)
    (hp : firstCode cnt l ≤ p >>> (15 - l)) : firstCode cnt k + cntAt cnt k ≤ p >>> (15 - k) := by
  induction l with
  | zero => cases hk
  | succ l ih =>
    have hstep : firstCode cnt l + cntAt cnt l ≤ p >>> (15 - l) := by
      rw [show 15 - l = 15 - (l + 1) + 1 by omega, Nat.shiftRight_succ]
      rw [firstCode, Nat.shiftLeft_eq] at hp
      omega
    rcases Nat.lt_succ_iff_lt_or_eq.mp hk with hlt | rfl
    · exact ih (by omega) hlt (by omega)
    · exact hstep

/-- R101: the search stops at the symbol whose codeword begins the pattern, with that codeword's length. -/
theorem BuiltTable.lookup_eq {p : BitVec 15} {sym : Sym} (h : BuiltTable d) (hp : CodeBegins d p sym) :
    lookup d p = some (sym, lenAt d.len sym.toNat) := by
  obtain ⟨hl, hp⟩ := hp
  have hsym : sym.toNat < 512 := sym.isLt
  have h₁₅ := lenAt_le d.len sym.toNat
  have hrank := rankBelow_lt hsym hl
  rw [(h.code_eq hsym hl).1] at hp
  rw [← h.cnt] at hrank
  generalize hlen : lenAt d.len sym.toNat = l at *
  have hfound : lookupAt d p.toNat l = some (sym, l) := by
    have hsearch : nthOfLength d.len.toList l (rankBelow d.len sym.toNat l) 0 = some sym.toNat := by
      have hj : sym.toNat < d.len.toList.length := by rw [Vector.length_toList]; exact hsym
      have hget : d.len.toList[sym.toNat].toNat = l := by rw [← hlen, lenAt, dif_pos hsym]; simp
      have := nthOfLength_countP d.len.toList 0 hj
      rwa [hget, Nat.zero_add] at this
    simp only [lookupAt]
    rw [h.firstAt_eq (by omega) h₁₅, if_pos (by omega), hp, Nat.add_sub_cancel_left, hsearch]
    simp
  have hshorter (k : Nat) (hk₁ : 1 ≤ k) (hk : k < l) : lookupAt d p.toNat k = none := by
    have := firstCode_add_cnt_le_shiftRight h₁₅ hk (p := p.toNat) (cnt := d.cnt) (by omega)
    simp only [lookupAt]
    rw [h.firstAt_eq hk₁ (by omega), if_neg (by omega)]
  rw [lookup, List.findSome?_eq_some_iff]
  refine ⟨List.range' 1 (l - 1), l, List.range' (l + 1) (15 - l), ?_, hfound, fun k hk => ?_⟩
  · have hsplit := List.range'_append_1 (s := 1) (m := l - 1) (n := 15 - l + 1)
    rw [Nat.add_sub_cancel' (by omega), show l - 1 + (15 - l + 1) = 15 by omega, List.range'_succ] at hsplit
    exact hsplit.symm
  · rw [List.mem_range'_1] at hk
    exact hshorter k (by omega) (by omega)

end Sys2Proof.Machine
end

section
/-! PROOF. The assembler's bits and fetch units (30_encoding.md R56, R57, R59, R74): the number a list of bits spells, the
bits of a number and of a byte, the units laid out as bytes, and the table bytes read back as lengths. -/

namespace Sys2Proof.Machine

variable {bits : List Bool} {units : List FetchUnit}

/-! ## The number some bits spell -/

/-- The number a list of bits spells, first bit most significant. -/
def natOfBits : List Bool → Nat
  | [] => 0
  | b :: bs => b.toNat * 2 ^ bs.length + natOfBits bs

theorem natOfBits_append (xs ys : List Bool) : natOfBits (xs ++ ys) = natOfBits xs * 2 ^ ys.length + natOfBits ys := by
  induction xs with
  | nil => simp [natOfBits]
  | cons x xs ih =>
    simp only [List.cons_append, natOfBits, ih, List.length_append, pow_add]
    ring

theorem natOfBits_lt (bs : List Bool) : natOfBits bs < 2 ^ bs.length := by
  induction bs with
  | nil => exact Nat.one_pos
  | cons b bs ih =>
    have hb : b.toNat * 2 ^ bs.length ≤ 1 * 2 ^ bs.length := Nat.mul_le_mul_right _ (Bool.toNat_le b)
    rw [natOfBits, List.length_cons, pow_succ]
    omega

@[simp] theorem length_bitsOf (n v : Nat) : (bitsOf n v).length = n := by
  induction n with
  | zero => rfl
  | succ n ih => simp [bitsOf, ih]

theorem natOfBits_bitsOf (n v : Nat) : natOfBits (bitsOf n v) = v % 2 ^ n := by
  induction n with
  | zero => simp [bitsOf, natOfBits, Nat.mod_one]
  | succ n ih =>
    rw [bitsOf, natOfBits, ih, length_bitsOf, Nat.mod_pow_succ, Nat.toNat_testBit]
    ring

/-! ## Bytes and units -/

/-- Missing bits are 0, so that zeros after the bits change none. -/
theorem getD_append_zeros (bits : List Bool) (k i : Nat) :
    (bits ++ List.replicate k false).getD i false = bits.getD i false := by
  rw [List.getD_eq_getElem?_getD, List.getD_eq_getElem?_getD, List.getElem?_append]
  split
  · rfl
  · rw [List.getElem?_replicate, List.getElem?_eq_none (by omega)]
    split <;> rfl

theorem byteOfBits_append_zeros (bits : List Bool) (k : Nat) :
    byteOfBits (bits ++ List.replicate k false) = byteOfBits bits := by
  simp only [byteOfBits, getD_append_zeros]

/-- The sum that `byteOfBits` makes, of the first `n` bits. -/
theorem foldl_getD (bits : List Bool) {n : Nat} (h : n ≤ bits.length) :
    (List.range n).foldl (fun v k => 2 * v + (bits.getD k false).toNat) 0 = natOfBits (bits.take n) := by
  induction n with
  | zero => rfl
  | succ n ih =>
    rw [List.range_succ, List.foldl_append, ih (by omega), List.take_add_one, natOfBits_append,
      List.getElem?_eq_getElem (by omega)]
    simp [natOfBits, Nat.mul_comm, List.getElem?_eq_getElem (show n < bits.length by omega)]

/-- The byte of eight bits, whatever follows them. -/
theorem byteOfBits_toNat {bits : List Bool} (h : bits.length = 8) (rest : List Bool) :
    (byteOfBits (bits ++ rest)).toNat = natOfBits bits := by
  have hlt := natOfBits_lt bits
  rw [h] at hlt
  rw [byteOfBits, foldl_getD _ (by simp [h]), ← h, List.take_left, h, BitVec.toNat_ofNat, Nat.mod_eq_of_lt hlt]

/-- A word emitted of sixteen bits is the number they spell, R57. -/
theorem wordOfBytes_toNat {bits : List Bool} (h : bits.length = 16) (rest : List Bool) :
    (wordOfBytes (byteOfBits ((bits ++ rest).drop 8)) (byteOfBits (bits ++ rest))).toNat = natOfBits bits := by
  obtain ⟨hi, lo, rfl, hhi⟩ : ∃ hi lo, bits = hi ++ lo ∧ hi.length = 8 :=
    ⟨bits.take 8, bits.drop 8, (List.take_append_drop 8 bits).symm, by rw [List.length_take]; omega⟩
  have hlo : lo.length = 8 := by rw [List.length_append] at h; omega
  have hdrop : (hi ++ (lo ++ rest)).drop 8 = lo ++ rest := by rw [← hhi, List.drop_left]
  have hlt := natOfBits_lt lo
  rw [List.append_assoc, hdrop, wordOfBytes, BitVec.toNat_append, byteOfBits_toNat hhi, byteOfBits_toNat hlo,
    natOfBits_append, ← Nat.shiftLeft_add_eq_or_of_lt (hlo ▸ hlt), Nat.shiftLeft_eq, hlo]

/-- The zeros that R74 pads the bits with change no byte. -/
theorem emitUnits_append_zeros (units : List FetchUnit) (bits : List Bool) (k : Nat) :
    emitUnits units (bits ++ List.replicate k false) = emitUnits units bits := by
  induction units generalizing bits k with
  | nil => rfl
  | cons u us ih =>
    cases u with
    | word =>
      simp only [emitUnits, List.drop_append, List.drop_replicate, byteOfBits_append_zeros, ih]
    | extension bytes => simp only [emitUnits, ih]

/-- How many words stand among some units. -/
def wordCount : List FetchUnit → Nat
  | [] => 0
  | .word :: us => wordCount us + 1
  | .extension _ :: us => wordCount us

/-- Sixteen bits for every word: where a word comes next, it has its bits. -/
theorem exists_word {ahead : List Bool} (h : ahead.length = 16 * wordCount (.word :: units)) :
    ∃ word ahead', ahead = word ++ ahead' ∧ word.length = 16 ∧ ahead'.length = 16 * wordCount units := by
  rw [wordCount] at h
  exact ⟨ahead.take 16, ahead.drop 16, (List.take_append_drop 16 ahead).symm, by rw [List.length_take]; omega,
    by rw [List.length_drop]; omega⟩

theorem emitUnits_word {word : List Bool} (h : word.length = 16) (units : List FetchUnit) (ahead : List Bool) :
    emitUnits (.word :: units) (word ++ ahead) =
      byteOfBits ((word ++ ahead).drop 8) :: byteOfBits (word ++ ahead) :: emitUnits units ahead := by
  rw [emitUnits, ← h, List.drop_left]

theorem wordCount_append (us vs : List FetchUnit) : wordCount (us ++ vs) = wordCount us + wordCount vs := by
  induction us with
  | nil => simp [wordCount]
  | cons u us ih =>
    cases u with
    | word => rw [List.cons_append, wordCount, wordCount, ih, Nat.add_right_comm]
    | extension bytes => rw [List.cons_append, wordCount, wordCount, ih]

/-! ## The table, R59 -/

theorem unpackLengths_append (o : NibbleEven) (xs ys : List Byte) :
    unpackLengths o (xs ++ ys) = unpackLengths o xs ++ unpackLengths o ys := by
  induction xs with
  | nil => rfl
  | cons x xs ih => rw [List.cons_append, unpackLengths, unpackLengths, ih, List.append_assoc]

theorem unpackLengths_pairs (f : Nat → Nibble) (n : Nat) :
    unpackLengths .low ((List.range n).map fun i => f (2 * i + 1) ++ f (2 * i)) = (List.range (2 * n)).map f := by
  induction n with
  | zero => rfl
  | succ n ih =>
    rw [List.range_succ, List.map_append, unpackLengths_append, ih, Nat.mul_succ, List.range_succ, List.range_succ]
    simp only [List.map_append, List.map_cons, List.map_nil, List.append_assoc, List.cons_append, List.nil_append,
      unpackLengths, byteLengths]
    rw [BitVec.extractLsb'_append_eq_left, BitVec.extractLsb'_append_eq_right]

theorem length_tableOf (len : Vector Nibble 512) : (tableOf len).length = 256 := by simp [tableOf]

/-- The table bytes of some lengths unpack to these lengths. -/
theorem vectorOfList_unpackLengths_tableOf (len : Vector Nibble 512) :
    vectorOfList 512 0 (unpackLengths .low (tableOf len)) = len := by
  have hlengths : unpackLengths .low (tableOf len) = len.toList := by
    rw [tableOf, unpackLengths_pairs (fun k => len.toList.getD k 0)]
    apply List.ext_getElem
    · simp
    · intro i _ hi
      rw [List.getElem_map, List.getElem_range, List.getD_eq_getElem _ _ hi]
  rw [hlengths, vectorOfList]
  exact Vector.toList_inj.mp (List.take_left' len.length_toList)

end Sys2Proof.Machine
end

section
/-! PROOF. The bit reader over a stream that is known (40_bit_reader.md R76 to R82): what PEEK, CONSUME, RDBYTE and RD16 do
in a state whose buffered bits and whose bytes still to be fetched are given as lists. -/

namespace Sys2Proof.Machine

variable {s t : State} {bits buf word ahead : List Bool} {us : List FetchUnit} {bytes rest : List Byte} {b lo hi : Byte}

/-- The buffered bits are `buf`, and the bytes of IN from IPOS on are `bytes`. -/
structure ReaderHolds (buf : List Bool) (bytes : List Byte) (s : State) : Prop where
  bcnt : s.bcnt.toNat = buf.length
  room : buf.length ≤ 32
  acc : s.acc = natOfBits buf * 2 ^ (32 - buf.length)
  inLen : s.inLen.toNat = s.ipos.toNat + bytes.length
  input : ∀ k : Nat, k < bytes.length → s.input.read (s.ipos.toNat + k) = bytes[k]?

/-- An update that leaves the reader and its input alone. -/
theorem ReaderHolds.congr (h : ReaderHolds buf bytes s) (hacc : t.acc = s.acc := by rfl) (hbcnt : t.bcnt = s.bcnt := by rfl)
    (hipos : t.ipos = s.ipos := by rfl) (hinLen : t.inLen = s.inLen := by rfl) (hinput : t.input = s.input := by rfl) :
    ReaderHolds buf bytes t where
  bcnt := hbcnt ▸ h.bcnt
  room := h.room
  acc := hacc ▸ h.acc
  inLen := by rw [hinLen, hipos]; exact h.inLen
  input := by rw [hinput, hipos]; exact h.input

/-! ## Bytes -/

theorem ReaderHolds.read_first (h : ReaderHolds buf (b :: bytes) s) : s.input.read s.ipos.toNat = some b :=
  h.input 0 (Nat.succ_pos _)

theorem ReaderHolds.read_second (h : ReaderHolds buf (lo :: hi :: bytes) s) :
    s.input.read (s.ipos.toNat + 1) = some hi :=
  h.input 1 (by simp)

theorem ReaderHolds.ipos_le (h : ReaderHolds buf (bytes ++ rest) s) : s.ipos.toNat + bytes.length ≤ s.inLen.toNat := by
  rw [h.inLen, List.length_append]
  omega

/-- Bytes passed over. -/
theorem ReaderHolds.advance (h : ReaderHolds buf (bytes ++ rest) s) : ReaderHolds buf rest (advance bytes.length s) where
  bcnt := h.bcnt
  room := h.room
  acc := h.acc
  inLen := by
    rw [advance_ipos_toNat h.ipos_le, advance_inLen, h.inLen, List.length_append, Nat.add_assoc]
  input := fun k hk => by
    rw [advance_ipos_toNat h.ipos_le, advance_input, Nat.add_assoc, h.input _ (by rw [List.length_append]; omega),
      List.getElem?_append_right (Nat.le_add_right _ _), Nat.add_sub_cancel_left]

theorem ReaderHolds.advance_one (h : ReaderHolds buf (b :: bytes) s) : ReaderHolds buf bytes (Machine.advance 1 s) :=
  ReaderHolds.advance (bytes := [b]) h

theorem ReaderHolds.rdByte (h : ReaderHolds buf (b :: bytes) s) : rdByte s = .ok b (Machine.advance 1 s) := by
  have hle := h.ipos_le (bytes := [b])
  rw [List.length_singleton] at hle
  rcases rdByte_cases s with ⟨hlt, -⟩ | ⟨-, b', hb, e⟩ | ⟨-, hb, -⟩
  · omega
  · rw [h.read_first] at hb
    cases hb
    exact e
  · rw [h.read_first] at hb
    cases hb

theorem ReaderHolds.rd16 (h : ReaderHolds buf (lo :: hi :: bytes) s) :
    rd16 s = .ok (wordOfBytes lo hi) (Machine.advance 2 s) := by
  have hle : s.ipos.toNat + 2 ≤ s.inLen.toNat := h.ipos_le (bytes := [lo, hi])
  rcases rd16_cases s with ⟨hlt, -⟩ | ⟨-, lo', hi', hlo, hhi, e⟩ | ⟨-, hnone, -⟩
  · omega
  · rw [h.read_first] at hlo
    rw [h.read_second] at hhi
    cases hlo
    cases hhi
    exact e
  · rw [h.read_first, h.read_second] at hnone
    simp at hnone

/-! ## Bits -/

/-- ACC's first bits, and those after them. -/
theorem ReaderHolds.acc_eq (h : ReaderHolds (bits ++ buf) bytes s) :
    s.acc = natOfBits bits * 2 ^ (32 - bits.length) + natOfBits buf * 2 ^ (32 - (bits ++ buf).length) ∧
      natOfBits buf * 2 ^ (32 - (bits ++ buf).length) < 2 ^ (32 - bits.length) := by
  have hroom := h.room
  have hacc := h.acc
  rw [List.length_append] at hroom
  have hpow : 2 ^ (32 - bits.length) = 2 ^ buf.length * 2 ^ (32 - (bits ++ buf).length) := by
    rw [← pow_add, List.length_append]
    congr 1
    omega
  constructor
  · rw [hacc, natOfBits_append, hpow]
    ring
  · rw [hpow]
    exact Nat.mul_lt_mul_of_pos_right (natOfBits_lt buf) (Nat.two_pow_pos _)

theorem ReaderHolds.acc_lt (h : ReaderHolds buf bytes s) : s.acc < 2 ^ 32 := by
  obtain ⟨e, hlt⟩ := ReaderHolds.acc_eq (bits := []) h
  simp only [natOfBits, Nat.zero_mul, Nat.zero_add] at e
  rw [e]
  exact hlt

/-- PEEK: the window begins with the buffered bits, R78. -/
theorem ReaderHolds.windowBits_eq (h : ReaderHolds (bits ++ buf) bytes s) (hlen : bits.length ≤ 15) :
    (windowBits (window Config.std s) bits.length).toNat = natOfBits bits := by
  obtain ⟨hacc, hlt⟩ := h.acc_eq
  have hwindow : (window Config.std s).toNat = s.acc / 2 ^ 17 := by
    have hacc₁₅ : s.acc / 2 ^ 17 < 2 ^ 15 := Nat.div_lt_of_lt_mul h.acc_lt
    rw [window, peek, if_neg (by decide), BitVec.toNat_setWidth, BitVec.toNat_ofNat, Nat.shiftRight_eq_div_pow,
      show Config.std.accw - 15 = 17 from rfl, Nat.mod_eq_of_lt hacc₁₅]
    omega
  have hpow : 2 ^ 17 * 2 ^ (15 - bits.length) = 2 ^ (32 - bits.length) := by
    rw [← pow_add]
    congr 1
    omega
  rw [windowBits_toNat, hwindow, Nat.div_div_eq_div_mul, hpow, hacc, Nat.mul_comm,
    Nat.mul_add_div (Nat.two_pow_pos _), Nat.div_eq_of_lt hlt, Nat.add_zero]

theorem ReaderHolds.dropBits (h : ReaderHolds (bits ++ buf) bytes s) :
    ReaderHolds buf bytes (dropBits Config.std bits.length s) where
  bcnt := by rw [dropBits_bcnt_toNat, h.bcnt, List.length_append, Nat.add_sub_cancel_left]
  room := by
    have := h.room
    rw [List.length_append] at this
    omega
  acc := by
    have hroom := h.room
    obtain ⟨hacc, -⟩ := h.acc_eq
    rw [List.length_append] at hroom hacc
    have hlow : natOfBits buf * 2 ^ (32 - buf.length) < 2 ^ 32 := by
      calc natOfBits buf * 2 ^ (32 - buf.length) < 2 ^ buf.length * 2 ^ (32 - buf.length) :=
            Nat.mul_lt_mul_of_pos_right (natOfBits_lt buf) (Nat.two_pow_pos _)
        _ = 2 ^ 32 := by rw [← pow_add, Nat.add_sub_cancel' (by omega)]
    have hshift : s.acc <<< bits.length = natOfBits buf * 2 ^ (32 - buf.length) + natOfBits bits * 2 ^ 32 := by
      rw [Nat.shiftLeft_eq, hacc, Nat.add_mul, Nat.mul_assoc, Nat.mul_assoc, ← pow_add, ← pow_add,
        Nat.sub_add_cancel (by omega), show 32 - (bits.length + buf.length) + bits.length = 32 - buf.length by omega,
        Nat.add_comm]
    rw [dropBits_acc, hshift, show Config.std.accw = 32 from rfl, Nat.add_mul_mod_self_right, Nat.mod_eq_of_lt hlow]
  inLen := h.inLen
  input := h.input

/-- A word placed behind the buffered bits, R76. -/
theorem ReaderHolds.wordLoaded (h : ReaderHolds buf (lo :: hi :: bytes) s) (hroom : buf.length ≤ 16)
    (hbits : bits.length = 16) (hword : (wordOfBytes lo hi).toNat = natOfBits bits) :
    ReaderHolds (buf ++ bits) bytes (wordLoaded Config.std (wordOfBytes lo hi) s) := by
  have hadvance : ReaderHolds buf bytes (Machine.advance 2 s) := ReaderHolds.advance (bytes := [lo, hi]) h
  have hbcnt := h.bcnt
  have hlen : (buf ++ bits).length = buf.length + 16 := by rw [List.length_append, hbits]
  refine ⟨?_, by omega, ?_, hadvance.inLen, hadvance.input⟩
  · rw [wordLoaded_bcnt_toNat _ _ (by omega), hlen, hbcnt]
  · have hlt : natOfBits bits <<< (16 - buf.length) < 2 ^ (32 - buf.length) := by
      calc natOfBits bits <<< (16 - buf.length) = natOfBits bits * 2 ^ (16 - buf.length) := Nat.shiftLeft_eq _ _
        _ < 2 ^ 16 * 2 ^ (16 - buf.length) := Nat.mul_lt_mul_of_pos_right (hbits ▸ natOfBits_lt bits) (Nat.two_pow_pos _)
        _ = 2 ^ (32 - buf.length) := by rw [← pow_add]; congr 1; omega
    rw [wordLoaded_acc, placeWord, show orderBits Config.std (wordOfBytes lo hi) = wordOfBytes lo hi from rfl, hword, hbcnt,
      h.acc, ← Nat.shiftLeft_eq, show Config.std.accw - 16 - buf.length = 16 - buf.length from rfl,
      ← Nat.shiftLeft_add_eq_or_of_lt hlt, natOfBits_append, hlen, hbits, Nat.shiftLeft_eq, Nat.shiftLeft_eq,
      show 32 - buf.length = 16 + (16 - buf.length) by omega, show 32 - (buf.length + 16) = 16 - buf.length by omega,
      pow_add]
    ring

theorem ReaderHolds.loadWord (h : ReaderHolds buf (lo :: hi :: bytes) s) :
    loadWord Config.std s = .ok () (Machine.wordLoaded Config.std (wordOfBytes lo hi) s) := by
  rcases loadWord_cases Config.std s with ⟨lo', hi', hlo, hhi, e⟩ | ⟨hnone, -⟩
  · rw [h.read_first] at hlo
    rw [h.read_second] at hhi
    cases hlo
    cases hhi
    exact e
  · rw [h.read_first, h.read_second] at hnone
    simp at hnone

/-- CONSUME where sixteen bits remain, R79. -/
theorem ReaderHolds.consume_of_le (h : ReaderHolds (bits ++ buf) bytes s) (hbuf : 16 ≤ buf.length) :
    consume Config.std bits.length s = .ok () (Machine.dropBits Config.std bits.length s) := by
  have hbcnt := h.dropBits.bcnt
  rw [consume, if_neg (by omega)]

/-- A word fetched from a stream of units, R76. -/
theorem ReaderHolds.fetchWord (h : ReaderHolds buf (emitUnits (.word :: us) (word ++ ahead)) s) (hword : word.length = 16)
    (hroom : buf.length ≤ 16) :
    ∃ t, Machine.loadWord Config.std s = .ok () t ∧ t = readerMoved t.acc t.bcnt t.ipos s ∧
      ReaderHolds (buf ++ word) (emitUnits us ahead) t := by
  rw [emitUnits_word hword] at h
  exact ⟨_, h.loadWord, rfl, h.wordLoaded hroom hword (wordOfBytes_toNat hword ahead)⟩

/-- CONSUME with its refill, R79 and R80. -/
theorem ReaderHolds.consume_refill (h : ReaderHolds (bits ++ buf) (emitUnits (.word :: us) (word ++ ahead)) s)
    (hword : word.length = 16) (hbuf : buf.length < 16) :
    ∃ t, consume Config.std bits.length s = .ok () t ∧ ReaderHolds (buf ++ word) (emitUnits us ahead) t := by
  have hdrop := h.dropBits
  have hbcnt := hdrop.bcnt
  obtain ⟨t, hload, -, ht⟩ := hdrop.fetchWord hword hbuf.le
  rw [emitUnits_word hword] at hdrop
  have hleft : inputLeft 2 (Machine.dropBits Config.std bits.length s) = true :=
    (inputLeft_iff _ _).mpr (hdrop.ipos_le (bytes := [_, _]))
  exact ⟨t, by rw [consume, if_pos (by omega), refill, if_pos hleft, hload], ht⟩

end Sys2Proof.Machine
end

section
/-! PROOF. Tokens over a known stream and a known output (42_token_engine.md R110 to R117): what a listing spells, token by
token; the bytes a copy appends; and the two moves of a token step that look at the stream before the meaning does. -/

namespace Sys2Proof.Machine

variable {s : State} {i : Instr} {is : List Instr} {out final : List Byte}

/-! ## What a listing spells -/

/-- The distance of a match, R67. -/
def matchDistance (i : Instr) : Nat := 2 ^ (tokenExtra i).1 + (tokenExtra i).2.toNat

/-- The output after a token that is a literal or a match. -/
def tokenOutput (i : Instr) (out : List Byte) : List Byte :=
  match i with
  | .lit b => out ++ [b]
  | i => (copyOne (matchDistance i))^[matchLength i] out

/-- A listing spells its first token's bytes and then those of the rest. -/
theorem expandListing_cons (h : expandListing (i :: is) out = some final) :
    ((∃ b, i = .lit b) ∨ isMatchForm i = true ∧ matchDistance i ≤ out.length) ∧
      expandListing is (tokenOutput i out) = some final := by
  cases i with
  | lit b => exact ⟨.inl ⟨b, rfl⟩, h⟩
  | start value => cases h
  | _ =>
    simp only [expandListing, distance_std] at h
    split at h
    · exact ⟨.inr ⟨rfl, ‹_›⟩, h⟩
    · cases h

theorem length_copyOne_iterate (dist n : Nat) (out : List Byte) : ((copyOne dist)^[n] out).length = out.length + n := by
  induction n generalizing out with
  | zero => rfl
  | succ n ih =>
    rw [Function.iterate_succ_apply, ih, copyOne, List.length_append, List.length_singleton]
    omega

theorem matchLength_pos (h : isMatchForm i = true) : 0 < matchLength i := by
  cases i with
  | lit b => cases h
  | start value => cases h
  | _ => exact Nat.succ_pos _

theorem matchLength_lt (i : Instr) : matchLength i < 2 ^ 17 := by
  cases i with
  | matchM dbits lnib extra =>
    have := lnib.isLt
    rw [matchLength, shortLength_std]
    omega
  | matchX8 dbits b extra =>
    have := b.isLt
    rw [matchLength, extLength8_std]
    omega
  | matchX16 dbits v extra =>
    have := v.isLt
    rw [matchLength, extLength16_std]
    omega
  | _ => exact Nat.two_pow_pos 17

theorem tokenOutput_match (h : isMatchForm i = true) (out : List Byte) :
    tokenOutput i out = (copyOne (matchDistance i))^[matchLength i] out := by
  cases i with
  | lit b => cases h
  | _ => rfl

/-- Every token spells a byte or more, R164. -/
theorem length_lt_tokenOutput (h : (∃ b, i = .lit b) ∨ isMatchForm i = true) :
    out.length < (tokenOutput i out).length := by
  rcases h with ⟨b, rfl⟩ | h
  · simp [tokenOutput]
  · have := matchLength_pos h
    rw [tokenOutput_match h, length_copyOne_iterate]
    omega

theorem length_le_of_expandListing (h : expandListing is out = some final) : out.length ≤ final.length := by
  induction is generalizing out with
  | nil => cases h; exact le_rfl
  | cons i is ih =>
    obtain ⟨hform, hrest⟩ := expandListing_cons h
    exact (length_lt_tokenOutput (hform.imp_right And.left)).le.trans (ih hrest)

/-! ## OUT -/

theorem Mem.writeBytes_append (bs cs : List Byte) (m : Mem) (a : Nat) :
    m.writeBytes a (bs ++ cs) = (m.writeBytes a bs).writeBytes (a + bs.length) cs := by
  induction bs generalizing m a with
  | nil => rfl
  | cons b bs ih =>
    rw [List.cons_append, Mem.writeBytes, Mem.writeBytes, ih, List.length_cons, Nat.add_right_comm, Nat.add_assoc]

theorem memOf_append_singleton (out : List Byte) (b : Byte) : memOf (out ++ [b]) = (memOf out).write out.length b := by
  rw [memOf, Mem.writeBytes_append, Nat.zero_add]
  rfl

theorem read_memOf (out : List Byte) (a : Nat) : (memOf out).read a = out[a]? := by
  rw [memOf, Mem.read_writeBytes]
  split
  · rfl
  · rw [List.getElem?_eq_none (by omega), Mem.read_nil]

/-- The output so far is `out`. -/
structure OutputHolds (out : List Byte) (s : State) : Prop where
  output : s.output = memOf out
  opos : s.opos.toNat = out.length

theorem OutputHolds.emit {b : Byte} (h : OutputHolds out s) (hroom : out.length < s.dsize.toNat) :
    OutputHolds (out ++ [b]) (emit b s) where
  output := by rw [emit_output, h.output, h.opos, memOf_append_singleton]
  opos := by
    rw [emit_opos, (outWrite_of_room (b := b) (h.opos.trans_lt hroom)).2, h.opos, List.length_append, List.length_singleton]

/-- COPY's loop appends the bytes of `copyOne`, R116. -/
theorem OutputHolds.copyLoop {n : Nat} (h : OutputHolds out s) (hpos : 1 ≤ s.mdist.toNat)
    (hdist : s.mdist.toNat ≤ out.length) (hroom : out.length + n ≤ s.dsize.toNat) :
    copyLoop n s = .ok () (copied (memOf ((copyOne s.mdist.toNat)^[n] out)) n s) := by
  induction n generalizing s out with
  | zero => rw [Function.iterate_zero_apply, ← h.output, copied_zero]; rfl
  | succ n ih =>
    have hlt : s.opos.toNat - s.mdist.toNat < out.length := by rw [h.opos]; omega
    have hread : s.output.read (s.opos.toNat - s.mdist.toNat) = some (out.getD (out.length - s.mdist.toNat) 0) := by
      rw [h.output, read_memOf, List.getElem?_eq_getElem hlt, ← List.getD_eq_getElem _ 0 hlt, h.opos]
    have hwrite := fun b => (outWrite_of_room (b := b) (s := s) (by rw [h.opos]; omega)).1
    obtain ⟨houtput, hopos⟩ := h.emit (b := out.getD (out.length - s.mdist.toNat) 0) (by omega)
    have hrest := ih (s := countDown (Machine.emit _ s)) ⟨houtput, hopos⟩ hpos (by simp; omega) (by simp; omega)
    simp only [Machine.copyLoop, outRead, hread, Res.bind_ok, hwrite]
    rw [hrest, copied_succ, Function.iterate_succ_apply]
    rfl

/-- Points 6 to 8 of R110 where the distance reaches no further than the output, and the copy is not clipped. -/
theorem OutputHolds.checkAndCopy {dbits : Nibble} {extra : BitVec 15} (h : OutputHolds out s)
    (hextra : extra.toNat < 2 ^ dbits.toNat) (hdist : distance Config.std dbits extra ≤ out.length)
    (hroom : out.length + s.mlen.toNat ≤ s.dsize.toNat) :
    checkAndCopy Config.std dbits extra s =
      .ok () (copied (memOf ((copyOne (distance Config.std dbits extra))^[s.mlen.toNat] out)) s.mlen.toNat
        (setRemaining s.mlen.toNat (setDistance (distance Config.std dbits extra) s))) := by
  have hpos : 1 ≤ distance Config.std dbits extra := by
    rw [distance_std]
    exact (Nat.two_pow_pos dbits.toNat).trans_le (Nat.le_add_right _ _)
  have hmdist : (setDistance (distance Config.std dbits extra) s).mdist.toNat = distance Config.std dbits extra := by
    have hpow : 2 ^ dbits.toNat ≤ 2 ^ 15 := Nat.pow_le_pow_right (by decide) (nibble_le dbits)
    rw [setDistance_mdist, BitVec.toNat_ofNat, distance_std]
    exact Nat.mod_eq_of_lt ((Nat.add_lt_add_left hextra _).trans_le (by omega))
  have hcount : copyCount (setDistance (distance Config.std dbits extra) s) = s.mlen.toNat := by
    simp only [copyCount, setDistance_mlen, setDistance_dsize, setDistance_opos, h.opos]
    omega
  have hopos := h.opos
  have hloop := OutputHolds.copyLoop (n := s.mlen.toNat)
    (s := setRemaining s.mlen.toNat (setDistance (distance Config.std dbits extra) s)) ⟨h.output, h.opos⟩
    (by rw [setRemaining_mdist, hmdist]; exact hpos) (by rw [setRemaining_mdist, hmdist]; exact hdist) hroom
  rw [setRemaining_mdist, hmdist] at hloop
  rw [Machine.checkAndCopy, hmdist, if_neg (by omega), copy, hcount, hloop]

theorem OutputHolds.copied {n dist : Nat} (h : OutputHolds out s) (hroom : out.length + n ≤ s.dsize.toNat) :
    OutputHolds ((copyOne dist)^[n] out) (copied (memOf ((copyOne dist)^[n] out)) n s) where
  output := rfl
  opos := by
    have := s.dsize.isLt
    rw [copied_opos, BitVec.toNat_add, BitVec.toNat_ofNat, h.opos, length_copyOne_iterate]
    omega

end Sys2Proof.Machine
end

section
/-! PROOF. The round trip of the assembler (30_encoding.md R74, 42_token_engine.md R124): while a run decodes the stream of
a listing, the bits it buffers and the bytes it has still to fetch are those that R74's assembly has yet to take. -/

namespace Sys2Proof.Machine

variable {s t : State} {i : Instr} {buf bits B : List Bool} {bytes out final : List Byte} {U : List FetchUnit}
  {a : Assembly} {len : Vector Nibble 512}

/-! ## A token's moves over a known stream -/

theorem advance_zero (s : State) : advance 0 s = s := by simp [advance]

/-- The look ahead finds a token's extension bytes, R64 and R65. -/
theorem ReaderHolds.readExtension (h : ReaderHolds buf (tokenBytes i ++ bytes) s) (hwf : i.wellFormed = true)
    (hi : ∀ value, i ≠ .start value) :
    readExtension Config.std (tokenSym i) s = .ok (tokenBytes i) (Machine.advance (tokenBytes i).length s) := by
  have hsaturated (dbits : Nibble) : ¬Config.std.slotLnib (symLow (matchSym dbits 15)) ≠ Config.std.lenSentinel := by
    simp
  cases i with
  | lit b =>
    rw [Machine.readExtension, if_pos (show symIsMatch (tokenSym (.lit b)) = false from symIsMatch_append 0#1 b)]
    exact congrArg _ (advance_zero s).symm
  | matchM dbits lnib extra =>
    obtain ⟨hlnib, -⟩ := wellFormed_matchM.mp hwf
    rw [Machine.readExtension, tokenSym, if_neg (by simp), if_pos (by simpa using hlnib)]
    exact congrArg _ (advance_zero s).symm
  | matchX8 dbits b extra =>
    obtain ⟨hb, -⟩ := wellFormed_matchX8.mp hwf
    rw [Machine.readExtension, tokenSym, if_neg (by simp), if_neg (hsaturated dbits), h.rdByte, Res.bind_ok, if_pos hb]
    rfl
  | matchX16 dbits v extra =>
    rw [Machine.readExtension, tokenSym, if_neg (by simp), if_neg (hsaturated dbits), h.rdByte, Res.bind_ok,
      if_neg (not_not_intro rfl), h.advance_one.rd16, Res.bind_ok, wordOfBytes_bytes, advance_advance]
    rfl
  | start value => exact absurd rfl (hi value)

/-- The three match forms: the extension bytes passed over, and then points 5 to 8 of R110 with the form's length. -/
theorem ReaderHolds.exec_match (h : ReaderHolds buf (tokenBytes i ++ bytes) s) (hwf : i.wellFormed = true)
    (hi : isMatchForm i = true) :
    ∃ (dbits : Nibble) (extra : BitVec 15), tokenExtra i = (dbits.toNat, extra) ∧
      exec i s =
        (finishMatch Config.std dbits extra
          (setLength (matchLength i) (Machine.advance (tokenBytes i).length s))).outcome := by
  cases i with
  | lit b => cases hi
  | matchM dbits lnib extra =>
    refine ⟨dbits, extra, rfl, ?_⟩
    rw [show (tokenBytes (.matchM dbits lnib extra)).length = 0 from rfl, advance_zero]
    rfl
  | matchX8 dbits b extra =>
    refine ⟨dbits, extra, rfl, ?_⟩
    rw [exec, execMatchX8, execMatchX8In, h.rdByte, Res.bind_ok]
    rfl
  | matchX16 dbits v extra =>
    obtain ⟨hv, -⟩ := wellFormed_matchX16.mp hwf
    refine ⟨dbits, extra, rfl, ?_⟩
    rw [exec, execMatchX16, execMatchX16In, h.rdByte, Res.bind_ok, h.advance_one.rd16, Res.bind_ok,
      if_neg (by rw [minExtension]; omega), advance_advance]
    rfl
  | start value => cases hi

/-! ## A run beside the assembly of its stream -/

/-- Nothing but the bits and units of a whole stream has been laid out so far. -/
def Assembly.Within (B : List Bool) (U : List FetchUnit) (a : Assembly) : Prop := a.bits <+: B ∧ a.units <+: U

/-- The reader stands where the assembly stands in the whole stream of bits `B` and units `U`: it buffers the next bits, as
many as the assembly's count says, and has the units that the assembly has not laid out yet to fetch. -/
def Follows (B : List Bool) (U : List FetchUnit) (a : Assembly) (s : State) : Prop :=
  ∃ buf ahead us, B = a.bits ++ (buf ++ ahead) ∧ U = a.units ++ us ∧ buf.length = a.bc ∧ 16 ≤ a.bc ∧
    ahead.length = 16 * wordCount us ∧ ReaderHolds buf (emitUnits us ahead) s

theorem Follows.congr (h : Follows B U a s) (hacc : t.acc = s.acc := by rfl) (hbcnt : t.bcnt = s.bcnt := by rfl)
    (hipos : t.ipos = s.ipos := by rfl) (hinLen : t.inLen = s.inLen := by rfl) (hinput : t.input = s.input := by rfl) :
    Follows B U a t := by
  obtain ⟨buf, ahead, us, hB, hU, hbuf, hbc, hahead, hreader⟩ := h
  exact ⟨buf, ahead, us, hB, hU, hbuf, hbc, hahead, hreader.congr hacc hbcnt hipos hinLen hinput⟩

/-- A token's extension unit, if it has one, R74. -/
def addExtension (bytes : List Byte) (a : Assembly) : Assembly :=
  if bytes = [] then a else { a with units := a.units ++ [.extension bytes] }

theorem assembleToken_eq (len : Vector Nibble 512) (i : Instr) (a : Assembly) :
    assembleToken len i a = takeBits (bitsOf (tokenExtra i).1 (tokenExtra i).2.toNat)
      (addExtension (tokenBytes i) (takeBits (codeword len (tokenSym i)) a)) := rfl

theorem takeBits_nil (h : 16 ≤ a.bc) : takeBits [] a = a := by
  rw [takeBits, if_neg (by simpa using h)]
  simp

theorem Assembly.Within.of_takeBits (h : (takeBits bits a).Within B U) : a.Within B U := by
  unfold takeBits at h
  split at h
  · exact ⟨(List.prefix_append _ _).trans h.1, (List.prefix_append _ _).trans h.2⟩
  · exact ⟨(List.prefix_append _ _).trans h.1, h.2⟩

theorem Assembly.Within.of_addExtension (h : (addExtension bytes a).Within B U) : a.Within B U := by
  unfold addExtension at h
  split at h
  · exact h
  · exact ⟨h.1, (List.prefix_append _ _).trans h.2⟩

theorem Assembly.Within.of_assembleTokens {listing : List Instr} (h : (assembleTokens len listing a).Within B U) :
    a.Within B U := by
  induction listing generalizing a with
  | nil => exact h
  | cons i is ih => exact (ih h).of_takeBits.of_addExtension.of_takeBits

/-- The bits that the assembly takes next are the first that the reader buffers. -/
theorem Follows.buffered (h : Follows B U a s) (hwithin : (takeBits bits a).Within B U) (hbits : bits.length ≤ 15) :
    ∃ buf ahead us, B = (a.bits ++ bits) ++ (buf ++ ahead) ∧ U = a.units ++ us ∧ bits.length + buf.length = a.bc ∧
      ahead.length = 16 * wordCount us ∧ ReaderHolds (bits ++ buf) (emitUnits us ahead) s := by
  obtain ⟨buf, ahead, us, rfl, rfl, hbuf, hbc, hahead, hreader⟩ := h
  have hprefix : bits <+: buf := by
    have htaken : a.bits ++ bits <+: a.bits ++ (buf ++ ahead) := by
      have := hwithin.1
      unfold takeBits at this
      split at this <;> exact this
    exact List.prefix_of_prefix_length_le ((List.prefix_append_right_inj _).mp htaken) (List.prefix_append _ _) (by omega)
  obtain ⟨buf, rfl⟩ := hprefix
  rw [List.length_append] at hbuf
  exact ⟨buf, ahead, us, by simp only [List.append_assoc], rfl, hbuf, hahead, hreader⟩

/-- PEEK sees the bits that the assembly takes next. -/
theorem Follows.windowBits_eq (h : Follows B U a s) (hwithin : (takeBits bits a).Within B U) (hbits : bits.length ≤ 15) :
    (windowBits (window Config.std s) bits.length).toNat = natOfBits bits := by
  obtain ⟨buf, ahead, us, -, -, -, -, hreader⟩ := h.buffered hwithin hbits
  exact hreader.windowBits_eq hbits

/-- CONSUME follows `take` of R74: a refill is made exactly where the assembly lays out a word. -/
theorem Follows.consume (h : Follows B U a s) (hwithin : (takeBits bits a).Within B U) (hbits : bits.length ≤ 15) :
    ∃ t, consume Config.std bits.length s = .ok () t ∧ Follows B U (takeBits bits a) t := by
  obtain ⟨buf, ahead, us, hB, hU, hbuf, hahead, hreader⟩ := h.buffered hwithin hbits
  have hcount : a.bc - bits.length = buf.length := by omega
  by_cases hrefill : buf.length < 16
  · have htake : takeBits bits a = ⟨a.bits ++ bits, a.units ++ [.word], buf.length + 16⟩ := by
      rw [takeBits, hcount, if_pos hrefill]
    rw [htake] at hwithin ⊢
    obtain ⟨us, rfl⟩ : ∃ us', us = .word :: us' := by
      have := hwithin.2
      rw [hU] at this
      obtain ⟨us', hus'⟩ := (List.prefix_append_right_inj _).mp this
      exact ⟨us', hus'.symm⟩
    obtain ⟨word, ahead, rfl, hword, hahead⟩ := exists_word hahead
    obtain ⟨t, hconsume, ht⟩ := hreader.consume_refill hword hrefill
    exact ⟨t, hconsume, buf ++ word, ahead, us, by rw [hB]; simp only [List.append_assoc], by rw [hU]; simp,
      by rw [List.length_append, hword], Nat.le_add_left _ _, hahead, ht⟩
  · have htake : takeBits bits a = ⟨a.bits ++ bits, a.units, buf.length⟩ := by
      rw [takeBits, hcount, if_neg hrefill]
    rw [htake]
    exact ⟨_, hreader.consume_of_le (by omega), buf, ahead, us, hB, hU, rfl, Nat.le_of_not_lt hrefill, hahead,
      hreader.dropBits⟩

/-- The extension bytes that the assembly lays out next are those at IPOS. -/
theorem Follows.extension (h : Follows B U a s) (hwithin : (addExtension bytes a).Within B U) :
    Follows B U (addExtension bytes a) (advance bytes.length s) ∧ ∃ buf rest, ReaderHolds buf (bytes ++ rest) s := by
  obtain ⟨buf, ahead, us, hB, hU, hbuf, hbc, hahead, hreader⟩ := h
  unfold addExtension at *
  split at hwithin
  · rename_i hnil
    subst hnil
    rw [if_pos rfl, List.length_nil, advance_zero]
    exact ⟨⟨buf, ahead, us, hB, hU, hbuf, hbc, hahead, hreader⟩, buf, _, hreader⟩
  · rename_i hne
    rw [if_neg hne]
    obtain ⟨us, rfl⟩ : ∃ us', us = .extension bytes :: us' := by
      have := hwithin.2
      rw [hU] at this
      obtain ⟨us', hus'⟩ := (List.prefix_append_right_inj _).mp this
      exact ⟨us', hus'.symm⟩
    exact ⟨⟨buf, ahead, us, hB, by rw [hU]; simp, hbuf, hbc, hahead, hreader.advance⟩, buf, _, hreader⟩

end Sys2Proof.Machine
end

section
/-! PROOF. The tokens of a run over an assembled stream (42_token_engine.md R110 to R117, R124): each token step decodes one
token of the listing, and the run then stands where the assembly stands after that token. -/

namespace Sys2Proof.Machine

variable {s t : State} {i : Instr} {sym : Sym} {listing : List Instr} {bits B : List Bool} {out final : List Byte}
  {U : List FetchUnit} {a : Assembly} {len : Vector Nibble 512} {dsize inLen : Word32}

/-! ## Codewords, R60 -/

theorem builtTable_builtFrom (h : CompleteTable len) : BuiltTable (builtFrom len) := ⟨h, rfl, rfl, _, rfl⟩

theorem codeword_eq (h : CompleteTable len) (sym : Sym) :
    codeword len sym = bitsOf (lenAt len sym.toNat) ((codesOf len).toList.getD sym.toNat 0).toNat :=
  if_neg (by rw [show classify _ _ = TableClass.complete from h]; decide)

theorem length_codeword (h : CompleteTable len) (sym : Sym) : (codeword len sym).length = lenAt len sym.toNat := by
  rw [codeword_eq h, length_bitsOf]

/-- The codeword spells the code that any table built from the lengths holds. -/
theorem BuiltTable.natOfBits_codeword {d : Datapath} (h : BuiltTable d) (hl : lenAt d.len sym.toNat ≠ 0) :
    natOfBits (codeword d.len sym) = (d.code.toList.getD sym.toNat 0).toNat := by
  have hbuilt := builtTable_builtFrom h.complete
  obtain ⟨hcode, hlt⟩ := hbuilt.code_eq sym.isLt hl
  rw [codeword_eq h.complete, natOfBits_bitsOf, (h.code_eq sym.isLt hl).1, h.cnt]
  exact (Nat.mod_eq_of_lt hlt).trans hcode

/-! ## A run in its token phase -/

/-- What the tokens of a run leave as it is. -/
structure Running (len : Vector Nibble 512) (dsize inLen : Word32) (s : State) : Prop where
  moves : s.moves = []
  status : s.status = .busy
  phase : s.phase = .run
  degen : s.degen = false
  lengths : s.len = len
  table : BuiltTable s.toDatapath
  dsize : s.dsize = dsize
  inLen : s.inLen = inLen

theorem Running.congr (h : Running len dsize inLen s) (hmoves : t.moves = s.moves := by rfl)
    (hstatus : t.status = s.status := by rfl) (hphase : t.phase = s.phase := by rfl) (hdegen : t.degen = s.degen := by rfl)
    (hlen : t.len = s.len := by rfl) (hcnt : t.cnt = s.cnt := by rfl) (hfirst : t.first = s.first := by rfl)
    (hcode : t.code = s.code := by rfl) (hdsize : t.dsize = s.dsize := by rfl) (hinLen : t.inLen = s.inLen := by rfl) :
    Running len dsize inLen t where
  moves := hmoves.trans h.moves
  status := hstatus.trans h.status
  phase := hphase.trans h.phase
  degen := hdegen.trans h.degen
  lengths := hlen.trans h.lengths
  table := h.table.congr hlen hcnt hfirst hcode
  dsize := hdsize.trans h.dsize
  inLen := hinLen.trans h.inLen

/-- A run that has decoded as much of the stream as the assembly `a` has laid out, `out` being its output so far. -/
structure Decoding (len : Vector Nibble 512) (dsize inLen : Word32) (B : List Bool) (U : List FetchUnit) (a : Assembly)
    (out : List Byte) (s : State) : Prop where
  running : Running len dsize inLen s
  follows : Follows B U a s
  written : OutputHolds out s

/-- A move of the reader alone. -/
theorem Running.readerMoved (h : Running len dsize inLen s) (ht : t = readerMoved t.acc t.bcnt t.ipos s) :
    Running len dsize inLen t := by
  rw [ht]
  exact h.congr

theorem OutputHolds.readerMoved (h : OutputHolds out s) (ht : t = readerMoved t.acc t.bcnt t.ipos s) :
    OutputHolds out t := by
  rw [ht]
  exact ⟨h.output, h.opos⟩

theorem Decoding.readerMoved (h : Decoding len dsize inLen B U a out s) {a' : Assembly} (hfollows : Follows B U a' t)
    (ht : t = Machine.readerMoved t.acc t.bcnt t.ipos s) : Decoding len dsize inLen B U a' out t :=
  ⟨h.running.readerMoved ht, hfollows, h.written.readerMoved ht⟩

/-- DECODESYM finds the symbol whose codeword the assembly lays out next, and consumes that codeword, R103. -/
theorem Decoding.decodeSym (h : Decoding len dsize inLen B U a out s) (hl : lenAt len sym.toNat ≠ 0)
    (hwithin : (takeBits (codeword len sym) a).Within B U) :
    ∃ t, decodeSym Config.std s = .ok sym t ∧ Decoding len dsize inLen B U (takeBits (codeword len sym) a) out t := by
  obtain rfl := h.running.lengths
  have hbuilt := h.running.table
  have hlen := length_codeword hbuilt.complete sym
  have hbits : (codeword s.len sym).length ≤ 15 := hlen.trans_le (lenAt_le _ _)
  have hbegins : CodeBegins s.toDatapath (window Config.std s) sym := by
    refine ⟨hl, ?_⟩
    rw [← hbuilt.natOfBits_codeword hl, ← h.follows.windowBits_eq hwithin hbits, hlen]
    rfl
  obtain ⟨t, hconsume, ht⟩ := h.follows.consume hwithin hbits
  obtain ⟨hrun, hfollows, hout⟩ := h.readerMoved ht (consume_moves hconsume)
  rw [hlen] at hconsume
  refine ⟨setSym sym t, ?_, hrun.congr, hfollows.congr, hout.output, hout.opos⟩
  simp [Machine.decodeSym, h.running.degen, hbuilt.lookup_eq hbegins, hconsume]

/-- A literal's meaning: its byte, R111. -/
theorem Decoding.exec_lit {b : Byte} (h : Decoding len dsize inLen B U a out s) (hroom : out.length < dsize.toNat) :
    ∃ t, exec (.lit b) s = .next t ∧ Decoding len dsize inLen B U a (out ++ [b]) t := by
  obtain ⟨hrun, hfollows, hout⟩ := h
  rw [← hrun.dsize] at hroom
  refine ⟨emit b s, ?_, hrun.congr, hfollows.congr, hout.emit hroom⟩
  rw [exec, execLit, execLitIn, (outWrite_of_room (by rw [hout.opos]; exact hroom)).1, Res.outcome_ok]

/-- Points 5 to 8 of R110, where the assembly lays out the distance bits next and the copy has room. -/
theorem Decoding.finishMatch {dbits : Nibble} {extra : BitVec 15} (h : Decoding len dsize inLen B U a out s)
    (hwithin : (takeBits (bitsOf dbits.toNat extra.toNat) a).Within B U) (hextra : extra.toNat < 2 ^ dbits.toNat)
    (hdist : distance Config.std dbits extra ≤ out.length) (hroom : out.length + s.mlen.toNat ≤ dsize.toNat) :
    ∃ t, finishMatch Config.std dbits extra s = .ok () t ∧
      Decoding len dsize inLen B U (takeBits (bitsOf dbits.toNat extra.toNat) a)
        ((copyOne (distance Config.std dbits extra))^[s.mlen.toNat] out) t := by
  obtain ⟨u, hconsume, hu⟩ := h.follows.consume hwithin (by rw [length_bitsOf]; exact nibble_le dbits)
  rw [length_bitsOf] at hconsume
  have hmoved := consume_moves hconsume
  have hmlen : u.mlen = s.mlen := by rw [hmoved, readerMoved_mlen]
  obtain ⟨hrun, hfollows, hout⟩ := h.readerMoved hu hmoved
  rw [← hmlen, ← hrun.dsize] at hroom
  have hcheck : Machine.finishMatch Config.std dbits extra s = checkAndCopy Config.std dbits extra u := by
    rw [Machine.finishMatch, hconsume, Res.bind_ok]
  rw [← hmlen]
  exact ⟨_, hcheck.trans (hout.checkAndCopy hextra hdist hroom), hrun.congr, hfollows.congr,
    OutputHolds.copied ⟨hout.output, hout.opos⟩ hroom⟩

/-- A match's meaning: its extension bytes and its distance bits are those the assembly lays out next, and its copy appends
the bytes that the listing spells, R112 to R116. -/
theorem Decoding.exec_match (h : Decoding len dsize inLen B U a out s) (hwf : i.wellFormed = true)
    (hi : isMatchForm i = true) (hdist : matchDistance i ≤ out.length)
    (hroom : out.length + matchLength i ≤ dsize.toNat)
    (hwithin : (takeBits (bitsOf (tokenExtra i).1 (tokenExtra i).2.toNat) (addExtension (tokenBytes i) a)).Within B U) :
    ∃ t, exec i s = .next t ∧
      Decoding len dsize inLen B U
        (takeBits (bitsOf (tokenExtra i).1 (tokenExtra i).2.toNat) (addExtension (tokenBytes i) a))
        ((copyOne (matchDistance i))^[matchLength i] out) t := by
  obtain ⟨hrun, hfollows, hout⟩ := h
  obtain ⟨hextended, buf, rest, hreader⟩ := hfollows.extension hwithin.of_takeBits
  obtain ⟨dbits, extra, hoperands, hexec⟩ := hreader.exec_match hwf hi
  have hextra := (tokenExtra_fits hwf).2
  have hdistance : matchDistance i = distance Config.std dbits extra := by rw [distance_std, matchDistance, hoperands]
  have hmlen : (setLength (matchLength i) (advance (tokenBytes i).length s)).mlen.toNat = matchLength i := by
    rw [setLength_mlen, BitVec.toNat_ofNat, Nat.mod_eq_of_lt (matchLength_lt i)]
  rw [hoperands] at hwithin hextra ⊢
  rw [hdistance] at hdist ⊢
  rw [← hmlen] at hroom
  obtain ⟨t, hfinish, ht⟩ := Decoding.finishMatch (s := setLength (matchLength i) (advance (tokenBytes i).length s))
    ⟨hrun.congr, hextended.congr, hout.output, hout.opos⟩ hwithin hextra hdist hroom
  rw [hmlen] at ht
  exact ⟨t, by rw [hexec, hfinish, Res.outcome_ok], ht⟩

/-! ## The steps of the run -/

theorem step_of_token (hrun : Running len dsize inLen s) (hsize : s.opos ≠ s.dsize) :
    step s = tokenStep Config.std exec s := by
  simp [step, machineStep, hrun.moves, engineStep, hrun.status, hrun.phase, hsize, blockDue, Config.std]

theorem step_of_finish (hrun : Running len dsize inLen s) (hsize : s.opos = s.dsize) : step s = .next (finish s) := by
  simp [step, machineStep, hrun.moves, engineStep, hrun.status, hrun.phase, hsize]

/-- A token step decodes the token whose bits and bytes the assembly lays out next, and runs it from the state after its
codeword. -/
theorem Decoding.step_eq_exec (h : Decoding len dsize inLen B U a out s) (hwf : i.wellFormed = true)
    (hi : ∀ value, i ≠ .start value) (hl : lenAt len (tokenSym i).toNat ≠ 0) (hsize : s.opos ≠ s.dsize)
    (hwithin : (assembleToken len i a).Within B U) :
    ∃ u, step s = exec i u ∧ Decoding len dsize inLen B U (takeBits (codeword len (tokenSym i)) a) out u := by
  rw [assembleToken_eq] at hwithin
  obtain ⟨hbits, hextra⟩ := tokenExtra_fits hwf
  obtain ⟨u, hsym, hu⟩ := h.decodeSym hl hwithin.of_takeBits.of_addExtension
  obtain ⟨hextended, buf, rest, hreader⟩ := hu.follows.extension hwithin.of_takeBits
  have hwindow : windowBits (window Config.std u) (tokenExtra i).1 = (tokenExtra i).2 := by
    have hnext := hextended.windowBits_eq hwithin (by rw [length_bitsOf]; exact hbits)
    rw [length_bitsOf, natOfBits_bitsOf, Nat.mod_eq_of_lt hextra] at hnext
    exact BitVec.eq_of_toNat_eq hnext
  have hdecode : decode Config.std (.token (tokenSym i) (tokenBytes i) (window Config.std u)) = .ok i := by
    have htoken := decodeToken_of_windowBits [] hwf hi hwindow
    rw [List.append_nil] at htoken
    rw [decode, htoken]
    rfl
  refine ⟨u, ?_, hu⟩
  rw [step_of_token h.running hsize, tokenStep, hsym]
  simp only [hreader.readExtension hwf hi, hdecode]

/-- A step decodes one token of the listing. -/
theorem Decoding.step_token (h : Decoding len dsize inLen B U a out s) (hwf : i.wellFormed = true)
    (hl : lenAt len (tokenSym i).toNat ≠ 0)
    (hform : (∃ b, i = .lit b) ∨ isMatchForm i = true ∧ matchDistance i ≤ out.length)
    (hroom : (tokenOutput i out).length ≤ dsize.toNat) (hwithin : (assembleToken len i a).Within B U) :
    ∃ t, step s = .next t ∧ Decoding len dsize inLen B U (assembleToken len i a) (tokenOutput i out) t := by
  have hgrows : out.length < (tokenOutput i out).length := length_lt_tokenOutput (hform.imp_right And.left)
  have hsize : s.opos ≠ s.dsize := by
    intro he
    have hopos := h.written.opos
    rw [he, h.running.dsize] at hopos
    omega
  have hi (value : Word32) : i ≠ .start value := by
    rintro rfl
    rcases hform with ⟨b, hb⟩ | ⟨hm, -⟩
    · cases hb
    · cases hm
  obtain ⟨u, hstep, hu⟩ := h.step_eq_exec hwf hi hl hsize hwithin
  rw [hstep]
  rw [assembleToken_eq] at hwithin ⊢
  rcases hform with ⟨b, rfl⟩ | ⟨hm, hdist⟩
  · obtain ⟨t, hexec, ht⟩ := hu.exec_lit (b := b) (by omega)
    obtain ⟨-, -, -, -, -, -, hbc, -⟩ := ht.follows
    refine ⟨t, hexec, ?_⟩
    rw [show bitsOf (tokenExtra (.lit b)).1 _ = [] from rfl, show addExtension (tokenBytes (.lit b)) _ = _ from if_pos rfl,
      takeBits_nil hbc]
    exact ht
  · rw [tokenOutput_match hm, length_copyOne_iterate] at hroom
    rw [tokenOutput_match hm]
    exact hu.exec_match hwf hm hdist hroom hwithin

theorem run_succ {k : Nat} (h : step s = .next t) : core.run (k + 1) s = core.run k t := by
  have hstep : core.step s = .next t := h
  simp only [Host.Core.run, hstep]

/-- The steps of a listing, one for each token. -/
theorem Decoding.run_listing (h : Decoding len dsize inLen B U a out s)
    (hlisting : ∀ i ∈ listing, i.wellFormed = true ∧ lenAt len (tokenSym i).toNat ≠ 0)
    (hexpand : expandListing listing out = some final) (hroom : final.length ≤ dsize.toNat)
    (hwithin : (assembleTokens len listing a).Within B U) (k : Nat) :
    ∃ t : State, core.run (listing.length + k) s = core.run k t ∧
      Decoding len dsize inLen B U (assembleTokens len listing a) final t := by
  induction listing generalizing a out s with
  | nil =>
    cases hexpand
    exact ⟨s, by rw [List.length_nil, Nat.zero_add], h⟩
  | cons i is ih =>
    obtain ⟨hi, his⟩ := List.forall_mem_cons.mp hlisting
    obtain ⟨hform, hrest⟩ := expandListing_cons hexpand
    obtain ⟨u, hstep, hu⟩ := h.step_token hi.1 hi.2 hform ((length_le_of_expandListing hrest).trans hroom)
      (.of_assembleTokens hwithin)
    obtain ⟨t, hrun, ht⟩ := ih hu his hrest hwithin
    exact ⟨t, by rw [List.length_cons, Nat.add_right_comm, run_succ hstep, hrun], ht⟩

/-- Where everything is laid out the whole input has been fetched. -/
theorem Follows.ipos_eq (h : Follows B a.units a s) : s.ipos.toNat = s.inLen.toNat := by
  obtain ⟨buf, ahead, us, -, hU, -, -, -, hreader⟩ := h
  obtain rfl : us = [] := List.append_right_eq_self.mp hU.symm
  exact hreader.inLen.symm

end Sys2Proof.Machine
end

section
/-! PROOF. The round trip (42_token_engine.md R105 to R109, R124; 30_encoding.md R74): INIT of an assembled payload loads
the lengths and primes the reader with the assembly's first two words, the tokens follow, and FINISH ends the run. -/

namespace Sys2Proof.Machine

variable {s t : State} {listing : List Instr} {bits B : List Bool} {stream : List Byte} {U : List FetchUnit} {a : Assembly}
  {len : Vector Nibble 512} {dsize : Word32}

/-! ## The assembled stream, R74 -/

/-- The assembly's count is of the bits that its words hold beyond those taken, at least sixteen. -/
def Assembly.Counted (a : Assembly) : Prop := 16 ≤ a.bc ∧ a.bits.length + a.bc = 16 * wordCount a.units

theorem Assembly.Counted.takeBits (h : a.Counted) (hbits : bits.length ≤ 15) : (takeBits bits a).Counted := by
  obtain ⟨hbc, hcount⟩ := h
  unfold Machine.takeBits
  split
  · refine ⟨Nat.le_add_left _ _, ?_⟩
    simp only [List.length_append, wordCount_append, wordCount]
    omega
  · refine ⟨by simp only; omega, ?_⟩
    simp only [List.length_append]
    omega

theorem Assembly.Counted.addExtension {bytes : List Byte} (h : a.Counted) : (addExtension bytes a).Counted := by
  unfold Machine.addExtension
  split
  · exact h
  · exact ⟨h.1, by simp only [wordCount_append, wordCount]; exact h.2⟩

theorem Assembly.Counted.assembleTokens (h : a.Counted) (hcomplete : CompleteTable len)
    (hwf : ∀ i ∈ listing, i.wellFormed = true) : (assembleTokens len listing a).Counted := by
  induction listing generalizing a with
  | nil => exact h
  | cons i is ih =>
    obtain ⟨hi, his⟩ := List.forall_mem_cons.mp hwf
    have hcodeword : (codeword len (tokenSym i)).length ≤ 15 := (length_codeword hcomplete _).trans_le (lenAt_le _ _)
    have hextra : (bitsOf (tokenExtra i).1 (tokenExtra i).2.toNat).length ≤ 15 := by
      rw [length_bitsOf]
      exact (tokenExtra_fits hi).1
    exact ih ((h.takeBits hcodeword).addExtension.takeBits hextra) his

/-- The bits of an assembly, padded with zeros to the end of its last word. -/
def Assembly.padded (a : Assembly) : List Bool := a.bits ++ List.replicate a.bc false

theorem Assembly.Counted.length_padded (h : a.Counted) : a.padded.length = 16 * wordCount a.units := by
  rw [Assembly.padded, List.length_append, List.length_replicate]
  exact h.2

theorem Assembly.within_padded (a : Assembly) : a.Within a.padded a.units :=
  ⟨List.prefix_append _ _, List.prefix_rfl⟩

/-! ## INIT, R107 -/

@[simp] theorem input_launched (bytes : List Byte) (dsize : Word32) : (launched bytes dsize).input = memOf bytes := rfl

@[simp] theorem ipos_launched (bytes : List Byte) (dsize : Word32) : (launched bytes dsize).ipos = 0 := rfl

theorem inLen_launched_toNat {bytes : List Byte} (h : bytes.length < 2 ^ 32) :
    (launched bytes dsize).inLen.toNat = bytes.length := by
  rw [launched, launch_inLen, BitVec.toNat_ofNat, Nat.mod_eq_of_lt h]

theorem readBytes_memOf_append (xs ys : List Byte) : (memOf (xs ++ ys)).readBytes 0 xs.length = some xs := by
  rw [memOf, Mem.readBytes_writeBytes _ _ _ _ (by simp), List.take_left]

/-- LOADTABLE gives the lengths whose table bytes begin a launched payload, R90. -/
theorem loadTable_launched_tableOf (h : (tableOf len ++ stream).length < 2 ^ 32) :
    loadTable Config.std (launched (tableOf len ++ stream) dsize) =
      .ok () (advance 256 (setLengths len (launched (tableOf len ++ stream) dsize))) := by
  have hlen := length_tableOf len
  have hleft : inputLeft Config.tableBytes (launched (tableOf len ++ stream) dsize) = true := by
    rw [inputLeft_iff, inLen_launched_toNat h, ipos_launched, List.length_append, hlen]
    exact (Nat.zero_add 256).trans_le (Nat.le_add_right _ _)
  have hread := readBytes_memOf_append (tableOf len) stream
  rw [hlen] at hread
  rw [loadTable, if_pos hleft, input_launched, ipos_launched, show (0 : Word32).toNat = 0 from rfl, hread]
  simp only [show Config.std.nibbleEven = .low from rfl, vectorOfList_unpackLengths_tableOf]

/-- A launched payload after LOADTABLE and BUILD, where its lengths form a complete code. -/
def tableBuilt (len : Vector Nibble 512) (stream : List Byte) (dsize : Word32) : State :=
  setCodes (count (advance 256 (setLengths len (launched (tableOf len ++ stream) dsize))))

theorem build_launched (h : CompleteTable len) :
    build (advance 256 (setLengths len (launched (tableOf len ++ stream) dsize))) =
      .ok () (tableBuilt len stream dsize) := by
  rcases build_cases (advance 256 (setLengths len (launched (tableOf len ++ stream) dsize))) with
    ⟨e, -⟩ | ⟨e, -⟩ | ⟨-, e⟩
  · cases h.symm.trans e
  · cases h.symm.trans e
  · exact e

theorem tableBuilt_ipos (len : Vector Nibble 512) (stream : List Byte) (dsize : Word32) :
    (tableBuilt len stream dsize).ipos = 256 := by
  simp [tableBuilt]

/-- The reader before PRIME: nothing buffered, and the stream still to be fetched. -/
theorem readerHolds_tableBuilt (h : (tableOf len ++ stream).length < 2 ^ 32) :
    ReaderHolds [] stream (clearAcc (tableBuilt len stream dsize)) where
  bcnt := rfl
  room := Nat.zero_le _
  acc := (Nat.zero_mul _).symm
  inLen := by
    have hinLen : (tableBuilt len stream dsize).inLen = (launched (tableOf len ++ stream) dsize).inLen := by
      simp [tableBuilt]
    rw [clearAcc_inLen, clearAcc_ipos, hinLen, inLen_launched_toNat h, tableBuilt_ipos, List.length_append, length_tableOf]
    rfl
  input := fun k hk => by
    have hread := read_memOf (tableOf len ++ stream) (256 + k)
    rw [List.getElem?_append_right (by rw [length_tableOf]; omega), length_tableOf, Nat.add_sub_cancel_left] at hread
    rw [clearAcc_input, clearAcc_ipos, tableBuilt_ipos, show (256 : Word32).toNat = 256 from rfl, ← hread]
    simp [tableBuilt]

/-- PRIME buffers the first two words of a stream of units, R77. -/
theorem prime_of_units {us : List FetchUnit} {word₁ word₂ ahead : List Bool} (h₁ : word₁.length = 16)
    (h₂ : word₂.length = 16)
    (h : ReaderHolds [] (emitUnits (.word :: .word :: us) (word₁ ++ (word₂ ++ ahead))) (clearAcc s)) :
    ∃ t, prime Config.std s = .ok () t ∧ t = readerMoved t.acc t.bcnt t.ipos s ∧
      ReaderHolds (word₁ ++ word₂) (emitUnits us ahead) t := by
  have hleft : inputLeft (2 * Config.std.primeWords) s = true := by
    rw [emitUnits_word h₁, emitUnits_word h₂] at h
    exact (inputLeft_iff _ _).mpr (h.ipos_le (bytes := [_, _, _, _]))
  obtain ⟨u, hload₁, hmoved₁, hu⟩ := h.fetchWord h₁ (Nat.zero_le _)
  obtain ⟨t, hload₂, hmoved₂, ht⟩ := hu.fetchWord h₂ h₁.le
  refine ⟨t, ?_, ?_, ht⟩
  · rw [prime, if_pos hleft, show Config.std.primeWords = 2 from rfl]
    simp only [loadWords, hload₁, hload₂, Res.bind_ok]
  · rw [hmoved₂, hmoved₁]
    rfl

/-- What INIT leaves for the tokens, PRIME having moved the reader. -/
theorem running_beginBlock (hcomplete : CompleteTable len)
    (ht : t = readerMoved t.acc t.bcnt t.ipos (tableBuilt len stream dsize)) :
    Running len dsize (BitVec.ofNat 32 (tableOf len ++ stream).length) (beginBlock Config.std t) := by
  have hbuilt : BuiltTable (tableBuilt len stream dsize).toDatapath :=
    builtTable_setCodes_count (s := advance 256 (setLengths len _)) hcomplete
  rw [ht]
  exact {
    moves := rfl
    status := rfl
    phase := rfl
    degen := rfl
    lengths := rfl
    table := hbuilt.congr rfl rfl rfl rfl
    dsize := rfl
    inLen := rfl }

/-- INIT on a launched payload of a complete table: the run stands where an assembly starts. -/
theorem init_launched (hcomplete : CompleteTable len) (h : (tableOf len ++ emitUnits U B).length < 2 ^ 32)
    (hU : assemblyStart.units <+: U) (hB : B.length = 16 * wordCount U) :
    ∃ t, init Config.std (launched (tableOf len ++ emitUnits U B) dsize) = .ok () t ∧
      Decoding len dsize (BitVec.ofNat 32 (tableOf len ++ emitUnits U B).length) B U assemblyStart [] t := by
  obtain ⟨us, rfl⟩ : ∃ us, U = .word :: .word :: us := hU.imp fun _ => Eq.symm
  obtain ⟨word₁, B, rfl, h₁, hB⟩ := exists_word hB
  obtain ⟨word₂, ahead, rfl, h₂, hahead⟩ := exists_word hB
  obtain ⟨t, hprime, hmoved, ht⟩ := prime_of_units h₁ h₂ (readerHolds_tableBuilt (dsize := dsize) h)
  refine ⟨beginBlock Config.std t, ?_, ?running, ?follows, ?written⟩
  · rw [init, loadTable_launched_tableOf h, Res.bind_ok, build_launched hcomplete, Res.bind_ok, hprime, Res.bind_ok]
  case running => exact running_beginBlock hcomplete hmoved
  case follows =>
    exact ⟨word₁ ++ word₂, ahead, us, (List.append_assoc _ _ _).symm, rfl, by simp [h₁, h₂, assemblyStart],
      by decide, hahead, ht.congr⟩
  case written =>
    rw [hmoved]
    exact ⟨rfl, rfl⟩

/-! ## The whole run -/

theorem step_of_init (hmoves : s.moves = []) (hstatus : s.status = .busy) (hphase : s.phase = .init)
    (hinit : init Config.std s = .ok () t) : step s = .next t := by
  simp [step, machineStep, hmoves, engineStep, hstatus, hphase, hinit]

/-- The payload of a listing, with its bits padded. -/
theorem assemble_eq (len : Vector Nibble 512) (listing : List Instr) :
    assemble len listing = tableOf len ++ emitUnits (assembleTokens len listing assemblyStart).units
      (assembleTokens len listing assemblyStart).padded :=
  congrArg (tableOf len ++ ·) (emitUnits_append_zeros _ _ _).symm

/-- Settles O60: INIT, a step for each token beside the assembly of the listing, and FINISH. -/
theorem assembledListingDecodes : Obligations.AssembledListingDecodes := by
  unfold Obligations.AssembledListingDecodes
  intro len listing out hcomplete hlisting hexpand hout hpayload
  have hcounted : (assembleTokens len listing assemblyStart).Counted :=
    Assembly.Counted.assembleTokens ⟨by decide, rfl⟩ hcomplete fun i hi => (hlisting i hi).1
  have hwithin := (assembleTokens len listing assemblyStart).within_padded
  have hdsize : (BitVec.ofNat 32 out.length).toNat = out.length := by rw [BitVec.toNat_ofNat, Nat.mod_eq_of_lt hout]
  have hinLen : (BitVec.ofNat 32 (assemble len listing).length).toNat = (assemble len listing).length := by
    rw [BitVec.toNat_ofNat, Nat.mod_eq_of_lt hpayload]
  obtain ⟨s₀, hinit, hs₀⟩ := init_launched (dsize := BitVec.ofNat 32 out.length) hcomplete
    ((assemble_eq len listing) ▸ hpayload) hwithin.of_assembleTokens.2 hcounted.length_padded
  rw [← assemble_eq] at hinit hs₀
  obtain ⟨s, hrun, hs⟩ := hs₀.run_listing hlisting hexpand hdsize.ge hwithin 1
  have hopos : s.opos = s.dsize := BitVec.eq_of_toNat_eq (by rw [hs.written.opos, hs.running.dsize, hdsize])
  refine ⟨finish s, ?_, rfl, hs.written.opos, ?_, hs.written.output⟩
  · calc core.run (listing.length + 2) (launched (assemble len listing) (BitVec.ofNat 32 out.length))
        = core.run (listing.length + 1) s₀ := run_succ (step_of_init rfl rfl rfl hinit)
      _ = core.run 1 s := hrun
      _ = .next (finish s) := run_succ (step_of_finish hs.running hopos)
  · exact hs.follows.ipos_eq.trans ((congrArg BitVec.toNat hs.running.inLen).trans hinLen)

end Sys2Proof.Machine
end

section
/-! PROOF. The bit reader's own laws (40_bit_reader.md R77 to R86): each ending of PRIME, CONSUME, RDBYTE and RD16 from what
it depends on, the bits PEEK looks at, two CONSUMEs in a row, and the faults that the match forms meet in the reader. -/

namespace Sys2Proof.Machine

variable {c : Config} {s t u : State} {m n : Nat}

/-! ## How an operation ends, by what it depends on -/

theorem rdByte_short (h : s.inLen.toNat < s.ipos.toNat + 1) : rdByte s = .raised .extensionShort s := by
  rw [rdByte, if_neg (by rw [inputLeft_iff]; omega)]

theorem rd16_short (h : s.inLen.toNat < s.ipos.toNat + 2) : rd16 s = .raised .extensionShort s := by
  rw [rd16, if_neg (by rw [inputLeft_iff]; omega)]

theorem exists_rdByte (hleft : s.ipos.toNat + 1 ≤ s.inLen.toNat) (hsome : (s.input.read s.ipos.toNat).isSome = true) :
    ∃ b, rdByte s = .ok b (advance 1 s) := by
  rcases rdByte_cases s with ⟨hlt, -⟩ | ⟨-, b, -, e⟩ | ⟨-, hnone, -⟩
  · omega
  · exact ⟨b, e⟩
  · rw [hnone] at hsome
    cases hsome

theorem exists_rd16 (hleft : s.ipos.toNat + 2 ≤ s.inLen.toNat) (hlo : (s.input.read s.ipos.toNat).isSome = true)
    (hhi : (s.input.read (s.ipos.toNat + 1)).isSome = true) : ∃ w, rd16 s = .ok w (advance 2 s) := by
  rcases rd16_cases s with ⟨hlt, -⟩ | ⟨-, lo, hi, -, -, e⟩ | ⟨-, hnone, -⟩
  · omega
  · exact ⟨_, e⟩
  · rw [hlo, hhi] at hnone
    simp at hnone

theorem loadWord_of_bytes {lo hi : Byte} (hlo : s.input.read s.ipos.toNat = some lo)
    (hhi : s.input.read (s.ipos.toNat + 1) = some hi) : loadWord c s = .ok () (wordLoaded c (wordOfBytes lo hi) s) := by
  simp [loadWord, inRead2, hlo, hhi]

/-- A refill is due, R79, exactly where the drop leaves fewer than sixteen bits. -/
theorem refillDue_iff (c : Config) (n : Nat) (s : State) : refillDue n s ↔ (dropBits c n s).bcnt.toNat < 16 := by
  rw [dropBits_bcnt_toNat]
  unfold refillDue
  omega

theorem consume_of_not_due (h : ¬refillDue n s) : consume c n s = .ok () (dropBits c n s) := by
  rw [consume, if_neg (mt (refillDue_iff c n s).mpr h)]

theorem consume_of_bytes {lo hi : Byte} (hdue : refillDue n s) (hleft : s.ipos.toNat + 2 ≤ s.inLen.toNat)
    (hlo : s.input.read s.ipos.toNat = some lo) (hhi : s.input.read (s.ipos.toNat + 1) = some hi) :
    consume c n s = .ok () (wordLoaded c (wordOfBytes lo hi) (dropBits c n s)) := by
  have hword : inputLeft 2 (dropBits c n s) = true := (inputLeft_iff _ _).mpr hleft
  rw [consume, if_pos ((refillDue_iff c n s).mp hdue), refill, if_pos hword]
  exact loadWord_of_bytes hlo hhi

/-- R80 and R85: the refill that finds no word is the fault, at once. -/
theorem consume_underflow (hdue : refillDue n s) (hleft : s.inLen.toNat < s.ipos.toNat + 2) :
    consume c n s = .raised .refillEmpty (dropBits c n s) := by
  have hempty : ¬inputLeft 2 (dropBits c n s) = true := by
    rw [inputLeft_iff, dropBits_ipos, dropBits_inLen]
    omega
  rw [consume, if_pos ((refillDue_iff c n s).mp hdue), refill, if_neg hempty]

/-- The two counts after a CONSUME that completes, R79 and R80. -/
theorem consume_counts (h : consume c n s = .ok () t) :
    t.bcnt.toNat = s.bcnt.toNat - n + 8 * refillBytes n s ∧ t.ipos.toNat = s.ipos.toNat + refillBytes n s := by
  have hdrop := dropBits_bcnt_toNat c n s
  rcases consume_cases c n s with ⟨h₁₆, e⟩ | ⟨-, -, e⟩ | ⟨hlt, hleft, lo, hi, -, -, e⟩ | ⟨-, -, -, e⟩ <;>
    rw [e] at h <;> cases h
  · rw [refillBytes, if_neg (by rw [refillDue_iff c]; omega)]
    exact ⟨hdrop, rfl⟩
  · rw [refillBytes, if_pos ((refillDue_iff c n s).mpr hlt), wordLoaded_bcnt_toNat _ _ (by omega), hdrop]
    exact ⟨rfl, advance_ipos_toNat hleft⟩

/-! ## Taking a fault of the reader -/

/-- What a `raise` leaves once it is taken, R137 to R139, where the operation had touched nothing outside the datapath but
IPOS. -/
theorem faultTaken_outcome {α : Type} {r : Res α} {f : FaultCause} {pos : Nat} (h : r = .raised f u)
    (hipos : u.ipos.toNat = pos) (hopos : u.opos = s.opos := by rfl) (hdsize : u.dsize = s.dsize := by rfl)
    (hinLen : u.inLen = s.inLen := by rfl) (hinput : u.input = s.input := by rfl)
    (houtput : u.output = s.output := by rfl) (hmoves : u.moves = s.moves := by rfl)
    (hread : u.readData = s.readData := by rfl) : ∃ t, r.outcome = .next t ∧ FaultTaken f pos s t :=
  ⟨enterFault f u, by rw [h, Res.outcome_raised], rfl, rfl, rfl, hipos, hopos, hdsize, hinLen, hinput, houtput, hmoves, hread⟩

/-- Settles O30: the refill is due and finds no word. -/
theorem consumeUnderflows : Obligations.ConsumeUnderflows := by
  unfold Obligations.ConsumeUnderflows
  intro c n s _ _ hdue hleft
  exact faultTaken_outcome (consume_underflow hdue hleft) rfl

/-! ## The match forms, up to their distance bits -/

theorem exec_matchX8_of_byte {dbits : Nibble} {b : Byte} {extra : BitVec 15} (hleft : s.ipos.toNat + 1 ≤ s.inLen.toNat)
    (hsome : (s.input.read s.ipos.toNat).isSome = true) :
    exec (.matchX8 dbits b extra) s =
      (finishMatch Config.std dbits extra (setLength (extLength8 Config.std b) (advance 1 s))).outcome := by
  obtain ⟨b', hb⟩ := exists_rdByte hleft hsome
  rw [exec, execMatchX8, execMatchX8In, hb, Res.bind_ok]

theorem exec_matchX16_of_bytes {dbits : Nibble} {v : Word16} {extra : BitVec 15}
    (hleft : s.ipos.toNat + 3 ≤ s.inLen.toNat)
    (hsome : ∀ k : Nat, k < 3 → (s.input.read (s.ipos.toNat + k)).isSome = true) (hv : 15 ≤ v.toNat) :
    exec (.matchX16 dbits v extra) s =
      (finishMatch Config.std dbits extra (setLength (extLength16 Config.std v) (advance 3 s))).outcome := by
  have hpos : (advance 1 s).ipos.toNat = s.ipos.toNat + 1 := advance_ipos_toNat (by omega)
  obtain ⟨b, hb⟩ := exists_rdByte (by omega) (hsome 0 (by decide))
  obtain ⟨w, hw⟩ : ∃ w, rd16 (advance 1 s) = .ok w (advance 2 (advance 1 s)) :=
    exists_rd16 (by rw [hpos, advance_inLen]; omega) (by rw [hpos]; exact hsome 1 (by decide))
      (by rw [hpos]; exact hsome 2 (by decide))
  rw [exec, execMatchX16, execMatchX16In, hb, Res.bind_ok, hw, Res.bind_ok, if_neg (by rw [minExtension]; omega),
    advance_advance]

theorem finishMatch_underflow {dbits : Nibble} (extra : BitVec 15) (hdue : refillDue dbits.toNat s)
    (hleft : s.inLen.toNat < s.ipos.toNat + 2) :
    finishMatch c dbits extra s = .raised .refillEmpty (dropBits c dbits.toNat s) := by
  rw [finishMatch, consume_underflow hdue hleft, Res.bind_raised]

/-- Settles O8: each form comes to its distance bits, whose refill finds no word before the distance is looked at. -/
theorem refillEmptyFaults : Obligations.RefillEmptyFaults := by
  unfold Obligations.RefillEmptyFaults
  intro dbits lnib b v extra s _ hdue
  refine ⟨fun hleft => ?matchM, fun hbyte hsome hleft => ?matchX8, fun hbytes hsome hv hleft => ?matchX16⟩
  case matchM =>
    exact faultTaken_outcome
      (finishMatch_underflow (s := setLength (shortLength Config.std lnib) s) extra hdue hleft) rfl
  case matchX8 =>
    have hpos := advance_ipos_toNat hbyte
    rw [exec_matchX8_of_byte hbyte hsome]
    exact faultTaken_outcome (finishMatch_underflow extra hdue (by
      rw [setLength_ipos, setLength_inLen, hpos, advance_inLen]; omega)) hpos
  case matchX16 =>
    have hpos := advance_ipos_toNat hbytes
    rw [exec_matchX16_of_bytes hbytes hsome hv]
    exact faultTaken_outcome (finishMatch_underflow extra hdue (by
      rw [setLength_ipos, setLength_inLen, hpos, advance_inLen]; omega)) hpos

theorem exec_matchX8_short {dbits : Nibble} {b : Byte} {extra : BitVec 15} (h : s.inLen.toNat < s.ipos.toNat + 1) :
    exec (.matchX8 dbits b extra) s = (Res.raised .extensionShort s : Res Unit).outcome := by
  rw [exec, execMatchX8, execMatchX8In, rdByte_short h, Res.bind_raised]

theorem exec_matchX16_short {dbits : Nibble} {v : Word16} {extra : BitVec 15} (h : s.inLen.toNat < s.ipos.toNat + 1) :
    exec (.matchX16 dbits v extra) s = (Res.raised .extensionShort s : Res Unit).outcome := by
  rw [exec, execMatchX16, execMatchX16In, rdByte_short h, Res.bind_raised]

theorem exec_matchX16_value_short {dbits : Nibble} {v : Word16} {extra : BitVec 15}
    (hleft : s.ipos.toNat + 1 ≤ s.inLen.toNat) (hsome : (s.input.read s.ipos.toNat).isSome = true)
    (h : s.inLen.toNat < s.ipos.toNat + 3) :
    exec (.matchX16 dbits v extra) s = (Res.raised .extensionShort (advance 1 s) : Res Unit).outcome := by
  obtain ⟨b, hb⟩ := exists_rdByte hleft hsome
  have hshort : (advance 1 s).inLen.toNat < (advance 1 s).ipos.toNat + 2 := by
    rw [advance_ipos_toNat hleft, advance_inLen]
    omega
  rw [exec, execMatchX16, execMatchX16In, hb, Res.bind_ok, rd16_short hshort, Res.bind_raised]

/-- Settles O9: RDBYTE is short, or RD16 is after the 0xff. -/
theorem extensionShortFaults : Obligations.ExtensionShortFaults := by
  unfold Obligations.ExtensionShortFaults
  intro dbits b v extra s
  refine ⟨fun hshort => ⟨?byte8, ?byte16⟩, fun hleft hsome hshort => ?value⟩
  case byte8 =>
    rw [exec_matchX8_short hshort]
    exact faultTaken_outcome rfl rfl
  case byte16 =>
    rw [exec_matchX16_short hshort]
    exact faultTaken_outcome rfl rfl
  case value =>
    rw [exec_matchX16_value_short hleft hsome hshort]
    exact faultTaken_outcome rfl (advance_ipos_toNat hleft)

/-! ## PRIME -/

/-- R77 and R76: two words in ACC, the first in the high half. -/
theorem prime_std_of_bytes {b₀ b₁ b₂ b₃ : Byte} (hleft : s.ipos.toNat + 4 ≤ s.inLen.toNat)
    (h₀ : s.input.read s.ipos.toNat = some b₀) (h₁ : s.input.read (s.ipos.toNat + 1) = some b₁)
    (h₂ : s.input.read (s.ipos.toNat + 2) = some b₂) (h₃ : s.input.read (s.ipos.toNat + 3) = some b₃) :
    prime Config.std s = .ok () (readerMoved (((b₁ ++ b₀).toNat <<< 16) ||| (b₃ ++ b₂).toNat) 32 (s.ipos + 4) s) := by
  have hprime : inputLeft (2 * Config.std.primeWords) s = true := (inputLeft_iff _ _).mpr hleft
  have hpos : (s.ipos + 2).toNat = s.ipos.toNat + 2 := advance_ipos_toNat (n := 2) (by omega)
  have hfirst : loadWord Config.std (clearAcc s) = .ok () (wordLoaded Config.std (wordOfBytes b₀ b₁) (clearAcc s)) :=
    loadWord_of_bytes h₀ h₁
  have hsecond : loadWord Config.std (wordLoaded Config.std (wordOfBytes b₀ b₁) (clearAcc s)) =
      .ok () (wordLoaded Config.std (wordOfBytes b₂ b₃) (wordLoaded Config.std (wordOfBytes b₀ b₁) (clearAcc s))) :=
    loadWord_of_bytes (show s.input.read (s.ipos + 2).toNat = some b₂ by rwa [hpos])
      (show s.input.read ((s.ipos + 2).toNat + 1) = some b₃ by rwa [hpos])
  have hacc : placeWord Config.std (wordOfBytes b₂ b₃) 16 (placeWord Config.std (wordOfBytes b₀ b₁) 0 0) =
      ((b₁ ++ b₀).toNat <<< 16) ||| (b₃ ++ b₂).toNat := by
    rw [placeWord, placeWord, Nat.zero_or]
    rfl
  have hipos : s.ipos + 2 + 2 = s.ipos + 4 := BitVec.add_assoc _ _ _
  rw [prime, if_pos hprime, show Config.std.primeWords = 2 from rfl, ← hacc, ← hipos]
  simp only [loadWords, hfirst, hsecond, Res.bind_ok]
  rfl

/-- Settles O27: the two loads, and how many whole words are left where there are not two. -/
theorem primeLoadsTwoWords : Obligations.PrimeLoadsTwoWords := by
  unfold Obligations.PrimeLoadsTwoWords
  refine ⟨fun s b₀ b₁ b₂ b₃ hleft h₀ h₁ h₂ h₃ => prime_std_of_bytes hleft h₀ h₁ h₂ h₃, fun s hle hlt => ?_⟩
  rcases prime_cases Config.std s with ⟨-, e⟩ | ⟨hleft, -⟩ | ⟨hleft, -⟩
  · refine faultTaken_outcome e ?_
    rw [advance_ipos_toNat (by omega)]
    split <;> omega
  · exact absurd hlt (Nat.not_lt.mpr hleft)
  · exact absurd hlt (Nat.not_lt.mpr hleft)

/-! ## PEEK -/

theorem peek_toNat (c : Config) (s : State) (hn : n ≤ 16) : (peek c n s).toNat = s.acc / 2 ^ (c.accw - n) % 2 ^ n := by
  by_cases h₀ : n = 0
  · subst h₀
    simp [peek, Nat.mod_one]
  · have hlt : s.acc / 2 ^ (c.accw - n) % 2 ^ n < 2 ^ 16 :=
      (Nat.mod_lt _ (Nat.two_pow_pos n)).trans_le (Nat.pow_le_pow_right (by decide) hn)
    rw [peek, if_neg h₀, BitVec.toNat_ofNat, Nat.shiftRight_eq_div_pow, Nat.mod_eq_of_lt hlt]

/-- The first `m` of the first `n` of `width` bits are the first `m` of them. -/
theorem firstBits_firstBits (a : Nat) {width : Nat} (hm : m ≤ n) (hn : n ≤ width) :
    a / 2 ^ (width - n) % 2 ^ n / 2 ^ (n - m) = a / 2 ^ (width - m) % 2 ^ m := by
  have hlow : 2 ^ n = 2 ^ (n - m) * 2 ^ m := by rw [← pow_add, Nat.sub_add_cancel hm]
  have hhigh : 2 ^ (width - m) = 2 ^ (width - n) * 2 ^ (n - m) := by rw [← pow_add]; congr 1; omega
  rw [hlow, Nat.mod_mul_right_div_self, Nat.div_div_eq_div_mul, hhigh]

/-- Settles O28: both peeks are first bits of ACC. -/
theorem peeksAreConsistent : Obligations.PeeksAreConsistent := by
  unfold Obligations.PeeksAreConsistent
  intro c s m n hc hm hn
  have hw : 31 ≤ c.accw := hc.1
  constructor
  · apply BitVec.eq_of_toNat_eq
    rw [BitVec.toNat_ushiftRight, peek_toNat c s hn, peek_toNat c s (hm.trans hn), Nat.shiftRight_eq_div_pow,
      firstBits_firstBits s.acc hm (by omega)]
  · rw [peek_toNat c s hn]
    split
    · subst_vars; rw [pow_zero, Nat.mod_one]
    · rfl

/-! ## CONSUME -/

/-- Two states that the reader alone tells from a third are equal when its registers are. -/
theorem eq_of_readerMoved (ht : t = readerMoved t.acc t.bcnt t.ipos s) (hu : u = readerMoved u.acc u.bcnt u.ipos s)
    (hacc : t.acc = u.acc) (hbcnt : t.bcnt.toNat = u.bcnt.toNat) (hipos : t.ipos = u.ipos) : t = u := by
  rw [ht, hu, hacc, BitVec.eq_of_toNat_eq hbcnt, hipos]

theorem dropBits_zero (h : s.acc < 2 ^ c.accw) : dropBits c 0 s = s :=
  eq_of_readerMoved (s := s) rfl rfl (by rw [dropBits_acc, Nat.shiftLeft_zero, Nat.mod_eq_of_lt h])
    (dropBits_bcnt_toNat c 0 s) rfl

theorem dropBits_dropBits (c : Config) (m n : Nat) (s : State) :
    dropBits c n (dropBits c m s) = dropBits c (m + n) s := by
  refine eq_of_readerMoved (s := s) rfl rfl ?_ ?_ rfl
  · simp only [dropBits_acc, Nat.shiftLeft_eq, pow_add, ← Nat.mul_assoc, Nat.mod_mul_mod]
  · simp only [dropBits_bcnt_toNat, Nat.sub_sub]

/-- A word placed and then bits of those before it dropped, or the bits first: R76 and R79 leave the same. -/
theorem dropBits_wordLoaded {w : Word16} (hn : n ≤ s.bcnt.toNat) (hroom : s.bcnt.toNat + 16 ≤ c.accw)
    (hcount : s.bcnt.toNat + 16 < 2 ^ 6) : dropBits c n (wordLoaded c w s) = wordLoaded c w (dropBits c n s) := by
  have hdrop := dropBits_bcnt_toNat c n s
  refine eq_of_readerMoved (s := s) rfl rfl ?_ ?_ rfl
  · have hword : (orderBits c w).toNat <<< (c.accw - 16 - (s.bcnt.toNat - n)) < 2 ^ c.accw :=
      (Nat.shiftLeft_lt (orderBits c w).isLt).trans_le (Nat.pow_le_pow_right (by decide) (by omega))
    rw [dropBits_acc, wordLoaded_acc, wordLoaded_acc, placeWord, placeWord, dropBits_acc, hdrop, Nat.shiftLeft_or_distrib,
      Nat.or_mod_two_pow, ← Nat.shiftLeft_add,
      show c.accw - 16 - s.bcnt.toNat + n = c.accw - 16 - (s.bcnt.toNat - n) by omega, Nat.mod_eq_of_lt hword]
  · rw [dropBits_bcnt_toNat, wordLoaded_bcnt_toNat c w hcount, wordLoaded_bcnt_toNat c w (by omega), hdrop]
    omega

/-- R83 kept by a CONSUME that completes. -/
theorem ReaderInv.of_consume (hc : ReaderFits c) (hn : n ≤ 16) (h : ReaderInv c s) (ht : consume c n s = .ok () t) :
    ReaderInv c t := by
  obtain ⟨h₁₆, hbuf⟩ := readerInv_iff.mp h
  have hdrop := hbuf.dropBits (hn.trans h₁₆)
  rcases consume_cases c n s with ⟨hge, e⟩ | ⟨-, -, e⟩ | ⟨hlt, -, lo, hi, -, -, e⟩ | ⟨-, -, -, e⟩ <;>
    rw [e] at ht <;> cases ht
  · exact readerInv_iff.mpr ⟨hge, hdrop⟩
  · have hloaded := wordLoaded_bcnt_toNat c (wordOfBytes lo hi) (s := dropBits c n s) (by omega)
    exact readerInv_iff.mpr ⟨by omega, hdrop.wordLoaded (by omega) (by omega)⟩

/-- CONSUME(0) makes no refill where sixteen bits are buffered. -/
theorem ReaderInv.consume_zero_eq (h : ReaderInv c s) : consume c 0 s = .ok () s := by
  have := h.atLeast
  rw [consume_of_not_due (by rw [refillDue]; omega), dropBits_zero h.fits]

theorem readerFits_of_valid (hc : c.Valid) : ReaderFits c := ⟨hc.1, hc.2.1⟩

/-- Settles O29: R83 by its two operations, the drop and the word placed. -/
theorem consumeKeepsTheReader : Obligations.ConsumeKeepsTheReader := by
  unfold Obligations.ConsumeKeepsTheReader
  intro c n s t hc hn h ht
  obtain ⟨hbcnt, hipos⟩ := consume_counts ht
  refine ⟨h.of_consume (readerFits_of_valid hc) hn ht, hbcnt, hipos, fun h₀ => ?_⟩
  subst h₀
  rw [h.consume_zero_eq] at ht
  cases ht
  rfl

/-- Two CONSUMEs of at most sixteen bits in all are one of their sum, R84: at most one of the two makes a refill, at the same
position, and the bits dropped after it are those that stood before its word. -/
theorem consume_bind_consume (hw : 31 ≤ c.accw) (h : ReaderInv c s) (hmn : m + n ≤ 16) :
    ((consume c m s).bind fun _ t => consume c n t).outcome = (consume c (m + n) s).outcome := by
  have h₁₆ := h.atLeast
  have hm := dropBits_bcnt_toNat c m s
  have hsum := dropBits_bcnt_toNat c (m + n) s
  rcases consume_cases c m s with ⟨-, e⟩ | ⟨hlt, hleft, e⟩ | ⟨hlt, hleft, lo, hi, hlo, hhi, e⟩ | ⟨hlt, hleft, hnone, e⟩ <;>
    rw [e]
  · rw [Res.bind_ok, consume, consume, dropBits_dropBits]
  · rw [Res.bind_raised, consume_underflow ((refillDue_iff c _ s).mpr (by omega)) hleft]
    rfl
  · have hcomm : dropBits c n (wordLoaded c (wordOfBytes lo hi) (dropBits c m s)) =
        wordLoaded c (wordOfBytes lo hi) (dropBits c (m + n) s) := by
      rw [dropBits_wordLoaded (by omega) (by omega) (by omega), dropBits_dropBits]
    have hb := wordLoaded_bcnt_toNat c (wordOfBytes lo hi) (s := dropBits c (m + n) s) (by omega)
    rw [Res.bind_ok, consume_of_not_due (by rw [refillDue_iff c, hcomm]; omega), hcomm,
      consume_of_bytes ((refillDue_iff c _ s).mpr (by omega)) hleft hlo hhi]
  · rcases consume_cases c (m + n) s with ⟨hge, -⟩ | ⟨-, hshort, -⟩ | ⟨-, -, lo, hi, hlo, hhi, -⟩ | ⟨-, -, -, e'⟩
    · omega
    · omega
    · rw [hlo, hhi] at hnone
      simp at hnone
    · rw [e', Res.bind_refused]

/-- Settles O31, by induction on the number of bits. -/
theorem consumeBitByBit : Obligations.ConsumeBitByBit := by
  unfold Obligations.ConsumeBitByBit
  intro c n s hc hn h
  induction n generalizing s with
  | zero => rw [consumeBits, h.consume_zero_eq]
  | succ n ih =>
    have hrest : ((consume c 1 s).bind fun _ t => consumeBits c n t).outcome =
        ((consume c 1 s).bind fun _ t => consume c n t).outcome := by
      cases e : consume c 1 s with
      | ok _ t => exact ih t (by omega) (h.of_consume (readerFits_of_valid hc) (by decide) e)
      | raised _ _ => rfl
      | faulted _ => rfl
      | refused _ => rfl
    rw [consumeBits, hrest, consume_bind_consume hc.1 h (by omega), Nat.add_comm]

/-! ## The position law -/

/-- `n` bits of a block consumed, from the state `s` of its start on: R86 at this point of the block. -/
structure Consumed (n : Nat) (s t : State) : Prop where
  bcnt : t.bcnt.toNat = 16 * wordsFetched n - n
  ipos : t.ipos.toNat = s.ipos.toNat + 2 * (wordsFetched n - 2)

/-- The refill that CONSUME makes when its drop leaves fewer than sixteen bits is the one word more of R86. -/
theorem Consumed.consume (h : Consumed m s t) (hn : n ≤ 16) (hu : consume c n t = .ok () u) : Consumed (m + n) s u := by
  obtain ⟨hbcnt, hipos⟩ := h
  obtain ⟨hbcnt', hipos'⟩ := consume_counts hu
  have hwords : 2 * wordsFetched (m + n) = 2 * wordsFetched m + refillBytes n t := by
    unfold refillBytes refillDue
    rw [hbcnt]
    unfold wordsFetched
    split <;> omega
  have htwo : 2 ≤ wordsFetched m := le_max_left _ _
  have hfront : m + 16 ≤ 16 * wordsFetched m := by
    unfold wordsFetched
    omega
  exact ⟨by omega, by omega⟩

theorem Consumed.consumeList {ns : List Nat} (h : Consumed m s t) (hns : ∀ n ∈ ns, n ≤ 16)
    (hu : consumeList c ns t = .ok () u) : Consumed (m + ns.sum) s u := by
  induction ns generalizing m t with
  | nil => cases hu; exact h
  | cons n ns ih =>
    obtain ⟨_, t', ht', hu⟩ := Res.bind_eq_ok hu
    rw [List.sum_cons, ← Nat.add_assoc]
    exact ih (h.consume (hns n List.mem_cons_self) ht') (fun k hk => hns k (List.mem_cons_of_mem n hk)) hu

/-- Settles O32, by induction on the list of consumes. -/
theorem positionLaw : Obligations.PositionLaw := by
  unfold Obligations.PositionLaw
  intro c ns s t hns _ hbcnt _ ht
  have hstart : Consumed 0 s s := ⟨hbcnt, rfl⟩
  obtain ⟨hbcnt', hipos'⟩ := hstart.consumeList hns ht
  rw [Nat.zero_add] at hbcnt' hipos'
  exact ⟨hbcnt', hipos'⟩

end Sys2Proof.Machine
end

section
/-! PROOF. The table builder's own laws (41_table_builder.md R90 to R104): the codewords of a complete table share out every
pattern of fifteen bits, LOADTABLE's lengths, CLASSIFY by the symbols themselves, and how DECODESYM ends. -/

namespace Sys2Proof.Machine

variable {len : Vector Nibble 512} {d : Datapath} {s t : State} {l n : Nat}

/-! ## Every pattern begins with a codeword, R99 -/

/-- The partial Kraft sums cut the patterns below them into intervals, one for each length. -/
theorem exists_kraftBelow_interval {cnt : Vector (BitVec 10) 15} {p : Nat} (h : p < kraftBelow cnt n) :
    ∃ l < n, kraftBelow cnt l ≤ p ∧ p < kraftBelow cnt (l + 1) := by
  induction n with
  | zero => simp [kraftBelow] at h
  | succ n ih =>
    by_cases hp : p < kraftBelow cnt n
    · obtain ⟨l, hl, hinterval⟩ := ih hp
      exact ⟨l, by omega, hinterval⟩
    · exact ⟨n, by omega, by omega, h⟩

/-- R97 and R99: the codewords of a complete table share out the patterns of fifteen bits by their lengths. -/
theorem CompleteTable.exists_length (h : CompleteTable len) (p : BitVec 15) :
    ∃ l, 1 ≤ l ∧ l ≤ 15 ∧ firstCode (countTable len) l ≤ p.toNat >>> (15 - l) ∧
      p.toNat >>> (15 - l) < firstCode (countTable len) l + cntAt (countTable len) l := by
  obtain ⟨l, h₁₆, hle, hlt⟩ := exists_kraftBelow_interval (h.kraft ▸ p.isLt)
  have h₁₅ : l ≤ 15 := by omega
  rw [kraftBelow_succ, ← firstCode_mul _ h₁₅, ← Nat.add_mul] at hlt
  rw [← firstCode_mul _ h₁₅] at hle
  have h₁ : 1 ≤ l := Nat.pos_of_ne_zero (by rintro rfl; simp [firstCode] at hlt)
  refine ⟨l, h₁, h₁₅, ?_⟩
  rw [Nat.shiftRight_eq_div_pow]
  exact ⟨(Nat.le_div_iff_mul_le (Nat.two_pow_pos _)).mpr hle, (Nat.div_lt_iff_lt_mul (Nat.two_pow_pos _)).mpr hlt⟩

/-- Among the entries of a list that pass a test, there is one with each rank. -/
theorem exists_countP_take_eq {α : Type} (q : α → Bool) (xs : List α) {k : Nat} (h : k < xs.countP q) :
    ∃ j, ∃ hj : j < xs.length, q xs[j] = true ∧ (xs.take j).countP q = k := by
  induction xs generalizing k with
  | nil => cases h
  | cons x xs ih =>
    by_cases hx : q x = true
    · cases k with
      | zero => exact ⟨0, by simp, hx, rfl⟩
      | succ k =>
        obtain ⟨j, hj, hq, hcount⟩ := ih (k := k) (by simpa [hx] using h)
        exact ⟨j + 1, by simpa using hj, hq, by simp [hx, hcount]⟩
    · obtain ⟨j, hj, hq, hcount⟩ := ih (k := k) (by simpa [hx] using h)
      exact ⟨j + 1, by simpa using hj, hq, by simp [hx, hcount]⟩

theorem lenAt_eq_getElem {sym : Nat} (h : sym < len.toList.length) : lenAt len sym = len.toList[sym].toNat := by
  rw [Vector.length_toList] at h
  rw [lenAt, dif_pos h, Vector.getElem_toList]

/-- ASSIGN's order (R98) leaves out no rank among the symbols of a length. -/
theorem exists_rankBelow_eq {k : Nat} (h : k < countLength len l) :
    ∃ sym : Sym, lenAt len sym.toNat = l ∧ rankBelow len sym.toNat l = k := by
  obtain ⟨j, hj, hlen, hrank⟩ := exists_countP_take_eq _ _ h
  have hsym : (BitVec.ofNat 9 j).toNat = j := Nat.mod_eq_of_lt (by rwa [Vector.length_toList] at hj)
  exact ⟨BitVec.ofNat 9 j, by rw [hsym, lenAt_eq_getElem hj]; simpa using hlen, by rw [hsym]; exact hrank⟩

/-- R99: a codeword begins every pattern, that of the symbol at the right place among those of the right length. -/
theorem BuiltTable.exists_codeBegins (h : BuiltTable d) (p : BitVec 15) : ∃ sym : Sym, CodeBegins d p sym := by
  obtain ⟨l, h₁, h₁₅, hfirst, hlast⟩ := h.complete.exists_length p
  rw [cntAt_countTable h₁ h₁₅] at hlast
  obtain ⟨sym, hlen, hrank⟩ := exists_rankBelow_eq (Nat.sub_lt_left_of_lt_add hfirst hlast)
  have hcoded : lenAt d.len sym.toNat ≠ 0 := by omega
  refine ⟨sym, hcoded, ?_⟩
  rw [(h.code_eq sym.isLt hcoded).1, hlen, hrank, h.cnt, Nat.add_sub_cancel' hfirst]

/-- Settles O38: some codeword begins the pattern, and LOOKUP returns every symbol whose codeword does, so there is one. -/
theorem lookupFindsTheOneSymbol : Obligations.LookupFindsTheOneSymbol := by
  unfold Obligations.LookupFindsTheOneSymbol
  intro d p h
  obtain ⟨sym, hsym⟩ := h.exists_codeBegins p
  refine ⟨sym, h.lookup_eq hsym, hsym, fun sym' hsym' => ?_⟩
  have hpair := (h.lookup_eq hsym').symm.trans (h.lookup_eq hsym)
  exact congrArg Prod.fst (Option.some.inj hpair)

/-! ## FIRST and CODE of a built table, R96, R98 and R100 -/

/-- Settles O35: FIRST holds what FIRSTCODES computes, without truncation. -/
theorem firstCodesRecurrence : Obligations.FirstCodesRecurrence := by
  unfold Obligations.FirstCodesRecurrence
  intro d h
  constructor
  · rw [h.firstAt_eq le_rfl (by decide), firstCode, firstCode, cntAt_zero, Nat.zero_shiftLeft]
  · intro l h₂ h₁₅
    obtain ⟨k, rfl⟩ : ∃ k, l = k + 1 := ⟨l - 1, by omega⟩
    rw [Nat.add_sub_cancel, h.firstAt_eq (by omega) h₁₅, h.firstAt_eq (by omega) (by omega), firstCode]

/-- Settles O36: CODE holds FIRST and the rank, without truncation. -/
theorem codesAreConsecutive : Obligations.CodesAreConsecutive := by
  unfold Obligations.CodesAreConsecutive
  intro d sym h hsym hl
  rw [(h.code_eq hsym hl).1, h.firstAt_eq (Nat.pos_of_ne_zero hl) (lenAt_le _ _)]

/-- R100 at the greatest used length: with nothing longer, the Kraft sum is used up there. -/
theorem CompleteTable.firstCode_add_cnt_eq (h : CompleteTable len) (h₁₅ : l ≤ 15)
    (hlast : ∀ k : Nat, l < k → k ≤ 15 → cntAt (countTable len) k = 0) :
    firstCode (countTable len) l + cntAt (countTable len) l = 2 ^ l := by
  have hrest : kraftBelow (countTable len) (l + 1) = kraftBelow (countTable len) 16 :=
    Finset.sum_subset (Finset.range_subset_range.mpr (by omega)) fun k hk hk' => by
      rw [Finset.mem_range] at hk hk'
      rw [hlast k (by omega) (by omega), Nat.zero_mul]
  refine Nat.eq_of_mul_eq_mul_right (Nat.two_pow_pos (15 - l)) ?_
  rw [Nat.add_mul, firstCode_mul _ h₁₅, ← kraftBelow_succ, hrest, h.kraft, ← pow_add, Nat.add_sub_cancel' h₁₅]

/-- Settles O37: FIRST is what the shorter codewords take of the Kraft sum, and every code is below the end of its length. -/
theorem codesFitTheirLengths : Obligations.CodesFitTheirLengths := by
  unfold Obligations.CodesFitTheirLengths
  intro d h
  refine ⟨fun l h₁ h₁₅ => ?_, fun sym hsym hl => (h.code_eq hsym hl).2⟩
  rw [h.firstAt_eq h₁ h₁₅, h.cnt]
  exact ⟨h.complete.firstCode_add_cnt_le h₁₅, fun _ => h.complete.firstCode_add_cnt_eq h₁₅⟩

/-! ## LOADTABLE, R91 -/

theorem getD_toList_vectorOfList {α : Type} (x : α) (xs : List α) {k : Nat} (h : k < n) :
    (vectorOfList n x xs).toList.getD k x = xs.getD k x := by
  have hlist : (vectorOfList n x xs).toList = (xs ++ List.replicate n x).take n := rfl
  rw [hlist, List.getD_eq_getElem?_getD, List.getElem?_take_of_lt h, List.getD_eq_getElem?_getD]
  by_cases hk : k < xs.length
  · rw [List.getElem?_append_left hk]
  · rw [List.getElem?_append_right (by omega), List.getElem?_replicate, List.getElem?_eq_none (by omega)]
    split <;> rfl

theorem lenAt_vectorOfList (xs : List Nibble) {sym : Nat} (h : sym < 512) :
    lenAt (vectorOfList 512 0 xs) sym = (xs.getD sym 0).toNat := by
  rw [lenAt_eq_getElem (by rwa [Vector.length_toList]), ← List.getD_eq_getElem _ 0, getD_toList_vectorOfList 0 xs h]

/-- Each byte unpacks to its two nibbles, the low one first. -/
theorem getD_unpackLengths_low (bytes : List Byte) (k : Nat) :
    ((unpackLengths .low bytes).getD k 0).toNat = ((bytes.getD (k / 2) 0).toNat >>> (4 * (k % 2))) % 16 := by
  induction bytes using unpackLengths.induct generalizing k with
  | case1 => simp [unpackLengths]
  | case2 b bs ih =>
    match k with
    | 0 => simp [unpackLengths, byteLengths]
    | 1 => simp [unpackLengths, byteLengths]
    | k + 2 =>
      rw [Nat.add_div_right k two_pos, Nat.add_mod_right]
      exact ih k

/-- Settles O33: the bytes LOADTABLE reads, unpacked. -/
theorem unpackingLaw : Obligations.UnpackingLaw := by
  unfold Obligations.UnpackingLaw
  intro s t ht
  rcases loadTable_cases Config.std s with ⟨-, e⟩ | ⟨hleft, bytes, -, hread, e⟩ | ⟨-, e⟩ <;> rw [e] at ht <;> cases ht
  refine ⟨advance_ipos_toNat hleft, fun sym hsym => ⟨_, hread (sym / 2) (by omega), ?_⟩⟩
  rw [advance_len, setLengths_len, lenAt_vectorOfList _ hsym]
  exact getD_unpackLengths_low bytes sym

/-! ## CLASSIFY by the symbols, R92 to R97 -/

/-- A sum over the lengths, each as often as it occurs, is a sum over the entries. -/
theorem sum_countP_mul (weight : Nat → Nat) (xs : List Nibble) :
    ∑ l ∈ Finset.range 16, (xs.countP fun x => x.toNat == l) * weight l = (xs.map fun x => weight x.toNat).sum := by
  induction xs with
  | nil => simp
  | cons x xs ih =>
    have hx : x.toNat ∈ Finset.range 16 := Finset.mem_range.mpr x.isLt
    simp only [List.countP_cons, beq_iff_eq, Nat.add_mul, Finset.sum_add_distrib, ih, ite_mul, Nat.one_mul, Nat.zero_mul,
      Finset.sum_ite_eq, if_pos hx, List.map_cons, List.sum_cons]
    exact Nat.add_comm _ _

/-- The sums of R92 and R97 over CNT are sums over the coded symbols. -/
theorem sum_cntAt_mul (len : Vector Nibble 512) (weight : Nat → Nat) :
    ∑ l ∈ Finset.range 16, cntAt (countTable len) l * weight l =
      (len.toList.map fun x => if x.toNat = 0 then 0 else weight x.toNat).sum := by
  rw [← sum_countP_mul fun l => if l = 0 then 0 else weight l]
  refine Finset.sum_congr rfl fun l hl => ?_
  rw [Finset.mem_range] at hl
  by_cases h₀ : l = 0
  · rw [h₀, cntAt_zero, if_pos rfl, Nat.zero_mul, Nat.mul_zero]
  · rw [if_neg h₀, cntAt_countTable (by omega) (by omega), countLength]

theorem kraftSum_eq_symbolKraft (len : Vector Nibble 512) : (kraftSum (countTable len)).toNat = symbolKraft len :=
  (kraftSum_toNat len).trans (sum_cntAt_mul len fun l => 2 ^ (15 - l))

theorem codedSymbols_eq_sum (len : Vector Nibble 512) :
    codedSymbols len = (len.toList.map fun x => if x.toNat = 0 then 0 else 1).sum := by
  rw [codedSymbols]
  induction len.toList with
  | nil => rfl
  | cons x xs ih =>
    rw [List.map_cons, List.sum_cons, ← ih, List.countP_cons, Nat.add_comm]
    by_cases hx : x.toNat = 0 <;> simp [hx]

theorem nonzeroCount_eq_codedSymbols (len : Vector Nibble 512) :
    (nonzeroCount (countTable len)).toNat = codedSymbols len := by
  have hsum : ((List.range' 1 15).map fun l => cntAt (countTable len) l).sum = codedSymbols len := by
    rw [codedSymbols_eq_sum, ← sum_cntAt_mul len fun _ => 1]
    simp [List.range', Finset.sum_range_succ, Nat.add_assoc]
  have hle : codedSymbols len ≤ 512 := List.countP_le_length.trans_eq len.length_toList
  rw [nonzeroCount, hsum, BitVec.toNat_ofNat, Nat.mod_eq_of_lt (by omega)]

/-- R93 in terms of the symbols. -/
theorem classify_countTable (len : Vector Nibble 512) :
    classify (nonzeroCount (countTable len)) (kraftSum (countTable len)) =
      if codedSymbols len = 0 then .invalid
      else if codedSymbols len = 1 then .degenerate
      else if symbolKraft len ≠ 32768 then .invalid
      else .complete := by
  simp only [classify, ← BitVec.toNat_inj, ne_eq, nonzeroCount_eq_codedSymbols, kraftSum_eq_symbolKraft]
  rfl

/-- Where one entry passes a test, it is the one that the search for the first finds. -/
theorem iff_eq_findIdx_of_countP_eq_one {α : Type} {q : α → Bool} {xs : List α} (h : xs.countP q = 1) {j : Nat}
    (hj : j < xs.length) : q xs[j] = true ↔ j = xs.findIdx q := by
  induction xs generalizing j with
  | nil => cases h
  | cons x xs ih =>
    rw [List.findIdx_cons]
    by_cases hx : q x = true
    · have hnone : ∀ y ∈ xs, ¬q y = true := List.countP_eq_zero.mp (by simpa [hx] using h)
      cases j with
      | zero => simp [hx]
      | succ j => simpa [hx] using hnone _ (List.getElem_mem (Nat.lt_of_succ_lt_succ hj))
    · have hone : xs.countP q = 1 := by simpa [hx] using h
      cases j with
      | zero => simp [hx]
      | succ j => simpa [hx] using ih hone (Nat.lt_of_succ_lt_succ hj)

/-- DSYM of a table with one coded symbol is that symbol, R94. -/
theorem lenAt_ne_zero_iff_eq_firstNonzero (h : codedSymbols len = 1) (sym : Sym) :
    lenAt len sym.toNat ≠ 0 ↔ sym = firstNonzero len := by
  have hsym : sym.toNat < len.toList.length := len.length_toList.symm ▸ sym.isLt
  have hexists : ∃ x ∈ len.toList, (x.toNat != 0) = true := List.countP_pos_iff.mp (Nat.lt_of_lt_of_eq one_pos h.symm)
  have hfound : len.toList.findIdx (fun x => x.toNat != 0) < 2 ^ 9 :=
    (List.findIdx_lt_length_of_exists hexists).trans_eq len.length_toList
  have hiff := iff_eq_findIdx_of_countP_eq_one h hsym
  rw [firstNonzero, ← BitVec.toNat_inj, BitVec.toNat_ofNat, Nat.mod_eq_of_lt hfound, ← hiff, lenAt_eq_getElem hsym,
    bne_iff_ne]

/-- R93 and R97: the table is complete. -/
theorem completeTable_of_symbols (htwo : 2 ≤ codedSymbols len) (hkraft : symbolKraft len = 32768) : CompleteTable len := by
  rw [CompleteTable, classify_countTable, if_neg (by omega), if_neg (by omega), if_neg (not_not.mpr hkraft)]

/-- BUILD by the symbols: CLASSIFY's cases, each with what it leaves. -/
theorem build_eq (s : State) : build s =
    if codedSymbols s.len = 0 then .raised .tableInvalid (count s)
    else if codedSymbols s.len = 1 then .ok () (setDegenerate (count s))
    else if symbolKraft s.len ≠ 32768 then .raised .tableInvalid (count s)
    else .ok () (setCodes (count s)) := by
  rw [build, count_nnz, count_kraft, classify_countTable]
  split_ifs <;> rfl

/-- Settles O34: each case of BUILD, with DSYM the one coded symbol or the tables built. -/
theorem buildJudgesTheTable : Obligations.BuildJudgesTheTable := by
  unfold Obligations.BuildJudgesTheTable
  intro s
  rw [build_eq]
  refine ⟨fun hnone => ?none, fun hone => ?one, fun htwo hkraft => ?incomplete, fun htwo hkraft => ?complete⟩
  case none =>
    exact ⟨count s, if_pos hnone, count_ipos s⟩
  case one =>
    refine ⟨setDegenerate (count s), by rw [if_neg (by omega), if_pos hone], setDegenerate_degen _, by simp,
      fun sym => ?_⟩
    rw [setDegenerate_dsym, count_len]
    exact lenAt_ne_zero_iff_eq_firstNonzero hone sym
  case incomplete =>
    exact ⟨count s, by rw [if_neg (by omega), if_neg (by omega), if_pos hkraft], count_ipos s⟩
  case complete =>
    exact ⟨setCodes (count s), by rw [if_neg (by omega), if_neg (by omega), if_neg (not_not.mpr hkraft)],
      setCodes_degen _, by simp, builtTable_setCodes_count (completeTable_of_symbols htwo hkraft)⟩

/-! ## DECODESYM, R103 and R104 -/

/-- Settles O39: with DEGEN set, SYM is all that is written. -/
theorem degenerateSymbolIsFree : Obligations.DegenerateSymbolIsFree := by
  unfold Obligations.DegenerateSymbolIsFree
  intro c s h
  rw [decodeSym, if_pos h]
  rfl

/-- The other case, R103: the codeword that begins the window is consumed. -/
theorem decodeSym_of_codeBegins {c : Config} {sym : Sym} (hdegen : s.degen = false) (h : BuiltTable s.toDatapath)
    (hp : CodeBegins s.toDatapath (window c s) sym) :
    decodeSym c s = (consume c (lenAt s.len sym.toNat) s).bind fun _ t => .ok sym (setSym sym t) := by
  simp [decodeSym, hdegen, h.lookup_eq hp]

/-- ACC after a CONSUME that completes, with the default parameters: R79, and R76 where a refill is due. -/
theorem exists_consume_std (h : CanConsume n s) : ∃ t, consume Config.std n s = .ok () t ∧ t.acc = consumedAcc n s := by
  obtain ⟨hn, -, hready⟩ := h
  by_cases hdue : refillDue n s
  · obtain ⟨hleft, hlo, hhi⟩ := hready hdue
    obtain ⟨lo, hlo⟩ := Option.isSome_iff_exists.mp hlo
    obtain ⟨hi, hhi⟩ := Option.isSome_iff_exists.mp hhi
    refine ⟨_, consume_of_bytes hdue hleft hlo hhi, ?_⟩
    rw [wordLoaded_acc, dropBits_bcnt_toNat, consumedAcc, if_pos hdue, nextWord, hlo, hhi]
    rfl
  · refine ⟨_, consume_of_not_due hdue, ?_⟩
    rw [dropBits_acc, consumedAcc, if_neg hdue, Nat.or_zero]
    rfl

/-- Settles O40: LOOKUP finds the symbol, and the rest is CONSUME's. -/
theorem symbolConsumesItsCodeword : Obligations.SymbolConsumesItsCodeword := by
  unfold Obligations.SymbolConsumesItsCodeword
  intro s sym hdegen h _ hp
  rw [decodeSym_of_codeBegins hdegen h hp]
  refine ⟨fun hcan => ?completes, fun hdue hleft => ?underflow⟩
  case completes =>
    obtain ⟨t, ht, hacc⟩ := exists_consume_std hcan
    obtain ⟨hbcnt, hipos⟩ := consume_counts ht
    refine ⟨setSym sym t, by rw [ht, Res.bind_ok], hbcnt, hipos, ?_⟩
    rw [← hacc]
    exact congrArg (setSym sym) (consume_moves ht)
  case underflow =>
    rw [consume_underflow hdue hleft, Res.bind_raised]
    exact faultTaken_outcome rfl rfl

end Sys2Proof.Machine
end

section
/-! PROOF. START, the dispatch of an engine step and the token step (42_token_engine.md R106, R108 to R111, R123): what
each is where its condition holds. -/

namespace Sys2Proof.Machine

variable {c : Config} {s t u : State} {ex : Instr → State → Host.Outcome State Fault Refusal}

/-! ## START -/

/-- A launch that meets its premises, R106 and R156. With the default OUT_CAP every DSIZE fits. -/
theorem exec_start_launches {value : Word32} (hbit : value.getLsbD 0 = true) (hbusy : s.status ≠ .busy)
    (hfilled : inputFilled s = true) : exec (.start value) s = .next (launch s) := by
  have hcap : s.dsize.toNat ≤ Config.std.outCap := Nat.le_sub_one_of_lt s.dsize.isLt
  rw [exec_eq_execIn]
  rcases execStartIn_cases Config.std value s with ⟨hclear | hb, -⟩ | ⟨-, -, ⟨hover, -⟩ | ⟨-, hunset, -⟩ | ⟨-, -, e⟩⟩
  · rw [hbit] at hclear; cases hclear
  · exact absurd hb hbusy
  · omega
  · rw [hfilled] at hunset; cases hunset
  · exact e

/-- A START that answers a next state had no effect, or launched a run. -/
theorem exec_start_next {value : Word32} (h : exec (.start value) s = .next t) : t = s ∨ t = launch s := by
  rw [exec_eq_execIn] at h
  rcases execStartIn_cases Config.std value s with ⟨-, e⟩ | ⟨-, -, ⟨-, e⟩ | ⟨-, -, e⟩ | ⟨-, -, e⟩⟩ <;>
    cases e.symm.trans h
  · exact .inl rfl
  · exact .inr rfl

/-- Settles O11: IN valid is what START checks, and the rest is what a launch writes. -/
theorem startLaunches : Obligations.StartLaunches := by
  unfold Obligations.StartLaunches
  refine fun value s hbit => ⟨fun hbusy hwf hvalid => ?_, fun hbusy => exec_start_ignored (.inr hbusy)⟩
  exact ⟨launch s, exec_start_launches hbit hbusy ((inputFilled_iff hwf).mpr hvalid), rfl, rfl, rfl, rfl, rfl, rfl,
    Mem.read_nil, rfl, rfl, rfl⟩

/-- Settles O13: START has no effect or launches. -/
theorem startFrame : Obligations.StartFrame := by
  unfold Obligations.StartFrame
  intro value s t h
  rcases exec_start_next h with rfl | rfl
  · exact ⟨rfl, rfl, rfl, rfl, rfl, .inl rfl⟩
  · exact ⟨rfl, rfl, rfl, rfl, rfl, .inr ⟨rfl, rfl, Mem.read_nil⟩⟩

/-! ## The dispatch, R108 -/

theorem step_of_engine (h : s.moves = []) : step s = engineStep Config.std exec s := by
  unfold step machineStep
  rw [h]

theorem engineStep_init (hbusy : s.status = .busy) (hphase : s.phase = .init) :
    engineStep c ex s = (init c s).outcome := by
  simp only [engineStep, hbusy, hphase]

/-- In the token phase: FINISH before a block switch, and a block switch before a token. -/
theorem engineStep_run (hbusy : s.status = .busy) (hphase : s.phase = .run) :
    engineStep c ex s =
      if s.opos = s.dsize then .next (finish s)
      else if blockDue c s then .next (switchBlock s) else tokenStep c ex s := by
  simp only [engineStep, hbusy, hphase]

/-- Below DSIZE, with no block switch due, the step is a token. -/
theorem engineStep_token (hbusy : s.status = .busy) (hphase : s.phase = .run) (hsize : s.opos ≠ s.dsize)
    (hblock : blockDue c s = false) : engineStep c ex s = tokenStep c ex s := by
  rw [engineStep_run hbusy hphase, if_neg hsize, hblock]
  rfl

theorem blockDue_of_none (h : c.blockLen = none) (s : State) : blockDue c s = false := by
  simp [blockDue, h]

theorem blockDue_of_some {n : Nat} (h : c.blockLen = some n) (s : State) :
    blockDue c s = decide (s.bend.toNat ≤ s.opos.toNat) := by
  simp [blockDue, h]

/-- Settles O43: FINISH comes first. -/
theorem dispatchFinishesFirst : Obligations.DispatchFinishesFirst := by
  unfold Obligations.DispatchFinishesFirst
  intro s hmoves hbusy hphase hsize
  rw [step_of_engine hmoves, engineStep_run hbusy hphase, if_pos hsize]
  rfl

/-- Settles O46: below DSIZE a block switch is due exactly where BLOCK_LEN is a number and OPOS has reached BEND. -/
theorem blockSwitch : Obligations.BlockSwitch := by
  unfold Obligations.BlockSwitch
  refine ⟨fun c n s hlen hmoves hbusy hphase hsize => ⟨fun hend => ?switch, fun hend => ?below⟩,
    fun c s hlen hmoves hbusy hphase hsize => ?none⟩
  case switch =>
    rw [stepIn_of_engine hmoves, engineStep_run hbusy hphase, if_neg hsize, blockDue_of_some hlen,
      if_pos (by simpa using hend)]
    rfl
  case below =>
    have hblock : blockDue c s = false := by simpa [blockDue_of_some hlen] using hend
    rw [stepIn_of_engine hmoves, engineStep_token hbusy hphase hsize hblock]
  case none =>
    rw [stepIn_of_engine hmoves, engineStep_token hbusy hphase hsize (blockDue_of_none hlen s)]

/-! ## The token step, R110 -/

theorem tokenStep_of_decoded {sym : Sym} {bytes : List Byte} {i : Instr} (hsym : decodeSym c s = .ok sym t)
    (hext : readExtension c sym t = .ok bytes u) (hi : decode c (.token sym bytes (window c t)) = .ok i) :
    tokenStep c ex s = ex i t := by
  simp only [tokenStep, hsym, hext, hi]

theorem tokenStep_of_symbol_raised {f : FaultCause} (hsym : decodeSym c s = .raised f t) :
    tokenStep c ex s = .next (enterFault f t) := by
  simp only [tokenStep, hsym]

theorem tokenStep_of_extension_raised {sym : Sym} {f : FaultCause} (hsym : decodeSym c s = .ok sym t)
    (hext : readExtension c sym t = .raised f u) : tokenStep c ex s = .next (enterFault f u) := by
  simp only [tokenStep, hsym, hext]

/-- DECODESYM raises only in its CONSUME's refill. -/
theorem decodeSym_raised {f : FaultCause} (h : decodeSym c s = .raised f t) : f = .refillEmpty := by
  rcases decodeSym_cases c s with ⟨-, e⟩ | ⟨-, -, e⟩ | ⟨-, sym, l, -, ⟨u, -, e⟩ | ⟨-, e⟩ | ⟨-, e⟩⟩ <;>
    cases e.symm.trans h
  rfl

theorem rdByte_raised {f : FaultCause} (h : rdByte s = .raised f t) : f = .extensionShort := by
  rcases rdByte_cases s with ⟨-, e⟩ | ⟨-, b, -, e⟩ | ⟨-, -, e⟩ <;> cases e.symm.trans h
  rfl

theorem rd16_raised {f : FaultCause} (h : rd16 s = .raised f t) : f = .extensionShort := by
  rcases rd16_cases s with ⟨-, e⟩ | ⟨-, lo, hi, -, -, e⟩ | ⟨-, -, e⟩ <;> cases e.symm.trans h
  rfl

/-- The look at the extension bytes raises where RDBYTE or RD16 does, R81 and R82. -/
theorem readExtension_raised {sym : Sym} {f : FaultCause} (h : readExtension c sym s = .raised f t) :
    f = .extensionShort := by
  unfold readExtension at h
  split at h
  · cases h
  · split at h
    · cases h
    · rcases Res.bind_eq_raised h with hbyte | ⟨b, u, -, h⟩
      · exact rdByte_raised hbyte
      · split at h
        · cases h
        · rcases Res.bind_eq_raised h with hvalue | ⟨v, u', -, h⟩
          · exact rd16_raised hvalue
          · cases h

/-- Settles O44: with the default BLOCK_LEN a step below DSIZE is a token step, and each of its two reads has one fault. -/
theorem stepRunsTheDecodedInstruction : Obligations.StepRunsTheDecodedInstruction := by
  unfold Obligations.StepRunsTheDecodedInstruction
  intro s hmoves hbusy hphase hsize
  have hstep : step s = tokenStep Config.std exec s := by
    rw [step_of_engine hmoves, engineStep_token hbusy hphase hsize (blockDue_of_none rfl s)]
  rw [hstep]
  exact ⟨fun s₁ s₂ sym bytes i hsym hext hi => tokenStep_of_decoded hsym hext hi,
    fun f s₁ hsym => ⟨decodeSym_raised hsym, tokenStep_of_symbol_raised hsym⟩,
    fun f s₁ s₂ sym hsym hext => ⟨readExtension_raised hext, tokenStep_of_extension_raised hsym hext⟩⟩

/-! ## LIT, R111 -/

/-- Settles O1: below DSIZE the write of OUT completes. -/
theorem litEmitsItsByte : Obligations.LitEmitsItsByte := by
  unfold Obligations.LitEmitsItsByte
  intro b s hroom
  rw [exec, execLit, execLitIn, (outWrite_of_room hroom).1]
  rfl

/-- LIT answers a next state only where there is room for its byte. -/
theorem exec_lit_next {b : Byte} (h : exec (.lit b) s = .next t) : s.opos.toNat < s.dsize.toNat ∧ t = emit b s := by
  rw [exec, execLit, execLitIn] at h
  by_cases hroom : s.opos.toNat < s.dsize.toNat
  · rw [(outWrite_of_room hroom).1] at h
    cases h
    exact ⟨hroom, rfl⟩
  · rw [outWrite, if_neg hroom] at h
    cases h

/-- Settles O2: a byte emitted at OPOS, below DSIZE. -/
theorem litFrame : Obligations.LitFrame := by
  unfold Obligations.LitFrame
  intro b s t h
  obtain ⟨hroom, rfl⟩ := exec_lit_next h
  have hpos : (emit b s).opos.toNat = s.opos.toNat + 1 := (outWrite_of_room (b := b) hroom).2
  exact ⟨rfl, rfl, rfl, rfl, rfl, rfl, rfl, rfl, rfl, rfl, rfl, hpos, hpos.trans_le hroom, Mem.read_write_same _ _ b,
    fun a ha => Mem.read_write_other _ b ha⟩

end Sys2Proof.Machine
end

section
/-! PROOF. The three match forms (42_token_engine.md R112 to R117, R137 to R140): each passes over its extension bytes and
then comes to the same end, points 5 to 8 of R110. That end is said once where the distance is legal, where it is not, and
for any ending; the statements take it with the length and the extension of each form. -/

namespace Sys2Proof.Machine

variable {c : Config} {s t u : State} {i : Instr} {dbits : Nibble} {extra : BitVec 15} {ext length n : Nat}
  {f : FaultCause}

/-! ## Points 5 to 8 of R110 where the distance bits can be consumed -/

/-- CONSUME, with the bits and the word it needs, leaves the reader as R79 and R80 say and all else alone. -/
theorem consume_std_of_canConsume (h : CanConsume n s) :
    ∃ bcnt ipos, consume Config.std n s = .ok () (readerMoved (consumedAcc n s) bcnt ipos s) ∧
      bcnt.toNat = s.bcnt.toNat - n + 8 * refillBytes n s ∧ ipos.toNat = s.ipos.toNat + refillBytes n s := by
  obtain ⟨t, e, hacc⟩ := exists_consume_std h
  obtain ⟨hbcnt, hipos⟩ := consume_counts e
  refine ⟨t.bcnt, t.ipos, ?_, hbcnt, hipos⟩
  rw [← hacc, ← consume_moves e, e]

/-- MDIST holds every distance, R119. -/
theorem setDistance_std_mdist_toNat (dbits : Nibble) (extra : BitVec 15) (s : State) :
    (setDistance (distance Config.std dbits extra) s).mdist.toNat = 2 ^ dbits.toNat + extra.toNat := by
  have hpow : 2 ^ dbits.toNat ≤ 2 ^ 15 := Nat.pow_le_pow_right (by decide) (nibble_le dbits)
  have hextra := extra.isLt
  rw [setDistance_mdist, BitVec.toNat_ofNat, distance_std, Nat.mod_eq_of_lt (by omega)]

theorem checkAndCopy_std_of_far (h : s.opos.toNat < 2 ^ dbits.toNat + extra.toNat) :
    checkAndCopy Config.std dbits extra s = .raised .badDistance (setDistance (distance Config.std dbits extra) s) := by
  rw [checkAndCopy, setDistance_std_mdist_toNat, if_pos h]

theorem checkAndCopy_std_of_near (h : 2 ^ dbits.toNat + extra.toNat ≤ s.opos.toNat) :
    checkAndCopy Config.std dbits extra s = copy (setDistance (distance Config.std dbits extra) s) := by
  rw [checkAndCopy, setDistance_std_mdist_toNat, if_neg (Nat.not_lt.mpr h)]

/-- `copyLoop_spec` for a count clipped at DSIZE, which is 0 where OPOS is not below DSIZE. -/
theorem copyLoop_clipped (hfill : OutputReady s) (hpos : 1 ≤ s.mdist.toNat) (hdist : s.mdist.toNat ≤ s.opos.toNat)
    (hn : n ≤ s.dsize.toNat - s.opos.toNat) :
    ∃ out : Mem, copyLoop n s = .ok () (copied out n s) ∧
      (∀ i : Nat, i < n →
        out.read (s.opos.toNat + i) = s.output.read (s.opos.toNat - s.mdist.toNat + i % s.mdist.toNat)) ∧
      ∀ a : Nat, a < s.opos.toNat ∨ s.opos.toNat + n ≤ a → out.read a = s.output.read a := by
  cases n with
  | zero => exact ⟨s.output, by rw [copied_zero]; rfl, fun _ hi => absurd hi (Nat.not_lt_zero _), fun _ _ => rfl⟩
  | succ n =>
    obtain ⟨out, e, hcopied, hkept, -⟩ := copyLoop_spec (n + 1) s hfill hpos hdist (by omega)
    exact ⟨out, e, hcopied, hkept⟩

theorem copied_opos_toNat (out : Mem) (hn : n ≤ s.dsize.toNat - s.opos.toNat) :
    (copied out n s).opos.toNat = s.opos.toNat + n := by
  have hdsize := s.dsize.isLt
  have hopos := s.opos.isLt
  rw [copied_opos, BitVec.toNat_add, BitVec.toNat_ofNat]
  omega

/-- COPY at a legal distance: its bytes repeat those before OPOS, and no other byte changes. -/
theorem checkAndCopy_std_copies (hfill : OutputReady s) (hdist : 2 ^ dbits.toNat + extra.toNat ≤ s.opos.toNat) :
    ∃ out : Mem, checkAndCopy Config.std dbits extra s =
        .ok () (copied out (copyCount s) (setRemaining (copyCount s) (setDistance (distance Config.std dbits extra) s))) ∧
      (∀ i : Nat, i < copyCount s → out.read (s.opos.toNat + i) =
        s.output.read (s.opos.toNat - (2 ^ dbits.toNat + extra.toNat) + i % (2 ^ dbits.toNat + extra.toNat))) ∧
      ∀ a : Nat, a < s.opos.toNat ∨ s.opos.toNat + copyCount s ≤ a → out.read a = s.output.read a := by
  have hmdist := setDistance_std_mdist_toNat dbits extra s
  have hpos := Nat.two_pow_pos dbits.toNat
  obtain ⟨out, e, hcopied, hkept⟩ := copyLoop_clipped (n := copyCount s)
    (s := setRemaining (copyCount s) (setDistance (distance Config.std dbits extra) s)) hfill
    (by rw [setRemaining_mdist, hmdist]; omega) (hmdist.trans_le hdist) (Nat.min_le_right _ _)
  rw [setRemaining_mdist, hmdist] at hcopied
  exact ⟨out, (checkAndCopy_std_of_near hdist).trans e, hcopied, hkept⟩

/-! ## The end of a match, after its extension bytes -/

/-- A match's copy is clipped by its length. -/
theorem copyCount_setLength (hlength : length < 2 ^ 17) (acc : Nat) (bcnt : BitVec 6) (ipos : Word32) (s : State) :
    copyCount (readerMoved acc bcnt ipos (setLength length s)) = min length (s.dsize.toNat - s.opos.toNat) := by
  simp only [copyCount, readerMoved_mlen, setLength_mlen, BitVec.toNat_ofNat, Nat.mod_eq_of_lt hlength, readerMoved_dsize,
    setLength_dsize, readerMoved_opos, setLength_opos]

/-- The registers that a match writes, R112 to R116, are none of its frame. -/
theorem tokenFrame_copied (out : Mem) (n m d acc : Nat) (bcnt : BitVec 6) (ipos : Word32) (s : State) :
    TokenFrame s (copied out n (setRemaining m (setDistance d (readerMoved acc bcnt ipos (setLength length s))))) :=
  ⟨rfl, rfl, rfl, rfl, rfl, rfl, rfl, rfl, rfl, rfl, rfl, rfl, rfl, rfl, rfl, rfl, rfl, rfl, rfl, rfl⟩

/-- With a legal distance the match is done. -/
theorem finishMatch_done (hlength : length < 2 ^ 17) (hext : (advance ext s).ipos.toNat = s.ipos.toNat + ext)
    (hcan : CanConsume dbits.toNat (advance ext s)) (hfill : OutputReady s)
    (hdist : 2 ^ dbits.toNat + extra.toNat ≤ s.opos.toNat) :
    ∃ t, (finishMatch Config.std dbits extra (setLength length (advance ext s))).outcome = .next t ∧
      MatchDone length (2 ^ dbits.toNat + extra.toNat) dbits.toNat ext s t := by
  obtain ⟨bcnt, ipos, e, hbcnt, hipos⟩ := consume_std_of_canConsume (s := setLength length (advance ext s)) hcan
  obtain ⟨out, e', hcopied, hkept⟩ := checkAndCopy_std_copies
    (s := readerMoved (consumedAcc dbits.toNat (advance ext s)) bcnt ipos (setLength length s)) hfill hdist
  rw [copyCount_setLength hlength] at e' hcopied hkept
  refine ⟨_, by rw [finishMatch, e, Res.bind_ok]; exact congrArg Res.outcome e', ?_⟩
  exact {
    opos := copied_opos_toNat out (Nat.min_le_right _ _)
    copied := hcopied
    kept := hkept
    bcnt := hbcnt
    ipos := hipos.trans (congrArg (· + refillBytes dbits.toNat s) hext)
    acc := rfl
    mlen := (BitVec.toNat_ofNat length 17).trans (Nat.mod_eq_of_lt hlength)
    mdist := setDistance_std_mdist_toNat dbits extra s
    mrem := congrArg BitVec.toNat (BitVec.sub_self _)
    frame := tokenFrame_copied out _ _ _ _ bcnt ipos s }

/-- With a distance that reaches before the output it is FormatError(2), once the distance bits are consumed. -/
theorem finishMatch_badDistance (hext : (advance ext s).ipos.toNat = s.ipos.toNat + ext)
    (hcan : CanConsume dbits.toNat (advance ext s)) (hfar : s.opos.toNat < 2 ^ dbits.toNat + extra.toNat) :
    ∃ t, (finishMatch Config.std dbits extra (setLength length (advance ext s))).outcome = .next t ∧
      FaultTaken .badDistance (s.ipos.toNat + ext + refillBytes dbits.toNat s) s t := by
  obtain ⟨bcnt, ipos, e, -, hipos⟩ := consume_std_of_canConsume (s := setLength length (advance ext s)) hcan
  rw [finishMatch, e, Res.bind_ok]
  exact faultTaken_outcome (checkAndCopy_std_of_far hfar) (hipos.trans (congrArg (· + refillBytes dbits.toNat s) hext))

/-! ## The forms up to that end -/

theorem exec_matchM (dbits lnib : Nibble) (extra : BitVec 15) (s : State) :
    exec (.matchM dbits lnib extra) s =
      (finishMatch Config.std dbits extra (setLength (shortLength Config.std lnib) (advance 0 s))).outcome := by
  rw [advance_zero]
  rfl

/-- The reads of MATCHX16, R114. -/
theorem exists_rdByte_rd16 (hleft : s.ipos.toNat + 3 ≤ s.inLen.toNat)
    (hsome : ∀ k : Nat, k < 3 → (s.input.read (s.ipos.toNat + k)).isSome = true) :
    ∃ b w, rdByte s = .ok b (advance 1 s) ∧ rd16 (advance 1 s) = .ok w (advance 3 s) := by
  have hpos : (advance 1 s).ipos.toNat = s.ipos.toNat + 1 := advance_ipos_toNat (by omega)
  obtain ⟨b, hb⟩ := exists_rdByte (by omega) (hsome 0 (by decide))
  obtain ⟨w, hw⟩ := exists_rd16 (s := advance 1 s) (by rw [hpos, advance_inLen]; omega)
    (by rw [hpos]; exact hsome 1 (by decide)) (by rw [hpos]; exact hsome 2 (by decide))
  exact ⟨b, w, hb, by rw [hw, advance_advance]⟩

/-- A value below 15 is raised before the distance bits, R114 and R140. -/
theorem exec_matchX16_bad_value {v : Word16} (hleft : s.ipos.toNat + 3 ≤ s.inLen.toNat)
    (hsome : ∀ k : Nat, k < 3 → (s.input.read (s.ipos.toNat + k)).isSome = true) (hv : v.toNat < 15) :
    exec (.matchX16 dbits v extra) s = (Res.raised .badExtension (advance 3 s) : Res Unit).outcome := by
  obtain ⟨b, w, hb, hw⟩ := exists_rdByte_rd16 hleft hsome
  rw [exec, execMatchX16, execMatchX16In, hb, Res.bind_ok, hw, Res.bind_ok, minExtension, if_pos hv]

/-- Settles O3: no extension byte, and the end of a match. -/
theorem matchCopies : Obligations.MatchCopies := by
  unfold Obligations.MatchCopies
  intro dbits lnib extra s hcan hfill hdist
  rw [exec_matchM]
  exact finishMatch_done (matchLength_lt (.matchM dbits lnib extra)) (by simp) (by rwa [advance_zero]) hfill hdist

/-- Settles O4: RDBYTE, and the end of a match. -/
theorem matchX8Copies : Obligations.MatchX8Copies := by
  unfold Obligations.MatchX8Copies
  intro dbits b extra s hleft hsome hcan hfill hdist
  rw [exec_matchX8_of_byte hleft hsome]
  exact finishMatch_done (matchLength_lt (.matchX8 dbits b extra)) (advance_ipos_toNat hleft) hcan hfill hdist

/-- Settles O5: RDBYTE and RD16, and the end of a match. -/
theorem matchX16Copies : Obligations.MatchX16Copies := by
  unfold Obligations.MatchX16Copies
  intro dbits v extra s hleft hsome hv hcan hfill hdist
  rw [exec_matchX16_of_bytes hleft hsome hv]
  exact finishMatch_done (matchLength_lt (.matchX16 dbits v extra)) (advance_ipos_toNat hleft) hcan hfill hdist

/-- Settles O7: each form comes to its distance bits, which are consumed before the distance is checked. -/
theorem badDistanceFaults : Obligations.BadDistanceFaults := by
  unfold Obligations.BadDistanceFaults
  intro dbits lnib b v extra s hfar
  refine ⟨fun hcan => ?matchM, fun hleft hsome hcan => ?matchX8, fun hleft hsome hv hcan => ?matchX16⟩
  case matchM =>
    rw [exec_matchM]
    exact finishMatch_badDistance (ext := 0) (by simp) (by rwa [advance_zero]) hfar
  case matchX8 =>
    rw [exec_matchX8_of_byte hleft hsome]
    exact finishMatch_badDistance (advance_ipos_toNat hleft) hcan hfar
  case matchX16 =>
    rw [exec_matchX16_of_bytes hleft hsome hv]
    exact finishMatch_badDistance (advance_ipos_toNat hleft) hcan hfar

/-- Settles O10: the three bytes are read, and the value is looked at. -/
theorem badExtensionFaults : Obligations.BadExtensionFaults := by
  unfold Obligations.BadExtensionFaults
  intro dbits v extra s hv hleft hsome
  rw [exec_matchX16_bad_value hleft hsome hv]
  exact faultTaken_outcome rfl (advance_ipos_toNat hleft)

/-! ## Every ending of a match -/

/-- Fault entry after an operation that has moved the datapath and IPOS alone, R137 to R139. -/
theorem DatapathMoved.faultTaken (h : DatapathMoved s u) (f : FaultCause) : FaultTaken f u.ipos.toNat s (enterFault f u) := by
  rw [h]
  exact ⟨rfl, rfl, rfl, rfl, rfl, rfl, rfl, rfl, rfl, rfl, rfl⟩

/-- From any state: when the end of a match completes, the reader has moved and a copy was made. -/
theorem finishMatch_ok (h : finishMatch c dbits extra s = .ok () t) :
    ∃ acc bcnt ipos out,
      t = copied out (copyCount s) (setRemaining (copyCount s)
        (setDistance (distance c dbits extra) (readerMoved acc bcnt ipos s))) ∧
      ∀ a : Nat, a < s.opos.toNat ∨ s.opos.toNat + copyCount s ≤ a → out.read a = s.output.read a := by
  obtain ⟨_, u, hconsume, hcopy⟩ := Res.bind_eq_ok h
  have hu := consume_moves hconsume
  obtain ⟨-, out, ht, hkept, -⟩ := checkAndCopy_ok hcopy
  rw [hu] at ht hkept
  exact ⟨u.acc, u.bcnt, u.ipos, out, ht, hkept⟩

/-- When it raises, in its CONSUME or at the distance check, nothing outside the datapath has moved. -/
theorem finishMatch_raised (h : finishMatch c dbits extra s = .raised f t) : DatapathMoved s t := by
  rcases Res.bind_eq_raised h with hconsume | ⟨_, u, hconsume, hcheck⟩
  · obtain ⟨-, rfl, -⟩ := consume_raised hconsume
    rfl
  · obtain ⟨-, rfl, -⟩ := checkAndCopy_raised hcheck
    rw [consume_moves hconsume]
    rfl

/-- A match form comes to the end that the forms share, or stops at its extension. -/
theorem exec_match_cases (hi : isMatchForm i = true) (s : State) :
    (∃ dbits extra ext, exec i s =
      (finishMatch Config.std dbits extra (setLength (matchLength i) (advance ext s))).outcome) ∨
    (∃ f ext, exec i s = .next (enterFault f (advance ext s))) ∨
    ∃ r, exec i s = .refused r := by
  cases i with
  | lit b => cases hi
  | start value => cases hi
  | matchM dbits lnib extra => exact .inl ⟨dbits, extra, 0, exec_matchM dbits lnib extra s⟩
  | matchX8 dbits b extra =>
    rw [exec, execMatchX8, execMatchX8In]
    rcases rdByte_cases s with ⟨-, e⟩ | ⟨-, b', -, e⟩ | ⟨-, -, e⟩ <;> rw [e]
    · exact .inr (.inl ⟨.extensionShort, 0, by rw [advance_zero]; rfl⟩)
    · exact .inl ⟨dbits, extra, 1, rfl⟩
    · exact .inr (.inr ⟨_, rfl⟩)
  | matchX16 dbits v extra =>
    rw [exec, execMatchX16, execMatchX16In]
    rcases rdByte_cases s with ⟨-, e⟩ | ⟨-, b', -, e⟩ | ⟨-, -, e⟩ <;> rw [e]
    · exact .inr (.inl ⟨.extensionShort, 0, by rw [advance_zero]; rfl⟩)
    · rw [Res.bind_ok]
      rcases rd16_cases (advance 1 s) with ⟨-, e'⟩ | ⟨-, lo, hi', -, -, e'⟩ | ⟨-, -, e'⟩ <;> rw [e']
      · exact .inr (.inl ⟨.extensionShort, 1, rfl⟩)
      · rw [Res.bind_ok, advance_advance]
        split
        · exact .inr (.inl ⟨.badExtension, 3, rfl⟩)
        · exact .inl ⟨dbits, extra, 3, rfl⟩
      · exact .inr (.inr ⟨_, rfl⟩)
    · exact .inr (.inr ⟨_, rfl⟩)

/-- A match that answers a next state has made its copy and nothing else, or has been stopped by a fault. -/
theorem exec_match_next (hi : isMatchForm i = true) (h : exec i s = .next t) :
    (TokenFrame s t ∧
      ∀ a : Nat, a < s.opos.toNat ∨ s.opos.toNat + min (matchLength i) (s.dsize.toNat - s.opos.toNat) ≤ a →
        t.output.read a = s.output.read a) ∨
    ∃ f, FaultTaken f t.ipos.toNat s t := by
  rcases exec_match_cases hi s with ⟨dbits, extra, ext, e⟩ | ⟨f, ext, e⟩ | ⟨r, e⟩ <;> rw [e] at h
  · rcases Res.outcome_eq_next h with ⟨_, hok⟩ | ⟨f, u, hraised, rfl⟩
    · obtain ⟨acc, bcnt, ipos, out, rfl, hkept⟩ := finishMatch_ok hok
      have hcount := copyCount_setLength (matchLength_lt i) s.acc s.bcnt (advance ext s).ipos s
      rw [← hcount]
      exact .inl ⟨tokenFrame_copied out _ _ _ acc bcnt ipos s, hkept⟩
    · have hmoved : DatapathMoved s u := finishMatch_raised (s := setLength (matchLength i) (advance ext s)) hraised
      exact .inr ⟨f, hmoved.faultTaken f⟩
  · cases h
    have hmoved : DatapathMoved s (advance ext s) := rfl
    exact .inr ⟨f, hmoved.faultTaken f⟩
  · cases h

/-- Settles O6: the frame of a copy made, or that of a fault taken. -/
theorem matchFrame : Obligations.MatchFrame := by
  unfold Obligations.MatchFrame
  intro i s t hi h
  rcases exec_match_next hi h with ⟨hframe, hkept⟩ | ⟨f, hfault⟩
  · exact ⟨hframe.dsize, hframe.inLen, hframe.input, hframe.moves, hframe.readData, hkept, .inl hframe⟩
  · exact ⟨hfault.dsize, hfault.inLen, hfault.input, hfault.moves, hfault.readData, fun a _ => by rw [hfault.output],
      .inr ⟨f, hfault⟩⟩

end Sys2Proof.Machine
end

section
/-! PROOF. INIT (42_token_engine.md R107, R140): LOADTABLE, BUILD and PRIME each move the datapath and IPOS alone, so the
first of them that raises is the fault taken; where all complete, ACC holds the first words of the stream in order. -/

namespace Sys2Proof.Machine

variable {c : Config} {s t u : State} {α : Type} {f : FaultCause} {n pos : Nat}

/-! ## What INIT's operations leave -/

theorem DatapathMoved.trans (h : DatapathMoved s t) (h' : DatapathMoved t u) : DatapathMoved s u := by
  rw [DatapathMoved] at h h' ⊢
  rw [h', h]

theorem DatapathMoved.inLen_eq (h : DatapathMoved s t) : t.inLen = s.inLen := by rw [h]

theorem DatapathMoved.input_eq (h : DatapathMoved s t) : t.input = s.input := by rw [h]

theorem DatapathMoved.inputValid (h : DatapathMoved s t) (hvalid : InputValid s) : InputValid t := by
  unfold InputValid at *
  rwa [h.inLen_eq, h.input_eq]

/-- The fault of an operation that has moved the datapath and IPOS alone. -/
theorem DatapathMoved.faultTaken_outcome {r : Res α} (h : DatapathMoved s u) (hr : r = .raised f u)
    (hpos : u.ipos.toNat = pos) : ∃ t, r.outcome = .next t ∧ FaultTaken f pos s t :=
  ⟨enterFault f u, by rw [hr, Res.outcome_raised], hpos ▸ h.faultTaken f⟩

theorem loadTable_short (h : s.inLen.toNat < s.ipos.toNat + 256) : loadTable c s = .raised .tableShort s := by
  rcases loadTable_cases c s with ⟨-, e⟩ | ⟨hleft, -⟩ | ⟨hleft, -⟩
  · exact e
  · omega
  · omega

/-- LOADTABLE, when it completes, has passed over the table, R90. -/
theorem loadTable_ok (h : loadTable c s = .ok () t) :
    DatapathMoved s t ∧ t.ipos = (advance 256 s).ipos ∧ s.ipos.toNat + 256 ≤ s.inLen.toNat := by
  rcases loadTable_cases c s with ⟨-, e⟩ | ⟨hleft, bytes, -, -, e⟩ | ⟨-, e⟩ <;> cases e.symm.trans h
  exact ⟨rfl, rfl, hleft⟩

/-- BUILD does not move IPOS, whether it accepts the table or not. -/
theorem build_ok (h : build s = .ok () t) : DatapathMoved s t ∧ t.ipos = s.ipos := by
  rcases build_cases s with ⟨-, e⟩ | ⟨-, e⟩ | ⟨-, e⟩ <;> cases e.symm.trans h
  · exact ⟨datapathMoved_setDegenerate_count s, by simp⟩
  · exact ⟨datapathMoved_setCodes_count s, by simp⟩

theorem build_raised (h : build s = .raised f t) : DatapathMoved s t ∧ t.ipos = s.ipos := by
  rcases build_cases s with ⟨-, e⟩ | ⟨-, e⟩ | ⟨-, e⟩ <;> cases e.symm.trans h
  exact ⟨by simp only [DatapathMoved, count], count_ipos s⟩

/-- The table passed over and accepted: the reader stands behind it. -/
theorem tableRead (hload : loadTable c s = .ok () t) (hbuild : build t = .ok () u) :
    DatapathMoved s u ∧ u.ipos = (advance 256 s).ipos ∧ u.ipos.toNat = s.ipos.toNat + 256 := by
  obtain ⟨hmoved, hipos, hleft⟩ := loadTable_ok hload
  obtain ⟨hmoved', hipos'⟩ := build_ok hbuild
  have hpos := hipos'.trans hipos
  exact ⟨hmoved.trans hmoved', hpos, hpos ▸ advance_ipos_toNat hleft⟩

/-- Settles O41: each of the three raises in its turn, at its own position. -/
theorem initFaultOrder : Obligations.InitFaultOrder := by
  unfold Obligations.InitFaultOrder
  intro s hmoves hbusy hphase hle _
  rw [step_of_engine hmoves, engineStep_init hbusy hphase]
  refine ⟨fun hshort => ?tableShort, fun t₁ t₂ hload hbuild => ?tableInvalid, fun t₁ t₂ hload hbuild hshort => ?primeShort⟩
  case tableShort =>
    exact faultTaken_outcome (by rw [init, loadTable_short hshort, Res.bind_raised]) rfl
  case tableInvalid =>
    obtain ⟨hmoved, hipos, hleft⟩ := loadTable_ok hload
    obtain ⟨hmoved', hipos'⟩ := build_raised hbuild
    refine (hmoved.trans hmoved').faultTaken_outcome (by rw [init, hload, Res.bind_ok, hbuild, Res.bind_raised]) ?_
    rw [hipos', hipos, advance_ipos_toNat hleft]
  case primeShort =>
    obtain ⟨-, -, hleft⟩ := loadTable_ok hload
    obtain ⟨hmoved, -, hpos⟩ := tableRead hload hbuild
    have hinLen := congrArg BitVec.toNat hmoved.inLen_eq
    have hwords : Config.std.primeWords = 2 := rfl
    rcases prime_cases Config.std t₂ with ⟨-, e⟩ | ⟨hprime, -⟩ | ⟨hprime, -⟩
    · have hmoved' : DatapathMoved t₂ (advance (2 * ((t₂.inLen.toNat - t₂.ipos.toNat) / 2)) t₂) := rfl
      refine (hmoved.trans hmoved').faultTaken_outcome
        (by rw [init, hload, Res.bind_ok, hbuild, Res.bind_ok, e, Res.bind_raised]) ?_
      rw [advance_ipos_toNat (by omega), hpos, hinLen]
      split <;> omega
    · omega
    · omega

/-! ## The first words of a block, R76 and R77 -/

/-- The word at IPOS depends on IPOS and IN alone. -/
theorem nextWord_congr (hipos : t.ipos = s.ipos) (hinput : t.input = s.input) : nextWord t = nextWord s := by
  rw [nextWord, nextWord, hipos, hinput]

/-- Behind the buffered bits there are zeros, so that a word placed there is a word added. -/
theorem Buffered.acc_wordLoaded (h : Buffered c s) (w : Word16) (hroom : s.bcnt.toNat + 16 ≤ c.accw) :
    ∃ front, s.acc = front * 2 ^ 16 * 2 ^ (c.accw - (s.bcnt.toNat + 16)) ∧
      (Machine.wordLoaded c w s).acc = (front * 2 ^ 16 + (orderBits c w).toNat) * 2 ^ (c.accw - (s.bcnt.toNat + 16)) := by
  have hplace : c.accw - 16 - s.bcnt.toNat = c.accw - (s.bcnt.toNat + 16) := by omega
  obtain ⟨front, hfront⟩ := Nat.dvd_of_mod_eq_zero h.lowZero
  have hacc : s.acc = (front <<< 16) <<< (c.accw - (s.bcnt.toNat + 16)) := by
    rw [hfront, ← Nat.shiftLeft_add, Nat.shiftLeft_eq, Nat.mul_comm]
    congr 2
    omega
  refine ⟨front, by rw [hacc, Nat.shiftLeft_eq, Nat.shiftLeft_eq], ?_⟩
  rw [wordLoaded_acc, placeWord, hplace, hacc, ← Nat.shiftLeft_or_distrib,
    ← Nat.shiftLeft_add_eq_or_of_lt (orderBits c w).isLt, Nat.shiftLeft_eq, Nat.shiftLeft_eq]

theorem exists_loadWords (hvalid : InputValid s) (hleft : s.ipos.toNat + 2 * n ≤ s.inLen.toNat) :
    ∃ t, loadWords c n s = .ok () t := by
  induction n generalizing s with
  | zero => exact ⟨s, rfl⟩
  | succ n ih =>
    obtain ⟨lo, hlo⟩ := Option.isSome_iff_exists.mp (hvalid s.ipos.toNat (by omega))
    obtain ⟨hi, hhi⟩ := Option.isSome_iff_exists.mp (hvalid (s.ipos.toNat + 1) (by omega))
    have hpos : (wordLoaded c (wordOfBytes lo hi) s).ipos.toNat = s.ipos.toNat + 2 :=
      advance_ipos_toNat (n := 2) (by omega)
    obtain ⟨t, ht⟩ := ih (s := wordLoaded c (wordOfBytes lo hi) s) hvalid (by rw [hpos, wordLoaded_inLen]; omega)
    exact ⟨t, by rw [loadWords, loadWord_of_bytes hlo hhi, Res.bind_ok, ht]⟩

/-- Words loaded stand in ACC in their order, behind the bits that were buffered. -/
theorem loadWords_acc (h : Buffered c s) (hroom : s.bcnt.toNat + 16 * n ≤ c.accw)
    (hcount : s.bcnt.toNat + 16 * n < 2 ^ 6) (ht : loadWords c n s = .ok () t) :
    t.acc / 2 ^ (c.accw - s.bcnt.toNat) = s.acc / 2 ^ (c.accw - s.bcnt.toNat) ∧
      ∀ k : Nat, k < n → t.acc / 2 ^ (c.accw - (s.bcnt.toNat + 16 * (k + 1))) % 2 ^ 16 =
        (orderBits c (nextWord (advance (2 * k) s))).toNat := by
  induction n generalizing s with
  | zero =>
    cases ht
    exact ⟨rfl, fun k hk => absurd hk (Nat.not_lt_zero k)⟩
  | succ n ih =>
    rcases loadWord_cases c s with ⟨lo, hi, hlo, hhi, e⟩ | ⟨-, e⟩ <;> rw [loadWords, e] at ht
    · have hnext : wordOfBytes lo hi = nextWord s := by rw [nextWord, hlo, hhi]; rfl
      have hb := wordLoaded_bcnt_toNat c (wordOfBytes lo hi) (s := s) (by omega)
      obtain ⟨front, hacc, hloaded⟩ := h.acc_wordLoaded (wordOfBytes lo hi) (by omega)
      obtain ⟨hfrontEq, hwords⟩ := ih (h.wordLoaded (by omega) (by omega)) (by omega) (by omega) ht
      rw [hb, hloaded, Nat.mul_div_cancel _ (Nat.two_pow_pos _)] at hfrontEq
      rw [hb] at hwords
      have hword := (orderBits c (wordOfBytes lo hi)).isLt
      refine ⟨?_, fun k hk => ?_⟩
      · rw [show c.accw - s.bcnt.toNat = c.accw - (s.bcnt.toNat + 16) + 16 by omega, pow_add,
          ← Nat.div_div_eq_div_mul, ← Nat.div_div_eq_div_mul, hfrontEq, hacc, Nat.mul_div_cancel _ (Nat.two_pow_pos _)]
        omega
      · cases k with
        | zero =>
          rw [Nat.zero_add, Nat.mul_one, hfrontEq, Nat.mul_zero, advance_zero, ← hnext]
          omega
        | succ k =>
          rw [show s.bcnt.toNat + 16 * (k + 1 + 1) = s.bcnt.toNat + 16 + 16 * (k + 1) by omega, hwords k (by omega),
            show 2 * (k + 1) = 2 + 2 * k by omega, ← advance_advance]
          rfl
    · cases ht

/-- PRIME completes where its words are there, and ACC holds them in their order. -/
theorem prime_completes (hc : ReaderFits c) (hvalid : InputValid s)
    (hleft : s.ipos.toNat + 2 * c.primeWords ≤ s.inLen.toNat) :
    ∃ acc, prime c s = .ok () (readerMoved acc (BitVec.ofNat 6 (16 * c.primeWords))
        (s.ipos + BitVec.ofNat 32 (2 * c.primeWords)) s) ∧
      ∀ k : Nat, k < c.primeWords → acc / 2 ^ (c.accw - 16 * (k + 1)) % 2 ^ 16 =
        (orderBits c (nextWord (advance (2 * k) s))).toNat := by
  obtain ⟨-, -, hroom, hcount⟩ := hc
  have hclear : (clearAcc s).bcnt.toNat = 0 := rfl
  obtain ⟨t, ht⟩ := exists_loadWords (c := c) (s := clearAcc s) hvalid hleft
  have hprime : prime c s = .ok () t := by rw [prime, if_pos ((inputLeft_iff _ _).mpr hleft), ht]
  obtain ⟨-, hwords⟩ := loadWords_acc (buffered_clearAcc c s) (by rw [hclear]; omega) (by rw [hclear]; omega) ht
  simp only [hclear, Nat.zero_add] at hwords
  rcases prime_cases c s with ⟨hshort, -⟩ | ⟨-, acc, e⟩ | ⟨-, e⟩
  · omega
  · cases hprime.symm.trans e
    exact ⟨acc, e, hwords⟩
  · cases hprime.symm.trans e

/-- The last two lines of INIT, R107: PHASE, and BEND where BLOCK_LEN is a number. -/
theorem exists_beginBlock (c : Config) (s : State) :
    ∃ bend, beginBlock c s = { s with phase := .run, bend := bend } ∧
      ∀ n : Nat, c.blockLen = some n → bend = BitVec.ofNat 33 (s.opos.toNat + n) := by
  unfold beginBlock
  split
  case h_1 hnone => exact ⟨s.bend, rfl, fun n hn => by rw [hnone] at hn; cases hn⟩
  case h_2 m hsome =>
    refine ⟨_, rfl, fun n hn => ?_⟩
    rw [hsome] at hn
    cases hn
    rfl

/-- INIT from its three operations. -/
theorem init_ok {t₁ t₂ : State} (hload : loadTable c s = .ok () t₁) (hbuild : build t₁ = .ok () t₂)
    (hprime : prime c t₂ = .ok () u) : init c s = .ok () (beginBlock c u) := by
  rw [init, hload, Res.bind_ok, hbuild, Res.bind_ok, hprime, Res.bind_ok]

/-- Settles O42: LOADTABLE and BUILD as given, PRIME with its words there, and the block begun. -/
theorem initCompletes : Obligations.InitCompletes := by
  unfold Obligations.InitCompletes
  intro c s t₁ t₂ hc hmoves hbusy hphase hvalid hleft hload hbuild
  have hfits := readerFits_of_valid hc
  have hcount : 16 * c.primeWords < 2 ^ 6 := hfits.2.2.2
  obtain ⟨hmoved, hipos, hpos⟩ := tableRead hload hbuild
  obtain ⟨hstatus, hinterface⟩ : t₂.status = s.status ∧ t₂.opos = s.opos ∧ t₂.output = s.output ∧ t₂.input = s.input ∧
      t₂.dsize = s.dsize ∧ t₂.inLen = s.inLen ∧ t₂.errcode = s.errcode ∧ t₂.errsub = s.errsub := by
    rw [hmoved]
    exact ⟨rfl, rfl, rfl, rfl, rfl, rfl, rfl, rfl⟩
  have hwordsLeft : t₂.ipos.toNat + 2 * c.primeWords ≤ t₂.inLen.toNat := by rwa [hpos, hmoved.inLen_eq]
  obtain ⟨acc, hprime, hwords⟩ := prime_completes hfits (hmoved.inputValid hvalid) hwordsLeft
  obtain ⟨bend, hbegin, hbend⟩ := exists_beginBlock c (readerMoved acc (BitVec.ofNat 6 (16 * c.primeWords))
    (t₂.ipos + BitVec.ofNat 32 (2 * c.primeWords)) t₂)
  have hbcnt : (BitVec.ofNat 6 (16 * c.primeWords)).toNat = 16 * c.primeWords := by
    rw [BitVec.toNat_ofNat, Nat.mod_eq_of_lt hcount]
  have hreader := readerInv_iff.mpr ⟨by rw [readerMoved_bcnt, hbcnt]; omega, prime_buffered hfits hprime⟩
  have hstep : stepIn c s = (init c s).outcome := (stepIn_of_engine hmoves).trans (engineStep_init hbusy hphase)
  rw [init_ok hload hbuild hprime, hbegin, Res.outcome_ok] at hstep
  refine ⟨_, hstep, rfl, hstatus.trans hbusy, ?position, hbcnt, hreader.congr rfl rfl, fun k hk => ?words,
    rfl, rfl, rfl, rfl, rfl, rfl, fun n hn => ?blockEnd, hinterface⟩
  case position =>
    rw [← hpos]
    exact advance_ipos_toNat hwordsLeft
  case words =>
    have hsame : nextWord (advance (2 * k) t₂) = nextWord (advance (256 + 2 * k) s) := by
      rw [← advance_advance]
      exact nextWord_congr (congrArg (· + BitVec.ofNat 32 (2 * k)) hipos) hmoved.input_eq
    rw [← hsame]
    exact hwords k hk
  case blockEnd =>
    have hn' : n ≤ 2 ^ 32 := (hc.2.2.2.2 n hn).2
    have hopos : t₂.opos = s.opos := hinterface.1
    have hlt := s.opos.isLt
    rw [show bend = _ from hbend n hn, readerMoved_opos, hopos, BitVec.toNat_ofNat, Nat.mod_eq_of_lt (by omega)]

end Sys2Proof.Machine
end

section
/-! PROOF. What a token depends on (42_token_engine.md R118): from two states that agree in the inputs R118 lists, each
operation of a token ends alike, in states that agree again. The temporaries of a token (R18) are not among these inputs:
MLEN and MDIST are written, the same in both runs, before the copy reads them. -/

namespace Sys2Proof.Machine

variable {c : Config} {s s' t t' : State} {α β : Type} {n : Nat}

/-! ## Endings that agree -/

/-- Two operations end alike: with one value or one fault, in states that agree, or with one stop of the model. -/
inductive Res.Alike : Res α → Res α → Prop
  | ok {a : α} {t t' : State} : SameForToken t t' → Res.Alike (.ok a t) (.ok a t')
  | raised {f : FaultCause} {t t' : State} : SameForToken t t' → Res.Alike (.raised f t) (.raised f t')
  | faulted {r : Fault} : Res.Alike (.faulted r) (.faulted r)
  | refused {r : Refusal} : Res.Alike (.refused r) (.refused r)

theorem Res.Alike.exists_of_ok {a : α} {r' : Res α} (h : (Res.ok a t).Alike r') :
    ∃ t', r' = .ok a t' ∧ SameForToken t t' := by
  cases h with
  | ok h => exact ⟨_, rfl, h⟩

theorem Res.Alike.exists_of_raised {f : FaultCause} {r' : Res α} (h : (Res.raised f t).Alike r') :
    ∃ t', r' = .raised f t' ∧ SameForToken t t' := by
  cases h with
  | raised h => exact ⟨_, rfl, h⟩

theorem Res.Alike.bind {r r' : Res α} {k k' : α → State → Res β} (h : r.Alike r')
    (hk : ∀ a t t', r = .ok a t → r' = .ok a t' → SameForToken t t' → (k a t).Alike (k' a t')) :
    (r.bind k).Alike (r'.bind k') := by
  cases h with
  | ok h => exact hk _ _ _ rfl rfl h
  | raised h => exact .raised h
  | faulted => exact .faulted
  | refused => exact .refused

/-- A step that completes leaves what R118 speaks of the same. -/
theorem SameForToken.sameAfter (s : State) (h : SameForToken t t') : SameAfterToken s t t' where
  status := h.status
  errcode := h.errcode
  errsub := h.errsub
  ipos := h.ipos
  opos := h.opos
  acc := fun _ => h.acc
  bcnt := fun _ => h.bcnt
  written := h.output

/-- A fault taken leaves the positions and OUT the same; the datapath, which it leaves without a value, is not compared. -/
theorem SameForToken.sameAfter_enterFault (s : State) (h : SameForToken t t') (f : FaultCause) :
    SameAfterToken s (enterFault f t) (enterFault f t') where
  status := rfl
  errcode := rfl
  errsub := rfl
  ipos := h.ipos
  opos := h.opos
  acc := fun hbusy => by cases hbusy
  bcnt := fun hbusy => by cases hbusy
  written := h.output

theorem Res.Alike.outcome {r r' : Res α} (h : r.Alike r') (ht : r.outcome = .next t) :
    ∃ t', r'.outcome = .next t' ∧ SameAfterToken s t t' := by
  cases h with
  | ok h => cases ht; exact ⟨_, rfl, h.sameAfter s⟩
  | raised h => cases ht; exact ⟨_, rfl, h.sameAfter_enterFault s _⟩
  | faulted => cases ht
  | refused => cases ht

/-! ## Updates that keep the agreement -/

/-- The four temporaries of a token are not compared. -/
theorem SameForToken.temporaries (h : SameForToken s s') (sym sym' : Sym) (mlen mlen' : BitVec 17)
    (mdist mdist' : BitVec 16) (mrem mrem' : BitVec 17) :
    SameForToken { s with sym := sym, mlen := mlen, mdist := mdist, mrem := mrem }
      { s' with sym := sym', mlen := mlen', mdist := mdist', mrem := mrem' } :=
  { h with }

/-- A move of the reader that goes no lower in IN. -/
theorem SameForToken.readerMoved (h : SameForToken s s') (acc : Nat) (bcnt : BitVec 6) {ipos : Word32}
    (hipos : s.ipos.toNat ≤ ipos.toNat) :
    SameForToken (readerMoved acc bcnt ipos s) (readerMoved acc bcnt ipos s') :=
  { h with
    acc := rfl
    bcnt := rfl
    ipos := rfl
    input := fun a ha => h.input a (hipos.trans ha) }

theorem SameForToken.inputLeft_eq (h : SameForToken s s') (n : Nat) : inputLeft n s' = inputLeft n s := by
  rw [inputLeft, inputLeft, h.ipos, h.inLen]

theorem SameForToken.read_eq (h : SameForToken s s') (n : Nat) :
    s'.input.read (s'.ipos.toNat + n) = s.input.read (s.ipos.toNat + n) := by
  rw [← h.ipos, h.input _ (Nat.le_add_right _ _)]

theorem SameForToken.advance (h : SameForToken s s') (hleft : inputLeft n s = true) :
    SameForToken (advance n s) (advance n s') := by
  have hpos := advance_ipos_toNat ((inputLeft_iff n s).mp hleft)
  have hmoved := h.readerMoved s.acc s.bcnt (ipos := (Machine.advance n s).ipos) (by omega)
  exact { hmoved with acc := h.acc, bcnt := h.bcnt, ipos := congrArg (· + BitVec.ofNat 32 n) h.ipos }

theorem SameForToken.dropBits (h : SameForToken s s') (n : Nat) :
    SameForToken (dropBits c n s) (dropBits c n s') :=
  { h with
    acc := by rw [dropBits_acc, dropBits_acc, h.acc]
    bcnt := by rw [dropBits_bcnt, dropBits_bcnt, h.bcnt] }

theorem SameForToken.wordLoaded (h : SameForToken s s') (w : Word16) (hleft : inputLeft 2 s = true) :
    SameForToken (wordLoaded c w s) (wordLoaded c w s') :=
  { h.advance hleft with
    acc := by rw [wordLoaded_acc, wordLoaded_acc, h.acc, h.bcnt]
    bcnt := by rw [wordLoaded_bcnt, wordLoaded_bcnt, h.bcnt] }

/-- A byte emitted below DSIZE, where OPOS does not wrap. -/
theorem SameForToken.emit (h : SameForToken s s') (b : Byte) (hroom : s.opos.toNat < s.dsize.toNat) :
    SameForToken (emit b s) (emit b s') :=
  { h with
    opos := congrArg (· + 1) h.opos
    output := fun a ha => by
      rw [emit_opos, (outWrite_of_room (b := b) hroom).2] at ha
      rw [emit_output, emit_output, Mem.read_write, Mem.read_write, ← h.opos]
      split
      · rfl
      · exact h.output a (by omega) }

/-! ## The bit reader -/

/-- A word read at IPOS, which changes nothing, and what follows it. -/
theorem SameForToken.inRead2_bind (h : SameForToken s s') {k : Word16 → State → Res α}
    (hk : ∀ w, (k w s).Alike (k w s')) :
    ((inRead2 s.ipos.toNat s).bind k).Alike ((inRead2 s'.ipos.toNat s').bind k) := by
  have hlo : s'.input.read s'.ipos.toNat = s.input.read s.ipos.toNat := h.read_eq 0
  rw [inRead2, inRead2, hlo, h.read_eq 1]
  split
  · exact hk _
  · exact .refused

theorem SameForToken.inRead1_bind (h : SameForToken s s') {k : Byte → State → Res α}
    (hk : ∀ b, (k b s).Alike (k b s')) :
    ((inRead1 s.ipos.toNat s).bind k).Alike ((inRead1 s'.ipos.toNat s').bind k) := by
  have hread : s'.input.read s'.ipos.toNat = s.input.read s.ipos.toNat := h.read_eq 0
  rw [inRead1, inRead1, hread]
  split
  · exact hk _
  · exact .refused

theorem SameForToken.refill (h : SameForToken s s') : (refill c s).Alike (refill c s') := by
  rw [Machine.refill, Machine.refill, h.inputLeft_eq]
  split
  case isTrue hleft => exact h.inRead2_bind fun w => .ok (h.wordLoaded w hleft)
  case isFalse => exact .raised h

theorem SameForToken.consume (h : SameForToken s s') (n : Nat) : (consume c n s).Alike (consume c n s') := by
  have hdrop : SameForToken (Machine.dropBits c n s) (Machine.dropBits c n s') := h.dropBits n
  rw [Machine.consume, Machine.consume, hdrop.bcnt]
  split
  · exact hdrop.refill
  · exact .ok hdrop

theorem SameForToken.rdByte (h : SameForToken s s') : (rdByte s).Alike (rdByte s') := by
  rw [Machine.rdByte, Machine.rdByte, h.inputLeft_eq]
  split
  case isTrue hleft => exact h.inRead1_bind fun b => .ok (h.advance hleft)
  case isFalse => exact .raised h

theorem SameForToken.rd16 (h : SameForToken s s') : (rd16 s).Alike (rd16 s') := by
  rw [Machine.rd16, Machine.rd16, h.inputLeft_eq]
  split
  case isTrue hleft => exact h.inRead2_bind fun w => .ok (h.advance hleft)
  case isFalse => exact .raised h

theorem SameForToken.window_eq (h : SameForToken s s') : window c s' = window c s := by
  rw [window, window, peek, peek, h.acc]

/-! ## The symbol and the extension bytes -/

/-- LOOKUP reads LEN, CNT and FIRST, R101. -/
theorem SameForToken.lookup_eq (h : SameForToken s s') (p : BitVec 15) :
    lookup s'.toDatapath p = lookup s.toDatapath p := by
  have hat : lookupAt s'.toDatapath p.toNat = lookupAt s.toDatapath p.toNat := by
    funext l
    rw [lookupAt, lookupAt, h.len, h.cnt, h.first]
  rw [lookup, lookup, hat]

theorem SameForToken.setSym (h : SameForToken s s') (sym : Sym) : SameForToken (setSym sym s) (setSym sym s') :=
  h.temporaries sym sym s.mlen s'.mlen s.mdist s'.mdist s.mrem s'.mrem

theorem SameForToken.decodeSym (h : SameForToken s s') : (decodeSym c s).Alike (decodeSym c s') := by
  rw [Machine.decodeSym, Machine.decodeSym, ← h.degen, ← h.dsym, h.window_eq, h.lookup_eq]
  split
  · exact .ok (h.setSym _)
  · split
    · exact .faulted
    · exact (h.consume _).bind fun _ _ _ _ _ ht => .ok (ht.setSym _)

theorem SameForToken.readExtension (h : SameForToken s s') (sym : Sym) :
    (readExtension c sym s).Alike (readExtension c sym s') := by
  rw [Machine.readExtension, Machine.readExtension]
  split
  · exact .ok h
  · split
    · exact .ok h
    · refine h.rdByte.bind fun b t t' _ _ ht => ?_
      split
      · exact .ok ht
      · exact ht.rd16.bind fun _ _ _ _ _ hu => .ok hu

/-! ## The output -/

/-- COPY's loop reads OUT below OPOS only, R116: each byte at its distance before OPOS, once it has been written. -/
theorem SameForToken.copyLoop (h : SameForToken s s') (hmdist : s.mdist = s'.mdist) (hpos : 1 ≤ s.mdist.toNat)
    (hdist : s.mdist.toNat ≤ s.opos.toNat) : (copyLoop n s).Alike (copyLoop n s') := by
  induction n generalizing s s' with
  | zero => exact .ok h
  | succ n ih =>
    have hread : s'.output.read (s'.opos.toNat - s'.mdist.toNat) = s.output.read (s.opos.toNat - s.mdist.toNat) := by
      rw [← h.opos, ← hmdist, h.output _ (by omega)]
    rw [Machine.copyLoop, Machine.copyLoop, outRead, outRead, hread]
    cases s.output.read (s.opos.toNat - s.mdist.toNat) with
    | none => exact .faulted
    | some b =>
      rw [Res.bind_ok, Res.bind_ok, outWrite, outWrite, ← h.opos, ← h.dsize]
      split
      case isTrue hroom =>
        have hemit := h.emit b hroom
        refine ih (s := countDown (Machine.emit b s)) (s' := countDown (Machine.emit b s')) ?_ hmdist hpos ?_
        · exact hemit.temporaries s.sym s'.sym s.mlen s'.mlen s.mdist s'.mdist _ _
        · rw [countDown_mdist, countDown_opos, emit_mdist, emit_opos, (outWrite_of_room (b := b) hroom).2]
          omega
      case isFalse => exact .faulted

theorem SameForToken.outWrite (h : SameForToken s s') (b : Byte) : (outWrite b s).Alike (outWrite b s') := by
  rw [Machine.outWrite, Machine.outWrite, ← h.opos, ← h.dsize]
  split
  case isTrue hroom => exact .ok (h.emit b hroom)
  case isFalse => exact .faulted

/-! ## The instructions -/

/-- Points 6 to 8 of R110: MDIST is written from the operands, and MLEN agrees. -/
theorem SameForToken.checkAndCopy (h : SameForToken s s') (hmlen : s.mlen = s'.mlen) (dbits : Nibble)
    (extra : BitVec 15) :
    (checkAndCopy Config.std dbits extra s).Alike (checkAndCopy Config.std dbits extra s') := by
  have hset : SameForToken (setDistance (distance Config.std dbits extra) s)
      (setDistance (distance Config.std dbits extra) s') :=
    h.temporaries s.sym s'.sym s.mlen s'.mlen _ _ s.mrem s'.mrem
  by_cases hfar : s.opos.toNat < 2 ^ dbits.toNat + extra.toNat
  · rw [checkAndCopy_std_of_far hfar, checkAndCopy_std_of_far (h.opos ▸ hfar)]
    exact .raised hset
  · have hmdist := setDistance_std_mdist_toNat dbits extra s
    have hpos := Nat.two_pow_pos dbits.toNat
    have hcount : copyCount (setDistance (distance Config.std dbits extra) s') =
        copyCount (setDistance (distance Config.std dbits extra) s) := by
      simp only [copyCount, setDistance_mlen, setDistance_dsize, setDistance_opos, hmlen, h.dsize, h.opos]
    rw [checkAndCopy_std_of_near (Nat.not_lt.mp hfar), checkAndCopy_std_of_near (h.opos ▸ Nat.not_lt.mp hfar), copy, copy,
      hcount]
    refine SameForToken.copyLoop ?_ rfl ?_ ?_
    · exact hset.temporaries s.sym s'.sym s.mlen s'.mlen _ _ _ _
    · rw [setRemaining_mdist, hmdist]
      omega
    · rw [setRemaining_mdist, hmdist]
      exact Nat.not_lt.mp hfar

/-- Points 5 to 8 of R110, MLEN having been written: CONSUME leaves it. -/
theorem SameForToken.finishMatch (h : SameForToken s s') (dbits : Nibble) (extra : BitVec 15) (length : Nat) :
    (finishMatch Config.std dbits extra (setLength length s)).Alike
      (finishMatch Config.std dbits extra (setLength length s')) := by
  have hset : SameForToken (setLength length s) (setLength length s') :=
    h.temporaries s.sym s'.sym _ _ s.mdist s'.mdist s.mrem s'.mrem
  refine (hset.consume dbits.toNat).bind fun _ t t' e e' ht => ht.checkAndCopy ?_ dbits extra
  rw [consume_moves e, consume_moves e']
  rfl

/-- The four token forms. -/
theorem SameForToken.exec {i : Instr} (h : SameForToken s s') (hi : ∀ value, i ≠ .start value)
    (ht : exec i s = .next t) (s₀ : State) : ∃ t', exec i s' = .next t' ∧ SameAfterToken s₀ t t' := by
  cases i with
  | lit b => exact (h.outWrite b).outcome ht
  | matchM dbits lnib extra => exact (h.finishMatch dbits extra _).outcome ht
  | matchX8 dbits b extra =>
    exact (h.rdByte.bind fun _ _ _ _ _ h₁ => h₁.finishMatch dbits extra _).outcome ht
  | matchX16 dbits v extra =>
    refine (h.rdByte.bind fun _ _ _ _ _ h₁ => h₁.rd16.bind fun _ _ _ _ _ h₂ => ?_).outcome ht
    split
    · exact .raised h₂
    · exact h₂.finishMatch dbits extra _
  | start value => exact absurd rfl (hi value)

/-- Settles O50: the symbol, the look at the extension bytes and the window, and the meaning each depend on the inputs of
R118 alone. -/
theorem tokenDependsOnItsInputs : Obligations.TokenDependsOnItsInputs := by
  unfold Obligations.TokenDependsOnItsInputs
  intro s s' t h ht
  have hsym : (decodeSym Config.std s).Alike (decodeSym Config.std s') := h.decodeSym
  rcases tokenStep_next ht with
    ⟨sym, s₁, bytes, s₂, i, e, e₂, hi, hex⟩ | ⟨f, s₁, e, rfl⟩ | ⟨sym, s₁, f, s₂, e, e₂, rfl⟩ <;> rw [e] at hsym
  · obtain ⟨s₁', e', h₁⟩ := hsym.exists_of_ok
    have hext : (readExtension Config.std sym s₁).Alike (readExtension Config.std sym s₁') := h₁.readExtension sym
    rw [e₂] at hext
    obtain ⟨s₂', e₂', -⟩ := hext.exists_of_ok
    rw [← h₁.window_eq] at hi
    rw [tokenStep_of_decoded e' e₂' hi]
    exact h₁.exec (decode_token_ne_start hi) hex s
  · obtain ⟨s₁', e', h₁⟩ := hsym.exists_of_raised
    exact ⟨_, tokenStep_of_symbol_raised e', h₁.sameAfter_enterFault s f⟩
  · obtain ⟨s₁', e', h₁⟩ := hsym.exists_of_ok
    have hext : (readExtension Config.std sym s₁).Alike (readExtension Config.std sym s₁') := h₁.readExtension sym
    rw [e₂] at hext
    obtain ⟨s₂', e₂', h₂⟩ := hext.exists_of_raised
    exact ⟨_, tokenStep_of_extension_raised e' e₂', h₂.sameAfter_enterFault s f⟩

end Sys2Proof.Machine
end

section
/-! PROOF. Faults (60_exceptions.md R134 to R141). Every operation up to the first byte a token writes moves the datapath
and IPOS alone, so a fault taken there leaves OUT and OPOS as they were before the step. Of these operations only DECODESYM
can stop with a fault of the model, and it does not where a table has been built; the copy of a match does not where OUT is
filled below OPOS. -/

namespace Sys2Proof.Machine

variable {c : Config} {s t u : State} {i : Instr} {α β : Type} {dbits : Nibble} {extra : BitVec 15} {r : Fault}

/-! ## Fault entry, R137 -/

/-- Settles O16: fault entry writes nothing outside the datapath but STATE and the two error registers, whose codes are
read off R134. -/
theorem faultEntry : Obligations.FaultEntry := by
  unfold Obligations.FaultEntry
  have hself (s : State) : DatapathMoved s s := rfl
  exact ⟨fun f s => (hself s).faultTaken f, by decide⟩

/-! ## Operations that move the datapath and IPOS alone -/

/-- The operation ends in a value, a raise or a refusal, not in a fault of the model, and a state it leaves differs from
`s` in the datapath and in IPOS only. -/
inductive Res.MovesDatapath (s : State) : Res α → Prop
  | ok {a : α} {t : State} : DatapathMoved s t → Res.MovesDatapath s (.ok a t)
  | raised {f : FaultCause} {t : State} : DatapathMoved s t → Res.MovesDatapath s (.raised f t)
  | refused {r : Refusal} : Res.MovesDatapath s (.refused r)

theorem Res.MovesDatapath.of_ok {a : α} (h : (Res.ok a t).MovesDatapath s) : DatapathMoved s t := by
  cases h with
  | ok h => exact h

theorem Res.MovesDatapath.of_raised {f : FaultCause} (h : (Res.raised f t : Res α).MovesDatapath s) :
    DatapathMoved s t := by
  cases h with
  | raised h => exact h

theorem Res.MovesDatapath.ne_faulted {x : Res α} (h : x.MovesDatapath s) : x ≠ .faulted r := by
  rintro rfl
  cases h

theorem Res.MovesDatapath.trans {x : Res α} (hm : DatapathMoved s t) (h : x.MovesDatapath t) : x.MovesDatapath s := by
  cases h with
  | ok h => exact .ok (hm.trans h)
  | raised h => exact .raised (hm.trans h)
  | refused => exact .refused

theorem Res.MovesDatapath.bind {x : Res α} {k : α → State → Res β} (h : x.MovesDatapath s)
    (hk : ∀ a t, (k a t).MovesDatapath t) : (x.bind k).MovesDatapath s := by
  cases h with
  | ok h => exact trans h (hk _ _)
  | raised h => exact .raised h
  | refused => exact .refused

/-- After such an operation a sequence stops with a fault of the model only where its second part does. -/
theorem Res.MovesDatapath.bind_ne_faulted {x : Res α} {k : α → State → Res β} (h : x.MovesDatapath s)
    (hk : ∀ a t, DatapathMoved s t → k a t ≠ .faulted r) : x.bind k ≠ .faulted r := by
  cases h with
  | ok h => exact hk _ _ h
  | raised _ => nofun
  | refused => nofun

theorem consume_moves_datapath (c : Config) (n : Nat) (s : State) : (consume c n s).MovesDatapath s := by
  rcases consume_cases c n s with ⟨-, e⟩ | ⟨-, -, e⟩ | ⟨-, -, lo, hi, -, -, e⟩ | ⟨-, -, -, e⟩ <;> rw [e]
  · exact .ok rfl
  · exact .raised rfl
  · exact .ok rfl
  · exact .refused

theorem rdByte_moves_datapath (s : State) : (rdByte s).MovesDatapath s := by
  rcases rdByte_cases s with ⟨-, e⟩ | ⟨-, b, -, e⟩ | ⟨-, -, e⟩ <;> rw [e]
  · exact .raised rfl
  · exact .ok rfl
  · exact .refused

theorem rd16_moves_datapath (s : State) : (rd16 s).MovesDatapath s := by
  rcases rd16_cases s with ⟨-, e⟩ | ⟨-, lo, hi, -, -, e⟩ | ⟨-, -, e⟩ <;> rw [e]
  · exact .raised rfl
  · exact .ok rfl
  · exact .refused

theorem readExtension_moves_datapath (c : Config) (sym : Sym) (s : State) : (readExtension c sym s).MovesDatapath s := by
  unfold readExtension
  split
  · exact .ok rfl
  · split
    · exact .ok rfl
    · refine (rdByte_moves_datapath s).bind fun b t => ?_
      split
      · exact .ok rfl
      · exact (rd16_moves_datapath t).bind fun _ _ => .ok rfl

theorem loadTable_moves_datapath (c : Config) (s : State) : (loadTable c s).MovesDatapath s := by
  rcases loadTable_cases c s with ⟨-, e⟩ | ⟨-, bytes, -, -, e⟩ | ⟨-, e⟩ <;> rw [e]
  · exact .raised rfl
  · exact .ok (loadTable_ok e).1
  · exact .refused

theorem build_moves_datapath (s : State) : (build s).MovesDatapath s := by
  rcases build_cases s with ⟨-, e⟩ | ⟨-, e⟩ | ⟨-, e⟩ <;> rw [e]
  · exact .raised (build_raised e).1
  · exact .ok (build_ok e).1
  · exact .ok (build_ok e).1

theorem prime_moves_datapath (c : Config) (s : State) : (prime c s).MovesDatapath s := by
  rcases prime_cases c s with ⟨-, e⟩ | ⟨-, acc, e⟩ | ⟨-, e⟩ <;> rw [e]
  · exact .raised rfl
  · exact .ok rfl
  · exact .refused

theorem init_moves_datapath (c : Config) (s : State) : (init c s).MovesDatapath s :=
  (loadTable_moves_datapath c s).bind fun _ t => (build_moves_datapath t).bind fun _ u =>
    (prime_moves_datapath c u).bind fun _ v => by
      obtain ⟨bend, e, -⟩ := exists_beginBlock c v
      exact .ok (by rw [e]; rfl)

theorem decodeSym_moves_datapath (h : ∀ r, decodeSym c s ≠ .faulted r) : (decodeSym c s).MovesDatapath s := by
  rcases decodeSym_cases c s with ⟨-, e⟩ | ⟨-, -, e⟩ | ⟨-, sym, l, -, ⟨t, ht, e⟩ | ⟨-, e⟩ | ⟨-, e⟩⟩
  · rw [e]; exact .ok rfl
  · exact absurd e (h _)
  · have hconsume := consume_moves_datapath c l s
    rw [ht] at hconsume
    have hsym : DatapathMoved t (setSym sym t) := rfl
    rw [e]
    exact .ok (hconsume.of_ok.trans hsym)
  · rw [e]; exact .raised rfl
  · rw [e]; exact .refused

/-! ## A fault is precise, R139 -/

theorem DatapathMoved.status_eq (h : DatapathMoved s t) : t.status = s.status := by rw [h]

/-- A fault taken from the state after such an operation is one taken from the state before it. -/
theorem FaultTaken.of_datapathMoved {f : FaultCause} {pos : Nat} (h : FaultTaken f pos t u) (hm : DatapathMoved s t) :
    FaultTaken f pos s u := by
  rw [hm] at h
  exact ⟨h.status, h.errcode, h.errsub, h.ipos, h.opos, h.dsize, h.inLen, h.input, h.output, h.moves, h.readData⟩

/-- A token form leaves STATE as it was, or is stopped by a fault. -/
theorem exec_token_next (hi : ∀ value, i ≠ .start value) (h : exec i s = .next t) :
    t.status = s.status ∨ ∃ f, FaultTaken f t.ipos.toNat s t := by
  have hmatch (hform : isMatchForm i = true) : t.status = s.status ∨ ∃ f, FaultTaken f t.ipos.toNat s t :=
    (exec_match_next hform h).imp_left fun ⟨hframe, _⟩ => hframe.status
  cases i with
  | lit b =>
    obtain ⟨-, rfl⟩ := exec_lit_next h
    exact .inl (emit_status b s)
  | matchM dbits lnib extra => exact hmatch rfl
  | matchX8 dbits b extra => exact hmatch rfl
  | matchX16 dbits v extra => exact hmatch rfl
  | start value => exact absurd rfl (hi value)

theorem tokenStep_std_next (h : tokenStep Config.std exec s = .next t) :
    t.status = s.status ∨ ∃ f, FaultTaken f t.ipos.toNat s t := by
  have hsym : (decodeSym Config.std s).MovesDatapath s := decodeSym_moves_datapath fun r e => by
    simp only [tokenStep, e] at h
    cases h
  rcases tokenStep_next h with
    ⟨sym, s₁, bytes, s₂, i, e, -, hi, hex⟩ | ⟨f, s₁, e, rfl⟩ | ⟨sym, s₁, f, s₂, e, e', rfl⟩ <;>
    rw [e] at hsym
  · rw [← hsym.of_ok.status_eq]
    exact (exec_token_next (decode_token_ne_start hi) hex).imp_right fun ⟨f, hf⟩ => ⟨f, hf.of_datapathMoved hsym.of_ok⟩
  · exact .inr ⟨f, hsym.of_raised.faultTaken f⟩
  · have hext := readExtension_moves_datapath Config.std sym s₁
    rw [e'] at hext
    exact .inr ⟨f, (hsym.of_ok.trans hext.of_raised).faultTaken f⟩

/-- An engine step that ends in ERR has taken a fault. -/
theorem engineStep_std_err (hbusy : s.status = .busy) (h : engineStep Config.std exec s = .next t)
    (herr : t.status = .err) : ∃ f, FaultTaken f t.ipos.toNat s t := by
  have hne : t.status ≠ s.status := by rw [herr, hbusy]; decide
  rcases engineStep_cases Config.std exec s with
    ⟨hidle, -⟩ | ⟨-, -, e⟩ | ⟨-, -, -, e⟩ | ⟨-, -, -, -, e⟩ | ⟨-, -, -, -, e⟩
  · exact absurd hbusy hidle
  · have hinit := init_moves_datapath Config.std s
    rcases Res.outcome_eq_next (e.symm.trans h) with ⟨_, hok⟩ | ⟨f, u, hraised, rfl⟩
    · rw [hok] at hinit
      exact absurd hinit.of_ok.status_eq hne
    · rw [hraised] at hinit
      exact ⟨f, hinit.of_raised.faultTaken f⟩
  · cases e.symm.trans h
    cases herr
  · cases e.symm.trans h
    exact absurd (switchBlock_status s) hne
  · exact (tokenStep_std_next (e.symm.trans h)).resolve_left hne

/-- Settles O17: a fault taken leaves the memories, OPOS and the sizes. -/
theorem faultIsPrecise : Obligations.FaultIsPrecise := by
  unfold Obligations.FaultIsPrecise
  intro s t hmoves hbusy h herr
  rw [step_of_engine hmoves] at h
  obtain ⟨f, hfault⟩ := engineStep_std_err hbusy h herr
  exact ⟨hfault.output, hfault.opos, hfault.dsize, hfault.inLen, hfault.input, f, hfault.errcode, hfault.errsub⟩

/-! ## The ways out of DONE and ERR, R141 -/

theorem engineStep_of_not_busy {ex : Instr → State → Host.Outcome State Fault Refusal} (h : s.status ≠ .busy) :
    engineStep c ex s = .next s := by
  rcases engineStep_cases c ex s with ⟨-, e⟩ | ⟨hb, -⟩ | ⟨hb, -⟩ | ⟨hb, -⟩ | ⟨hb, -⟩
  · exact e
  all_goals exact absurd hb h

theorem hostRead_status {b : Option Byte} {why : Refusal} (h : hostRead b why s = .next t) : t.status = s.status := by
  cases b <;> cases h
  rfl

/-- Outside BUSY a write of a register leaves STATE, or is a START that launches. -/
theorem writeReg_status {n : BitVec 3} {value : Word32} (hbusy : s.status ≠ .busy)
    (h : writeReg exec n value s = .next t) :
    t.status = s.status ∨ (n = 0 ∧ value.getLsbD 0 = true ∧ t = launch s) := by
  rcases register_cases n with rfl | rfl | rfl | hreadOnly
  · cases hbit : value.getLsbD 0
    · cases (writeReg_ctrl_bit_clear exec value s hbit).symm.trans h
      exact .inl rfl
    · rw [writeReg_ctrl exec value s hbit] at h
      rcases exec_start_next h with rfl | rfl
      · exact .inl rfl
      · exact .inr ⟨rfl, rfl, rfl⟩
  · rw [writeReg_dsize, if_neg hbusy] at h
    cases h
    exact .inl rfl
  · rw [writeReg_inLen, if_neg hbusy] at h
    cases h
    exact .inl rfl
  · cases (writeReg_readOnly exec value s hreadOnly).symm.trans h
    exact .inl rfl

/-- Outside BUSY a move of the host leaves STATE, or is a START that launches, or a reset. -/
theorem hostStep_status {m : HostMove} (hbusy : s.status ≠ .busy) (h : hostStep c exec m s = .next t) :
    t.status = s.status ∨ (∃ value, m = .writeReg 0 value ∧ value.getLsbD 0 = true ∧ t = launch s) ∨
      (m = .reset ∧ t = resetEvent s) := by
  cases m with
  | writeReg n value =>
    rcases writeReg_status hbusy h with hsame | ⟨rfl, hbit, rfl⟩
    · exact .inl hsame
    · exact .inr (.inl ⟨value, rfl, hbit, rfl⟩)
  | readReg n => cases h; exact .inl rfl
  | writeIn addr b =>
    rw [hostStep_writeIn b hbusy] at h
    cases h
    exact .inl rfl
  | readIn addr =>
    simp only [hostStep] at h
    split at h
    · cases h
    · exact .inl (hostRead_status h)
  | readOut addr =>
    simp only [hostStep] at h
    split at h
    · exact .inl (hostRead_status h)
    · cases h
  | reset => cases h; exact .inr (.inr ⟨rfl, rfl⟩)
  | pass =>
    cases (engineStep_of_not_busy hbusy).symm.trans h
    exact .inl rfl

/-- Settles O18: with no move pending nothing changes, and of the host's moves only START and reset write STATE. -/
theorem errIsLeftOnlyByTheHost : Obligations.ErrIsLeftOnlyByTheHost := by
  unfold Obligations.ErrIsLeftOnlyByTheHost
  intro s t hover h hne
  have hbusy : s.status ≠ .busy := by rcases hover with hs | hs <;> rw [hs] <;> decide
  cases hm : s.moves with
  | nil =>
    rw [step_of_engine hm, engineStep_of_not_busy hbusy] at h
    cases h
    exact absurd rfl hne
  | cons m rest =>
    rw [step_of_move hm] at h
    rcases hostStep_status (s := { s with moves := rest }) hbusy h with hsame | ⟨value, rfl, hbit, rfl⟩ | ⟨rfl, rfl⟩
    · exact absurd hsame hne
    · exact .inl ⟨value, rest, rfl, hbit, rfl, rfl, rfl, rfl, rfl⟩
    · exact .inr ⟨rest, rfl, rfl⟩

/-! ## No fault of the model, R134 and R99: a token is decoded -/

/-- The ways in which a token step stops with a fault of the model. -/
theorem tokenStep_fault {ex : Instr → State → Host.Outcome State Fault Refusal} (h : tokenStep c ex s = .fault r) :
    decodeSym c s = .faulted r ∨ ∃ sym s₁, decodeSym c s = .ok sym s₁ ∧
      (readExtension c sym s₁ = .faulted r ∨ ∃ bytes s₂, readExtension c sym s₁ = .ok bytes s₂ ∧
        ((∃ e, decode c (.token sym bytes (window c s₁)) = .error e) ∨
          ∃ i, decode c (.token sym bytes (window c s₁)) = .ok i ∧ ex i s₁ = .fault r)) := by
  unfold tokenStep at h
  cases hd : decodeSym c s with
  | ok sym s₁ =>
    rw [hd] at h
    refine .inr ⟨sym, s₁, rfl, ?_⟩
    cases hx : readExtension c sym s₁ with
    | ok bytes s₂ =>
      simp only [hx] at h
      refine .inr ⟨bytes, s₂, rfl, ?_⟩
      cases hi : decode c (.token sym bytes (window c s₁)) with
      | ok i => exact .inr ⟨i, rfl, by simpa only [hi] using h⟩
      | error e => exact .inl ⟨e, rfl⟩
    | raised f s₂ => simp only [hx] at h; cases h
    | faulted r' => simp only [hx] at h; cases h; exact .inl rfl
    | refused r' => simp only [hx] at h; cases h
  | raised f s₁ => rw [hd] at h; cases h
  | faulted r' => rw [hd] at h; cases h; exact .inl rfl
  | refused r' => rw [hd] at h; cases h

/-- A codeword begins every window of a built table, R99, so DECODESYM finds a symbol. -/
theorem decodeSym_ne_faulted (htable : s.degen = false → BuiltTable s.toDatapath) : decodeSym c s ≠ .faulted r := by
  intro h
  rcases decodeSym_cases c s with ⟨-, e⟩ | ⟨hdegen, hnone, -⟩ | ⟨-, sym, l, -, ⟨t, -, e⟩ | ⟨-, e⟩ | ⟨-, e⟩⟩
  · cases e.symm.trans h
  · obtain ⟨sym, hsym⟩ := (htable hdegen).exists_codeBegins (window c s)
    rw [(htable hdegen).lookup_eq hsym] at hnone
    cases hnone
  all_goals cases e.symm.trans h

/-- A symbol and the extension bytes read for it spell a token, whose distance bits fit their count, R67 and R72. -/
theorem exists_decode_of_readExtension {sym : Sym} {bytes : List Byte} (h : readExtension c sym s = .ok bytes t)
    (w : BitVec 15) :
    ∃ i, decode c (.token sym bytes w) = .ok i ∧ (tokenExtra i).2.toNat < 2 ^ (tokenExtra i).1 := by
  have hextra := windowBits_lt w (nibble_le (c.slotDbits (symLow sym)))
  rcases readExtension_ok h with ⟨-, ⟨rfl, hshort⟩ | ⟨hmatch, hlong, ⟨b, hb, rfl, -⟩ | ⟨lo, hi, rfl, -⟩⟩⟩ <;>
    simp only [decode, decodeToken]
  · by_cases hlit : symIsMatch sym = false
    · rw [if_pos hlit]
      exact ⟨_, rfl, Nat.one_pos⟩
    · rw [if_neg hlit, if_pos (hshort.resolve_left hlit)]
      exact ⟨_, rfl, hextra⟩
  · rw [if_neg (by simp [hmatch]), if_neg (not_not_intro hlong), if_pos hb]
    exact ⟨_, rfl, hextra⟩
  · rw [if_neg (by simp [hmatch]), if_neg (not_not_intro hlong), if_neg (not_not_intro rfl)]
    exact ⟨_, rfl, hextra⟩

/-! ## No fault of the model: an instruction runs -/

theorem Res.outcome_ne_fault {x : Res α} (h : x ≠ .faulted r) : x.outcome ≠ .fault r :=
  fun h' => h (Res.outcome_eq_fault h')

theorem DatapathMoved.outputReady (h : DatapathMoved s t) (hfill : OutputReady s) : OutputReady t := by
  rw [h]
  exact hfill

/-- MDIST holds every distance that the parameters allow, and none is 0, R115 and R119. -/
theorem setDistance_mdist_pos (hc : c.Valid) (hextra : extra.toNat < 2 ^ dbits.toNat) (s : State) :
    1 ≤ (setDistance (distance c dbits extra) s).mdist.toNat := by
  obtain ⟨-, -, -, hdist, -⟩ := hc
  obtain ⟨hbase, hfits⟩ := hdist dbits
  rw [setDistance_mdist, BitVec.toNat_ofNat, distance, Nat.mod_eq_of_lt (by omega)]
  omega

/-- A copy from a filled OUT, clipped at DSIZE, meets no byte that holds no value and no end of OUT, R117. -/
theorem checkAndCopy_ne_faulted (hc : c.Valid) (hextra : extra.toNat < 2 ^ dbits.toNat) (hfill : OutputReady s) :
    checkAndCopy c dbits extra s ≠ .faulted r := by
  have hpos := setDistance_mdist_pos hc hextra s
  unfold checkAndCopy
  split
  case isTrue => nofun
  case isFalse hnear =>
    obtain ⟨out, e, -⟩ := copyLoop_clipped (n := copyCount s)
      (s := setRemaining (copyCount s) (setDistance (distance c dbits extra) s)) hfill hpos (Nat.not_lt.mp hnear)
      (Nat.min_le_right _ _)
    intro h
    cases e.symm.trans h

/-- The shared end of the three match forms, the length written first. -/
theorem finishMatch_ne_faulted (hc : c.Valid) (hextra : extra.toNat < 2 ^ dbits.toNat) (len : Nat)
    (hfill : OutputReady s) : finishMatch c dbits extra (setLength len s) ≠ .faulted r :=
  (consume_moves_datapath c _ _).bind_ne_faulted fun _ _ hm => checkAndCopy_ne_faulted hc hextra (hm.outputReady hfill)

theorem execStartIn_ne_fault (c : Config) (value : Word32) (s : State) : execStartIn c value s ≠ .fault r := by
  intro h
  rcases execStartIn_cases c value s with ⟨-, e⟩ | ⟨-, -, ⟨-, e⟩ | ⟨-, -, e⟩ | ⟨-, -, e⟩⟩ <;> cases e.symm.trans h

/-- With room for a byte and OUT filled below OPOS no instruction stops with a fault of the model. -/
theorem execIn_ne_fault (hc : c.Valid) (hextra : (tokenExtra i).2.toNat < 2 ^ (tokenExtra i).1)
    (hroom : s.opos.toNat < s.dsize.toNat) (hfill : OutputReady s) : execIn c i s ≠ .fault r := by
  cases i with
  | lit b =>
    refine Res.outcome_ne_fault ?_
    rw [(outWrite_of_room hroom).1]
    nofun
  | matchM dbits lnib extra => exact Res.outcome_ne_fault (finishMatch_ne_faulted hc hextra _ hfill)
  | matchX8 dbits b extra =>
    exact Res.outcome_ne_fault ((rdByte_moves_datapath s).bind_ne_faulted fun _ _ hm =>
      finishMatch_ne_faulted hc hextra _ (hm.outputReady hfill))
  | matchX16 dbits v extra =>
    refine Res.outcome_ne_fault ((rdByte_moves_datapath s).bind_ne_faulted fun _ s₁ hm =>
      (rd16_moves_datapath s₁).bind_ne_faulted fun _ s₂ hm' => ?_)
    split
    · nofun
    · exact finishMatch_ne_faulted hc hextra _ ((hm.trans hm').outputReady hfill)
  | start value => exact execStartIn_ne_fault c value s

/-! ## No fault of the model: the steps -/

theorem RunInv.outputReady (h : RunInv s) : OutputReady s := fun a ha => (h.filled a).mpr ha

/-- Below DSIZE a token step of a run that meets the invariant decodes an instruction that can run, or takes a fault. -/
theorem tokenStep_ne_fault (hc : c.Valid) (h : Inv c s) (hbusy : s.status = .busy) (hphase : s.phase = .run)
    (hsize : s.opos ≠ s.dsize) : tokenStep c (execIn c) s ≠ .fault r := by
  intro hfault
  have hrun := h.running hbusy
  have hroom : s.opos.toNat < s.dsize.toNat :=
    Nat.lt_of_le_of_ne hrun.oposLe fun e => hsize (BitVec.eq_of_toNat_eq e)
  have hne (r : Fault) : decodeSym c s ≠ .faulted r := decodeSym_ne_faulted (h.table hbusy hphase)
  have hsym := decodeSym_moves_datapath hne
  rcases tokenStep_fault hfault with e | ⟨sym, s₁, e, e' | ⟨bytes, s₂, e', hdecode⟩⟩
  · exact hne r e
  · exact (readExtension_moves_datapath c sym s₁).ne_faulted e'
  · rw [e] at hsym
    obtain ⟨i, hi, hextra⟩ := exists_decode_of_readExtension e' (window c s₁)
    rcases hdecode with ⟨_, herror⟩ | ⟨i', hi', hex⟩
    · cases hi.symm.trans herror
    · cases hi.symm.trans hi'
      have hroom₁ : s₁.opos.toNat < s₁.dsize.toNat := by rw [hsym.of_ok]; exact hroom
      exact execIn_ne_fault hc hextra hroom₁ (hsym.of_ok.outputReady hrun.outputReady) hex

theorem engineStep_ne_fault (hc : c.Valid) (h : Inv c s) : engineStep c (execIn c) s ≠ .fault r := by
  rcases engineStep_cases c (execIn c) s with
    ⟨-, e⟩ | ⟨-, -, e⟩ | ⟨-, -, -, e⟩ | ⟨-, -, -, -, e⟩ | ⟨hbusy, hphase, hsize, -, e⟩ <;> rw [e]
  · nofun
  · exact Res.outcome_ne_fault (init_moves_datapath c s).ne_faulted
  · nofun
  · nofun
  · exact tokenStep_ne_fault hc h hbusy hphase hsize

theorem writeReg_ne_fault (c : Config) (n : BitVec 3) (value : Word32) (s : State) :
    writeReg (execIn c) n value s ≠ .fault r := by
  rcases register_cases n with rfl | rfl | rfl | hreadOnly
  · cases hbit : value.getLsbD 0
    · rw [writeReg_ctrl_bit_clear _ _ _ hbit]
      nofun
    · rw [writeReg_ctrl _ _ _ hbit]
      exact execStartIn_ne_fault c value s
  · rw [writeReg_dsize]
    split <;> nofun
  · rw [writeReg_inLen]
    split <;> nofun
  · rw [writeReg_readOnly _ _ _ hreadOnly]
    nofun

theorem hostRead_ne_fault (b : Option Byte) (why : Refusal) (s : State) : hostRead b why s ≠ .fault r := by
  cases b <;> nofun

theorem hostStep_ne_fault (hc : c.Valid) (m : HostMove) (h : Inv c s) : hostStep c (execIn c) m s ≠ .fault r := by
  cases m with
  | writeReg n value => exact writeReg_ne_fault c n value s
  | readReg n => nofun
  | writeIn addr b =>
    simp only [hostStep]
    split <;> nofun
  | readIn addr =>
    simp only [hostStep]
    split
    · nofun
    · exact hostRead_ne_fault _ _ s
  | readOut addr =>
    simp only [hostStep]
    split
    · exact hostRead_ne_fault _ _ s
    · nofun
  | reset => nofun
  | pass => exact engineStep_ne_fault hc h

/-- Settles O53: the engine's steps by the built table and the filled OUT of the invariant, the host's moves one by one. -/
theorem noStepFaults : Obligations.NoStepFaults := by
  unfold Obligations.NoStepFaults
  intro c s r hc h
  cases hm : s.moves with
  | nil =>
    rw [stepIn_of_engine hm]
    exact engineStep_ne_fault hc h
  | cons m rest =>
    rw [stepIn_of_move hm]
    exact hostStep_ne_fault hc m (h.hostSide rest s.readData)

end Sys2Proof.Machine
end

section
/-! PROOF. Reset, the launch premises and the end of every run (70_reset_and_hazards.md R153, R156, R164, R165). Where IN is
valid no operation of the engine meets a byte without a value, so no engine step is refused; nor does one stop with a fault
of the model. So a BUSY state has a next state. That state has ended the run, or it is closer to the end: PHASE has gone to
RUN, or a token has moved OPOS. -/

namespace Sys2Proof.Machine

variable {c : Config} {s t u : State} {i : Instr} {n : Nat} {sym : Sym} {dbits : Nibble} {extra : BitVec 15} {α β : Type}
  {r : Refusal}

/-! ## Reset and the launch premises, R153 and R156 -/

/-- Settles O20: what a reset leaves reads 0 at every number, and its OUT is empty. -/
theorem resetAbandonsARun : Obligations.ResetAbandonsARun := by
  unfold Obligations.ResetAbandonsARun
  intro s rest hm
  exact ⟨_, step_of_move hm, rfl, regValue_eq_zero rfl rfl rfl rfl rfl rfl rfl, rfl, Mem.read_nil⟩

/-- A command outside BUSY: P_CAP is looked at first, then P_IN_VALID (log 7). -/
theorem execStartIn_of_command {value : Word32} (hbit : value.getLsbD 0 = true) (hbusy : s.status ≠ .busy) :
    execStartIn c value s =
      if c.outCap < s.dsize.toNat then .refused .outputCapacity
      else if inputFilled s = false then .refused .inputNotValid else .next (launch s) := by
  rw [execStartIn, if_neg (by rw [hbit]; decide), if_neg hbusy]

/-- Settles O14: P_CAP is the first premise looked at, and every 32-bit DSIZE fits the default OUT_CAP. -/
theorem launchOverCapacityRefused : Obligations.LaunchOverCapacityRefused := by
  unfold Obligations.LaunchOverCapacityRefused
  refine ⟨fun c value s hbit hbusy hover => ?_, fun value s => ?_⟩
  · rw [execStartIn_of_command hbit hbusy, if_pos hover]
  · have hcap : s.dsize.toNat ≤ Config.std.outCap := Nat.le_sub_one_of_lt s.dsize.isLt
    intro h
    rw [exec_eq_execIn] at h
    rcases execStartIn_cases Config.std value s with ⟨-, e⟩ | ⟨-, -, ⟨hover, -⟩ | ⟨-, -, e⟩ | ⟨-, -, e⟩⟩
    · cases e.symm.trans h
    · omega
    · cases e.symm.trans h
    · cases e.symm.trans h

/-- Settles O15: where DSIZE fits, START decides P_IN_VALID. -/
theorem launchInvalidInputRefused : Obligations.LaunchInvalidInputRefused := by
  unfold Obligations.LaunchInvalidInputRefused
  intro c value s hbit hbusy hfits hwf
  rw [execStartIn_of_command hbit hbusy, if_neg (Nat.not_lt.mpr hfits), ← inputFilled_iff hwf]
  refine ⟨fun hunset => ?_, fun hfilled => ?_⟩
  · rw [if_pos (Bool.eq_false_of_not_eq_true hunset)]
  · rw [if_neg (by rw [hfilled]; decide)]
    exact ⟨launch s, rfl, rfl⟩

/-! ## No engine step is refused where IN is valid -/

/-- After an operation that moves the datapath and IPOS alone, and is not refused, a sequence is refused only where its
second part is. -/
theorem Res.MovesDatapath.bind_ne_refused {x : Res α} {k : α → State → Res β} (h : x.MovesDatapath s)
    (hx : x ≠ .refused r) (hk : ∀ a t, DatapathMoved s t → k a t ≠ .refused r) : x.bind k ≠ .refused r := by
  cases h with
  | ok h => exact hk _ _ h
  | raised _ => nofun
  | refused => exact fun e => hx (by cases e; rfl)

theorem Res.outcome_ne_refused {x : Res α} (h : x ≠ .refused r) : x.outcome ≠ .refused r := by
  cases x with
  | refused r' => exact fun e => h (by cases e; rfl)
  | _ => nofun

/-- P_IN_VALID against the ending of a read that meets a byte without a value. -/
theorem InputValid.isSome_ne_false (h : InputValid s) {a : Nat} (ha : a < s.inLen.toNat) : (s.input.read a).isSome ≠ false := by
  rw [h a ha]
  decide

theorem rdByte_ne_refused (h : InputValid s) : rdByte s ≠ .refused r := by
  rcases rdByte_cases s with ⟨-, e⟩ | ⟨-, b, -, e⟩ | ⟨hleft, hnone, -⟩
  · rw [e]; nofun
  · rw [e]; nofun
  · exact absurd (by rw [hnone]; rfl) (h.isSome_ne_false (a := s.ipos.toNat) (by omega))

theorem rd16_ne_refused (h : InputValid s) : rd16 s ≠ .refused r := by
  rcases rd16_cases s with ⟨-, e⟩ | ⟨-, lo, hi, -, -, e⟩ | ⟨hleft, hlo | hhi, -⟩
  · rw [e]; nofun
  · rw [e]; nofun
  · exact absurd hlo (h.isSome_ne_false (by omega))
  · exact absurd hhi (h.isSome_ne_false (by omega))

theorem consume_ne_refused (h : InputValid s) : consume c n s ≠ .refused r := by
  rcases consume_cases c n s with ⟨-, e⟩ | ⟨-, -, e⟩ | ⟨-, -, lo, hi, -, -, e⟩ | ⟨-, hleft, hlo | hhi, -⟩
  · rw [e]; nofun
  · rw [e]; nofun
  · rw [e]; nofun
  · exact absurd hlo (h.isSome_ne_false (by omega))
  · exact absurd hhi (h.isSome_ne_false (by omega))

theorem loadTable_ne_refused (h : InputValid s) : loadTable c s ≠ .refused r := by
  unfold loadTable
  split
  case isTrue hl =>
    have hleft := (inputLeft_iff _ _).mp hl
    obtain ⟨bytes, e⟩ := Mem.readBytes_isSome (m := s.input) (a := s.ipos.toNat) (n := Config.tableBytes)
      fun i hi => h _ (by omega)
    rw [e]
    nofun
  case isFalse => nofun

theorem build_ne_refused (s : State) : build s ≠ .refused r := by
  rcases build_cases s with ⟨-, e⟩ | ⟨-, e⟩ | ⟨-, e⟩ <;> rw [e] <;> nofun

theorem prime_ne_refused (h : InputValid s) : prime c s ≠ .refused r := by
  unfold prime
  split
  case isTrue hl =>
    obtain ⟨t, e⟩ := exists_loadWords (c := c) (s := clearAcc s) h ((inputLeft_iff _ _).mp hl)
    rw [e]
    nofun
  case isFalse => nofun

theorem init_ne_refused (h : InputValid s) : init c s ≠ .refused r :=
  (loadTable_moves_datapath c s).bind_ne_refused (loadTable_ne_refused h) fun _ t ht =>
    (build_moves_datapath t).bind_ne_refused (build_ne_refused t) fun _ u hu =>
      (prime_moves_datapath c u).bind_ne_refused (prime_ne_refused ((ht.trans hu).inputValid h)) fun _ _ _ => nofun

theorem decodeSym_ne_refused (h : InputValid s) : decodeSym c s ≠ .refused r := by
  rcases decodeSym_cases c s with ⟨-, e⟩ | ⟨-, -, e⟩ | ⟨-, sym, l, -, ⟨t, -, e⟩ | ⟨-, e⟩ | ⟨hconsume, -⟩⟩
  · rw [e]; nofun
  · rw [e]; nofun
  · rw [e]; nofun
  · rw [e]; nofun
  · exact absurd hconsume (consume_ne_refused h)

theorem readExtension_ne_refused (h : InputValid s) : readExtension c sym s ≠ .refused r := by
  unfold readExtension
  split
  · nofun
  · split
    · nofun
    · refine (rdByte_moves_datapath s).bind_ne_refused (rdByte_ne_refused h) fun b t ht => ?_
      split
      · nofun
      · exact (rd16_moves_datapath t).bind_ne_refused (rd16_ne_refused (ht.inputValid h)) fun _ _ _ => nofun

/-- COPY reads OUT alone. -/
theorem copyLoop_ne_refused (n : Nat) (s : State) : copyLoop n s ≠ .refused r := by
  induction n generalizing s with
  | zero => nofun
  | succ n ih =>
    unfold copyLoop outRead
    split
    · rw [Res.bind_ok, outWrite]
      split
      · exact ih _
      · nofun
    · nofun

theorem checkAndCopy_ne_refused : checkAndCopy c dbits extra s ≠ .refused r := by
  unfold checkAndCopy
  split
  · nofun
  · exact copyLoop_ne_refused _ _

/-- The shared end of the three match forms, the length written first. -/
theorem finishMatch_ne_refused (len : Nat) (h : InputValid s) :
    finishMatch c dbits extra (setLength len s) ≠ .refused r :=
  (consume_moves_datapath c _ _).bind_ne_refused (consume_ne_refused (s := setLength len s) h) fun _ _ _ =>
    checkAndCopy_ne_refused

/-- No token form is refused. START, whose launch premises may be false, is no token. -/
theorem execIn_ne_refused (hi : ∀ value, i ≠ .start value) (h : InputValid s) : execIn c i s ≠ .refused r := by
  cases i with
  | lit b =>
    refine Res.outcome_ne_refused ?_
    unfold outWrite
    split <;> nofun
  | matchM dbits lnib extra => exact Res.outcome_ne_refused (finishMatch_ne_refused _ h)
  | matchX8 dbits b extra =>
    exact Res.outcome_ne_refused ((rdByte_moves_datapath s).bind_ne_refused (rdByte_ne_refused h) fun _ _ hm =>
      finishMatch_ne_refused _ (hm.inputValid h))
  | matchX16 dbits v extra =>
    refine Res.outcome_ne_refused ((rdByte_moves_datapath s).bind_ne_refused (rdByte_ne_refused h) fun _ s₁ hm =>
      (rd16_moves_datapath s₁).bind_ne_refused (rd16_ne_refused (hm.inputValid h)) fun _ s₂ hm' => ?_)
    split
    · nofun
    · exact finishMatch_ne_refused _ ((hm.trans hm').inputValid h)
  | start value => exact absurd rfl (hi value)

/-- A token step whose symbol can be looked up is refused nowhere: not at the symbol, not at its extension, nor in the
instruction they decode to. -/
theorem tokenStep_ne_refused (hsym : ∀ r, decodeSym c s ≠ .faulted r) (h : InputValid s) :
    tokenStep c (execIn c) s ≠ .refused r := by
  have hmoves := decodeSym_moves_datapath hsym
  cases hd : decodeSym c s with
  | raised f s₁ => rw [tokenStep_of_symbol_raised hd]; nofun
  | faulted r' => exact absurd hd (hsym r')
  | refused r' => exact absurd hd (decodeSym_ne_refused h)
  | ok sym s₁ =>
    rw [hd] at hmoves
    have h₁ := hmoves.of_ok.inputValid h
    cases hx : readExtension c sym s₁ with
    | raised f s₂ => rw [tokenStep_of_extension_raised hd hx]; nofun
    | faulted r' => exact absurd hx (readExtension_moves_datapath c sym s₁).ne_faulted
    | refused r' => exact absurd hx (readExtension_ne_refused h₁)
    | ok bytes s₂ =>
      obtain ⟨i, hi, -⟩ := exists_decode_of_readExtension hx (window c s₁)
      rw [tokenStep_of_decoded hd hx hi]
      exact execIn_ne_refused (decode_token_ne_start hi) h₁

theorem engineStep_ne_refused (h : Inv c s) : engineStep c (execIn c) s ≠ .refused r := by
  rcases engineStep_cases c (execIn c) s with
    ⟨-, e⟩ | ⟨hbusy, -, e⟩ | ⟨-, -, -, e⟩ | ⟨-, -, -, -, e⟩ | ⟨hbusy, hphase, -, -, e⟩ <;> rw [e]
  · nofun
  · exact Res.outcome_ne_refused (init_ne_refused (h.valid hbusy))
  · nofun
  · nofun
  · exact tokenStep_ne_refused (fun _ => decodeSym_ne_faulted (h.table hbusy hphase)) (h.valid hbusy)

/-- R164: from every state that meets the invariant the engine has a step, in every valid configuration. -/
theorem exists_engineStep_next (hc : c.Valid) (h : Inv c s) : ∃ t, engineStep c (execIn c) s = .next t := by
  cases e : engineStep c (execIn c) s with
  | next t => exact ⟨t, rfl⟩
  | fault r => exact absurd e (engineStep_ne_fault hc h)
  | refused r => exact absurd e (engineStep_ne_refused h)

/-! ## The bound on the steps left -/

theorem stepsLeft_init (hbusy : s.status = .busy) (hphase : s.phase = .init) :
    stepsLeft s = s.dsize.toNat - s.opos.toNat + 2 := by
  simp only [stepsLeft, hbusy, hphase]

theorem stepsLeft_run (hbusy : s.status = .busy) (hphase : s.phase = .run) :
    stepsLeft s = s.dsize.toNat - s.opos.toNat + 1 := by
  simp only [stepsLeft, hbusy, hphase]

theorem stepsLeft_of_not_busy (h : s.status ≠ .busy) : stepsLeft s = 0 := by
  unfold stepsLeft
  split
  · exact absurd ‹_› h
  · rfl

theorem stepsLeft_pos (hbusy : s.status = .busy) : 0 < stepsLeft s := by
  cases hphase : s.phase
  · rw [stepsLeft_init hbusy hphase]; omega
  · rw [stepsLeft_run hbusy hphase]; omega

/-! ## What a step makes of a run -/

/-- The run that was in progress in `s` still is in `t`, in its token phase: the sizes and the host's moves are as they
were, and OPOS has not decreased. -/
structure InProgress (s t : State) : Prop where
  status : t.status = s.status
  phase : t.phase = .run
  moves : t.moves = s.moves
  dsize : t.dsize = s.dsize
  oposGe : s.opos.toNat ≤ t.opos.toNat

/-- INIT, when it completes, begins the token phase, and OPOS stays. -/
theorem init_ok_inProgress (h : init c s = .ok () t) : InProgress s t := by
  have hmoves := init_moves_datapath c s
  rw [h] at hmoves
  have hmoved := hmoves.of_ok
  obtain ⟨_, _, -, hbuild⟩ := Res.bind_eq_ok h
  obtain ⟨_, _, -, hprime⟩ := Res.bind_eq_ok hbuild
  obtain ⟨_, u, -, hbegin⟩ := Res.bind_eq_ok hprime
  obtain ⟨bend, e, -⟩ := exists_beginBlock c u
  rw [e] at hbegin
  have hphase : t.phase = .run := by cases hbegin; rfl
  exact ⟨hmoved.status_eq, hphase, by rw [hmoved], by rw [hmoved], by rw [hmoved]⟩

/-- DECODESYM, when it completes, has moved the reader and written SYM. -/
theorem decodeSym_ok (h : decodeSym c s = .ok sym t) : ∃ acc bcnt ipos, t = setSym sym (readerMoved acc bcnt ipos s) := by
  rcases decodeSym_cases c s with ⟨-, e⟩ | ⟨-, -, e⟩ | ⟨-, sym', l, -, ⟨u, hu, e⟩ | ⟨-, e⟩ | ⟨-, e⟩⟩ <;>
    cases e.symm.trans h
  · exact ⟨s.acc, s.bcnt, s.ipos, rfl⟩
  · exact ⟨u.acc, u.bcnt, u.ipos, congrArg (setSym sym) (consume_moves hu)⟩

/-- A match below DSIZE that no fault stops copies a byte or more, R164. -/
theorem exec_match_advances (hi : isMatchForm i = true) (hroom : s.opos.toNat < s.dsize.toNat) (h : exec i s = .next t)
    (herr : t.status ≠ .err) : TokenFrame s t ∧ s.opos.toNat < t.opos.toNat := by
  rcases exec_match_cases hi s with ⟨dbits, extra, ext, e⟩ | ⟨f, ext, e⟩ | ⟨r, e⟩ <;> rw [e] at h
  · rcases Res.outcome_eq_next h with ⟨_, hok⟩ | ⟨f, u, -, rfl⟩
    · obtain ⟨acc, bcnt, ipos, out, rfl, -⟩ := finishMatch_ok hok
      have hcount : copyCount (setLength (matchLength i) (advance ext s)) =
          min (matchLength i) (s.dsize.toNat - s.opos.toNat) :=
        copyCount_setLength (matchLength_lt i) s.acc s.bcnt (advance ext s).ipos s
      have hopos : (copied out (copyCount (setLength (matchLength i) (advance ext s))) s).opos.toNat = s.opos.toNat + _ :=
        copied_opos_toNat out (Nat.min_le_right _ _)
      have hpos := matchLength_pos hi
      refine ⟨tokenFrame_copied out _ _ _ acc bcnt ipos s, Nat.lt_of_lt_of_eq ?_ hopos.symm⟩
      omega
    · exact absurd (enterFault_status f u) herr
  · cases h
    exact absurd (enterFault_status f (advance ext s)) herr
  · cases h

theorem tokenFrame_emit (b : Byte) (s : State) : TokenFrame s (emit b s) :=
  ⟨rfl, rfl, rfl, rfl, rfl, rfl, rfl, rfl, rfl, rfl, rfl, rfl, rfl, rfl, rfl, rfl, rfl, rfl, rfl, rfl⟩

/-- Every token below DSIZE that no fault stops makes a byte or more; LIT makes one, R111. -/
theorem exec_token_advances (hi : ∀ value, i ≠ .start value) (hroom : s.opos.toNat < s.dsize.toNat)
    (h : exec i s = .next t) (herr : t.status ≠ .err) : TokenFrame s t ∧ s.opos.toNat < t.opos.toNat := by
  cases i with
  | lit b =>
    obtain ⟨-, rfl⟩ := exec_lit_next h
    obtain ⟨-, hpos⟩ := outWrite_of_room (b := b) hroom
    exact ⟨tokenFrame_emit b s, (Nat.lt_succ_self _).trans_eq hpos.symm⟩
  | matchM dbits lnib extra => exact exec_match_advances rfl hroom h herr
  | matchX8 dbits b extra => exact exec_match_advances rfl hroom h herr
  | matchX16 dbits v extra => exact exec_match_advances rfl hroom h herr
  | start value => exact absurd rfl (hi value)

/-- A token step comes to its token by way of DECODESYM, which leaves OPOS and PHASE. -/
theorem tokenStep_std_advances (hphase : s.phase = .run) (hroom : s.opos.toNat < s.dsize.toNat)
    (h : tokenStep Config.std exec s = .next t) (herr : t.status ≠ .err) :
    InProgress s t ∧ s.opos.toNat < t.opos.toNat := by
  rcases tokenStep_next h with ⟨sym, s₁, bytes, s₂, i, e, -, hi, hex⟩ | ⟨f, s₁, -, rfl⟩ | ⟨sym, s₁, f, s₂, -, -, rfl⟩
  · obtain ⟨acc, bcnt, ipos, rfl⟩ := decodeSym_ok e
    have hroom₁ : (setSym sym (readerMoved acc bcnt ipos s)).opos.toNat <
      (setSym sym (readerMoved acc bcnt ipos s)).dsize.toNat := hroom
    obtain ⟨hframe, hlt⟩ := exec_token_advances (decode_token_ne_start hi) hroom₁ hex herr
    exact ⟨⟨hframe.status, hframe.phase.trans hphase, hframe.moves, hframe.dsize, Nat.le_of_lt hlt⟩, hlt⟩
  · exact absurd (enterFault_status f s₁) herr
  · exact absurd (enterFault_status f s₂) herr

/-- A step of a run takes a fault, or finishes, or brings the run closer to its end. -/
theorem engineStep_std_progress (h : Inv Config.std s) (hbusy : s.status = .busy)
    (ht : engineStep Config.std exec s = .next t) :
    (∃ f, FaultTaken f t.ipos.toNat s t) ∨ (s.opos = s.dsize ∧ t = finish s) ∨
      (InProgress s t ∧ stepsLeft t < stepsLeft s) := by
  by_cases herr : t.status = .err
  · exact .inl (engineStep_std_err hbusy ht herr)
  right
  rcases engineStep_cases Config.std exec s with
    ⟨hidle, -⟩ | ⟨-, hphase, e⟩ | ⟨-, -, hsize, e⟩ | ⟨-, -, -, hblock, -⟩ | ⟨-, hphase, hsize, -, e⟩
  · exact absurd hbusy hidle
  · right
    rcases Res.outcome_eq_next (e.symm.trans ht) with ⟨_, hok⟩ | ⟨f, u, -, rfl⟩
    · have hrun := init_ok_inProgress hok
      refine ⟨hrun, ?_⟩
      have hopos := hrun.oposGe
      rw [stepsLeft_run (hrun.status.trans hbusy) hrun.phase, stepsLeft_init hbusy hphase, hrun.dsize]
      omega
    · exact absurd (enterFault_status f u) herr
  · exact .inl ⟨hsize, by cases e.symm.trans ht; rfl⟩
  · rw [blockDue_of_none rfl] at hblock
    cases hblock
  · right
    have hroom : s.opos.toNat < s.dsize.toNat :=
      Nat.lt_of_le_of_ne (h.running hbusy).oposLe fun he => hsize (BitVec.eq_of_toNat_eq he)
    obtain ⟨hrun, hlt⟩ := tokenStep_std_advances hphase hroom (e.symm.trans ht) herr
    refine ⟨hrun, ?_⟩
    rw [stepsLeft_run (hrun.status.trans hbusy) hrun.phase, stepsLeft_run hbusy hphase, hrun.dsize]
    omega

theorem std_valid : Config.std.Valid := by
  refine ⟨by decide, by decide, by decide, fun d => ?_, nofun⟩
  have hdist : Config.std.distBase d = 2 ^ d.toNat := Nat.one_shiftLeft d.toNat
  have hpow : 2 ^ d.toNat ≤ 2 ^ 15 := Nat.pow_le_pow_right (by decide) (nibble_le d)
  rw [hdist]
  exact ⟨Nat.one_le_two_pow, by omega⟩

/-- With no move of the host pending a BUSY state has a step, which does one of these three. -/
theorem exists_step_progress (h : Inv Config.std s) (hbusy : s.status = .busy) (hmoves : s.moves = []) :
    ∃ t, step s = .next t ∧ ((∃ f, FaultTaken f t.ipos.toNat s t) ∨ (s.opos = s.dsize ∧ t = finish s) ∨
      (InProgress s t ∧ stepsLeft t < stepsLeft s)) := by
  obtain ⟨t, ht⟩ := exists_engineStep_next std_valid h
  have hex : execIn Config.std = exec := funext₂ fun i s => (exec_eq_execIn i s).symm
  rw [hex] at ht
  exact ⟨t, (step_of_engine hmoves).trans ht, engineStep_std_progress h hbusy ht⟩

/-- Settles O54: a step that ends the run leaves no steps, and any other leaves fewer than before it. -/
theorem busyStepsMakeProgress : Obligations.BusyStepsMakeProgress := by
  unfold Obligations.BusyStepsMakeProgress
  intro s h hbusy hmoves
  obtain ⟨t, ht, hends | ⟨-, rfl⟩ | ⟨-, hlt⟩⟩ := exists_step_progress h hbusy hmoves
  · obtain ⟨f, hfault⟩ := hends
    exact ⟨t, ht, (stepsLeft_of_not_busy (by rw [hfault.status]; decide)).trans_lt (stepsLeft_pos hbusy)⟩
  · exact ⟨_, ht, (stepsLeft_of_not_busy (by rw [finish_status]; decide)).trans_lt (stepsLeft_pos hbusy)⟩
  · exact ⟨t, ht, hlt⟩

/-! ## The end of a run, R164 and R165 -/

/-- How a run of `dsize` bytes is over, R29: DONE with exactly these bytes of OUT, or ERR with one of the seven causes. -/
def RunOver (dsize : Word32) (t : State) : Prop :=
  (t.status = .done ∧ t.opos = dsize ∧ t.errcode = 0 ∧
      ∀ a : Nat, (t.output.read a).isSome = true ↔ a < dsize.toNat) ∨
    (t.status = .err ∧ ∃ f : FaultCause, t.errcode = f.code ∧ t.errsub = f.sub)

theorem FaultTaken.runOver {f : FaultCause} {pos : Nat} (h : FaultTaken f pos s t) (dsize : Word32) : RunOver dsize t :=
  .inr ⟨h.status, f, h.errcode, h.errsub⟩

/-- FINISH comes with OUT filled below DSIZE and the error registers 0, which the invariant says of a run at its size. -/
theorem runOver_finish (h : Inv Config.std s) (hbusy : s.status = .busy) (hsize : s.opos = s.dsize) :
    RunOver s.dsize (finish s) := by
  rcases h.errors with ⟨herr, -⟩ | ⟨-, hcode, -⟩
  · rw [hbusy] at herr
    cases herr
  · exact .inl ⟨rfl, hsize, hcode, fun a => by rw [← hsize]; exact (h.running hbusy).filled a⟩

/-- The idle steps after the end change nothing (log 9). -/
theorem run_of_not_busy (h : s.status ≠ .busy) (hmoves : s.moves = []) (k : Nat) : core.run k s = .next s := by
  induction k with
  | zero => rfl
  | succ k ih => rw [run_succ ((step_of_engine hmoves).trans (engineStep_of_not_busy h)), ih]

/-- The steps left, and any more, end a run. -/
theorem exists_run_over {k : Nat} (h : Inv Config.std s) (hbusy : s.status = .busy) (hmoves : s.moves = [])
    (hk : stepsLeft s ≤ k) : ∃ t, core.run k s = .next t ∧ RunOver s.dsize t := by
  induction k generalizing s with
  | zero => exact absurd (stepsLeft_pos hbusy) (Nat.not_lt.mpr hk)
  | succ k ih =>
    obtain ⟨t, ht, ⟨f, hfault⟩ | ⟨hsize, rfl⟩ | ⟨hrun, hlt⟩⟩ := exists_step_progress h hbusy hmoves
    · have herr : t.status ≠ .busy := by rw [hfault.status]; decide
      exact ⟨t, (run_succ ht).trans (run_of_not_busy herr (hfault.moves.trans hmoves) k), hfault.runOver s.dsize⟩
    · have hdone : (finish s).status ≠ .busy := by rw [finish_status]; decide
      exact ⟨finish s, (run_succ ht).trans (run_of_not_busy hdone hmoves k), runOver_finish h hbusy hsize⟩
    · have hinv : Inv Config.std t := stepIn_keeps_inv (by decide) h ht
      obtain ⟨u, hu, hover⟩ := ih hinv (hrun.status.trans hbusy) (hrun.moves.trans hmoves) (by omega)
      exact ⟨u, (run_succ ht).trans hu, hrun.dsize ▸ hover⟩

/-- Settles O55: a launched run has at most DSIZE + 2 steps left. -/
theorem everyRunEnds : Obligations.EveryRunEnds := by
  unfold Obligations.EveryRunEnds
  intro s h hbusy hphase hmoves
  exact exists_run_over h hbusy hmoves (by rw [stepsLeft_init hbusy hphase]; omega)

end Sys2Proof.Machine
end
